-- ==== Sys2Proof/Word.lean ====
section
/-! DEFINITION. The words of the machine: 8-bit bytes on the wire (R13) and the 16-bit values of Device State (R35). -/

namespace Sys2Proof

/-- A byte, 8 bits, bit 7 most significant (R13). -/
abbrev Byte := BitVec 8

/-- A 16-bit Device State value (R76: the widest a control code carries). -/
abbrev Word16 := BitVec 16

end Sys2Proof
end

