-- ==== Sys2Proof/Config.lean ====
section
/-! DEFINITION. The constants the source fixes (R9), the control-code names (R112), the Device State record (R35), the
configuration record `cfg` of open parameters (R10), the reference configuration (R12, R113) and the one free value. Each
open parameter is a field of `Cfg`, which the machine carries unchanged, so that a statement about every state is a
statement about every configuration. -/

namespace Sys2Proof

/-! ### Constants fixed by the source (R9) -/

/-- `MARKER`, the reserved marker (escape) byte. -/
abbrev markerByte : Byte := 0x10#8
/-- `START`, second byte of the frame-start delimiter. -/
abbrev startByte : Byte := 0x02#8
/-- `END`, second byte of the frame-end delimiter. -/
abbrev endByte : Byte := 0x03#8
/-- `SOH`, the start-of-header pre-frame byte. -/
abbrev sohByte : Byte := 0x01#8
/-- `CK_SEED`, the checksum seed. -/
abbrev ckSeed : Byte := 0x01#8
/-- `ACK_STATUS`, the data byte of every acknowledge reply. -/
abbrev ackStatus : Byte := 0x06#8
/-- `BROADCAST`, the destination that always matches. -/
abbrev broadcastAddr : Byte := 0x00#8
/-- The reserved address 0xFF (R73, R115), above `ADDR_MAX`. -/
abbrev reservedAddr : Byte := 0xFF#8
/-- `HDR_LEN`: source, destination, frame-id, control, length. -/
abbrev hdrLen : Nat := 5
/-- `MIN_FLUSH`, least buffered bytes for a best-effort flush. -/
abbrev minFlush : Nat := 6
/-- `T_SYN_MIN`, least spacing in ms of two SYN transmissions on one channel. -/
abbrev tSynMin : Nat := 1500
/-- `ID_MAX`, most identity bytes. -/
abbrev idMax : Nat := 64
/-- `FW_MAX`, most bytes of the firmware-identification string. -/
abbrev fwMax : Nat := 64
/-- `SUCTION_MAX`. -/
abbrev suctionMax : Nat := 3
/-- `FLOW_MAX`. -/
abbrev flowMax : Nat := 1000
/-- `FILTER_MAX`. -/
abbrev filterMax : Nat := 1000

/-! ### Free values -/

/-- The length byte of a reply with more than 255 data bytes, which only a table entry with 254 or more index bytes can
ask for: `encode_frame` takes at most 255 (R155) and the spec states no length byte beyond. A free value (log entry 14). -/
opaque Config.overlongLength : Nat → Byte

/-! ### Control-code names (R112) -/

/-- The 18 read entries `R_x` of `CC_TABLE` (R112). -/
inductive RName
  | suctionLevel | flow | speed | selectFlow | workAct | standAct | workDelay | standDelay
  | workAfterrunMs | standAfterrunMs | pedalAct | pedalMode | filterStatus | filterSat
  | connectedPedal | contSuction | usbConnect | stationError
deriving DecidableEq, Repr

/-- The 14 write entries `W_x` of `CC_TABLE` (R112); the read-only fields have none (C3, R278). -/
inductive WName
  | suctionLevel | selectFlow | workAct | standAct | workDelay | standDelay | pedalAct | pedalMode
  | filterStatus | filterSat | connectedPedal | contSuction | usbConnect | stationError
deriving DecidableEq, Repr

/-- An entry name of `CC_TABLE`: its direction and its field (R112). -/
inductive Entry
  | r (n : RName)
  | w (n : WName)
deriving DecidableEq, Repr

/-- One entry of `CC_TABLE`. R112 fixes direction, field and value width by the entry's name; the code and the number
of index bytes are open. -/
structure CcRow where
  entry : Entry
  code : Byte
  idxN : Nat
deriving DecidableEq, Repr

/-- Every entry name, once, in the order of R112's table. -/
def allEntries : List Entry :=
  [.r .suctionLevel, .w .suctionLevel, .r .flow, .r .speed, .r .selectFlow, .w .selectFlow, .r .workAct, .w .workAct,
   .r .standAct, .w .standAct, .r .workDelay, .w .workDelay, .r .standDelay, .w .standDelay]
  ++ [.r .workAfterrunMs, .r .standAfterrunMs, .r .pedalAct, .w .pedalAct, .r .pedalMode, .w .pedalMode,
   .r .filterStatus, .w .filterStatus, .r .filterSat, .w .filterSat]
  ++ [.r .connectedPedal, .w .connectedPedal, .r .contSuction, .w .contSuction, .r .usbConnect, .w .usbConnect,
   .r .stationError, .w .stationError]

/-! ### Device State (R35 to R45) -/

/-- Device State `ds`: the one shared bank of control and status registers (R35 to R45). The two derived millisecond
fields are not stored (R41). -/
structure Device where
  suctionLevel : Byte       -- R36
  selectFlow : Word16       -- R37
  flow : Word16             -- R38
  speed : Word16            -- R38
  workAct : Bool            -- R39
  standAct : Bool           -- R39
  workDelayS : Word16       -- R40
  standDelayS : Word16      -- R40
  pedalAct : Bool           -- R42
  pedalMode : Byte          -- R42
  filterLife : Word16       -- R43
  filterSat : Word16        -- R43
  connectedPedal : Bool     -- R45
  contSuction : Bool        -- R45
  usbConnect : Bool         -- R45
  stationError : Word16     -- R44
deriving DecidableEq, Repr

/-! ### The configuration record (R10) -/

/-- `cfg`, the open parameters (R10) and the two parameters of the bit-level receiver (R143). It is a parameter of the
step relation, not a register (R53): no operation writes it. -/
structure Cfg where
  bNak : Byte
  bSyn : Byte
  bAck : Byte
  /-- `B_RESET`: named by the source, no value, no behaviour (R176); no rule reads it. -/
  bReset : Option Byte
  /-- `B_FWQUERY`: named by the source, no value, no behaviour (R176); no rule reads it. -/
  bFwQuery : Option Byte
  hsNakRestart : Bool
  fidHs : Byte
  fidApp : Byte
  ccHandshake : Byte
  ccFwId : Byte
  ccRIdentity : Byte
  ccWIdentity : Byte
  fwNopCodes : List Byte
  ccTable : List CcRow
  bufCap : Nat
  tInact : Nat
  tDebounce : Nat
  delayMaxS : Nat
  fwString : List Byte
  reportNoIdentity : Bool
  nActiveInit : Nat
  addrInit0 : Byte
  addrInit1 : Byte
  identityInit0 : List Byte
  identityInit1 : List Byte
  dsInit : Device
  /-- `T_BIT`, the bit period (R143, R455): real time only, no rule of the block reads it. -/
  tBit : Nat
  /-- `OSR`, line samples in one bit period (R143); open, without a lower bound (log entry 5 says what 0 and 1 do). -/
  osr : Nat
deriving DecidableEq, Repr

/-! ### The reference configuration (R113) -/

/-- `CC_TABLE` of `REFCFG` (R113): the spec's own arbitrary codes. -/
def refTable : List CcRow :=
  [⟨.r .suctionLevel, 0x30#8, 0⟩, ⟨.w .suctionLevel, 0x31#8, 0⟩, ⟨.r .flow, 0x32#8, 0⟩, ⟨.r .speed, 0x33#8, 0⟩,
   ⟨.r .selectFlow, 0x34#8, 0⟩, ⟨.w .selectFlow, 0x35#8, 0⟩, ⟨.r .workAct, 0x36#8, 1⟩, ⟨.w .workAct, 0x37#8, 1⟩,
   ⟨.r .standAct, 0x38#8, 1⟩, ⟨.w .standAct, 0x39#8, 1⟩, ⟨.r .workDelay, 0x3A#8, 1⟩, ⟨.w .workDelay, 0x3B#8, 1⟩]
  ++ [⟨.r .standDelay, 0x3C#8, 1⟩, ⟨.w .standDelay, 0x3D#8, 1⟩, ⟨.r .workAfterrunMs, 0x3E#8, 1⟩,
   ⟨.r .standAfterrunMs, 0x3F#8, 1⟩, ⟨.r .pedalAct, 0x40#8, 1⟩, ⟨.w .pedalAct, 0x41#8, 1⟩, ⟨.r .pedalMode, 0x42#8, 1⟩,
   ⟨.w .pedalMode, 0x43#8, 1⟩, ⟨.r .filterStatus, 0x44#8, 0⟩, ⟨.w .filterStatus, 0x45#8, 0⟩]
  ++ [⟨.r .filterSat, 0x46#8, 0⟩, ⟨.w .filterSat, 0x47#8, 0⟩, ⟨.r .connectedPedal, 0x48#8, 0⟩,
   ⟨.w .connectedPedal, 0x49#8, 0⟩, ⟨.r .contSuction, 0x4A#8, 0⟩, ⟨.w .contSuction, 0x4B#8, 0⟩,
   ⟨.r .usbConnect, 0x4C#8, 0⟩, ⟨.w .usbConnect, 0x4D#8, 0⟩, ⟨.r .stationError, 0x4E#8, 0⟩, ⟨.w .stationError, 0x4F#8, 0⟩]

/-- `DS_INIT` of `REFCFG` (R113). -/
def refDevice : Device where
  suctionLevel := 0#8
  selectFlow := 500#16
  flow := 0#16
  speed := 0#16
  workAct := false
  standAct := false
  workDelayS := 5#16
  standDelayS := 5#16
  pedalAct := false
  pedalMode := 0#8
  filterLife := 1000#16
  filterSat := 0#16
  connectedPedal := false
  contSuction := false
  usbConnect := false
  stationError := 0#16

/-- ASCII `0123456789ABCDEF`. -/
def refHexDigits : List Byte :=
  [0x30#8, 0x31#8, 0x32#8, 0x33#8, 0x34#8, 0x35#8, 0x36#8, 0x37#8, 0x38#8, 0x39#8, 0x41#8, 0x42#8, 0x43#8, 0x44#8,
   0x45#8, 0x46#8]

/-- The reference configuration `REFCFG` (R12, R113): the spec's own instance, not the real P02 table. DESIGN CHOICE
(log entry 1): `State.reset` carries it. `tBit` and `osr` stand outside R113 (R143 suggests 16 samples a bit). -/
def refCfg : Cfg where
  bNak := 0x15#8
  bSyn := 0x16#8
  bAck := 0x06#8
  bReset := none
  bFwQuery := none
  hsNakRestart := false
  fidHs := 0xFD#8
  fidApp := 0x0A#8
  ccHandshake := 0x00#8
  ccFwId := 0x21#8
  ccRIdentity := 0x1E#8
  ccWIdentity := 0x1F#8
  fwNopCodes := [0x20#8]
  ccTable := refTable
  bufCap := 80
  tInact := 5000
  tDebounce := 2000
  delayMaxS := 65535
  fwString := [0x30#8, 0x32#8, 0x3A#8, 0x46#8, 0x41#8, 0x45#8, 0x3A#8, 0x41#8, 0x3A#8, 0x30#8, 0x30#8, 0x30#8, 0x31#8,
    0x3A#8, 0x30#8, 0x30#8, 0x30#8, 0x31#8]
  reportNoIdentity := false
  nActiveInit := 2
  addrInit0 := 0x01#8
  addrInit1 := 0x02#8
  identityInit0 := refHexDigits ++ refHexDigits
  identityInit1 := []
  dsInit := refDevice
  tBit := 1
  osr := 16

end Sys2Proof
end

