-- ==== Sys2Proof/Machine/Framer.lean ====
section
/-! DEFINITION. The Framer (R150 to R155): checksum, its verifiers, byte stuffing and the frame encoder. Stateless. -/

namespace Sys2Proof

/-- `checksum(s)` (R150): XOR of the seed 0x01 with every byte, in order. -/
def checksum (s : List Byte) : Byte :=
  s.foldl (fun acc b => acc ^^^ b) ckSeed

/-- `verify(s)` (R154): the last byte is the checksum of the bytes before it; false on the empty sequence, to which
R154 does not apply it. -/
def verify (s : List Byte) : Bool :=
  match s.getLast? with
  | none => false
  | some last => checksum s.dropLast == last

/-- XOR of every byte, without the seed: what R151's equivalent verifier sums. -/
def xorBytes (s : List Byte) : Byte :=
  s.foldl (fun acc b => acc ^^^ b) 0#8

/-- R151's equivalent verifier: XOR every byte including the checksum byte and compare with the seed (log entry 16). The
decoder uses `verify`. -/
def verifyBySeed (s : List Byte) : Bool := xorBytes s == ckSeed

/-- `stuff(s)` (R152): every 0x10 is doubled, every other byte copied. -/
def stuff : List Byte → List Byte
  | [] => []
  | b :: rest => if b = markerByte then b :: b :: stuff rest else b :: stuff rest

/-- The `length` field of a frame with `n` data bytes (R104); free above 255 (log entry 14). -/
def lengthByte (n : Nat) : Byte := if n ≤ 255 then BitVec.ofNat 8 n else Config.overlongLength n

/-- The unescaped body of a frame: the five header bytes and the data (R103, R104). -/
def frameBody (src dst fid ctl : Byte) (data : List Byte) : List Byte :=
  [src, dst, fid, ctl, lengthByte data.length] ++ data

/-- The unescaped frame with its checksum byte, format F (R103, R105). -/
def frameBytes (src dst fid ctl : Byte) (data : List Byte) : List Byte :=
  frameBody src dst fid ctl data ++ [checksum (frameBody src dst fid ctl data)]

/-- `encode_frame` (R155): the frame as it stands on the wire, format W (R102). The four delimiter bytes are not
stuffed; the end delimiter is always sent. -/
def encodeFrame (src dst fid ctl : Byte) (data : List Byte) : List Byte :=
  [markerByte, startByte] ++ stuff (frameBytes src dst fid ctl data) ++ [markerByte, endByte]

end Sys2Proof
end

