-- ==== Sys2Proof/Syntax.lean ====
section
/-! DEFINITION. The syntax of the machine: channel indices, the enumerated sequencer and decoder states, frames, the
step inputs the environment supplies, and `Instr`, one constructor per row of the opcode table. -/

namespace Sys2Proof

/-- A channel index, 0 or 1 (R20, R141). -/
inductive Chan
  | c0 | c1
deriving DecidableEq, Repr

/-- The handshake state `ch[c].hs` (R24, R165). Its binary codes are not observable (D32). -/
inductive HsState
  | idle | seenNak | sentSyn | gotAck1 | sentAck2 | gotSoh | frameModeActive
deriving DecidableEq, Repr

/-- The decoder sub-state `ch[c].dec` (R25, R190). -/
inductive DecState
  | awaitMarker | awaitStart | inFrame
deriving DecidableEq, Repr

/-- The link state `ch[c].link` (R31). -/
inductive Link
  | down | connecting | up
deriving DecidableEq, Repr

/-- The three reported error conditions (R380). -/
inductive ErrKind
  | checksumMismatch | invalidEscape | overflow
deriving DecidableEq, Repr

/-- An unescaped frame less its checksum (R103); the length field is `data.length`. -/
structure Frame where
  src : Byte
  dst : Byte
  fid : Byte
  ctl : Byte
  data : List Byte
deriving DecidableEq, Repr

/-- What every frame-level instruction carries: the channel it arrived on, its four header bytes and the time of the
step that completed it (R230). -/
structure Hdr where
  c : Chan
  src : Byte
  dst : Byte
  fid : Byte
  ctl : Byte
  now : Nat
deriving DecidableEq, Repr

/-- The two telemetry placeholders an operator may set (R374). -/
inductive Telemetry
  | flow | speed
deriving DecidableEq, Repr

/-- The operator operations (R370 to R375). -/
inductive AdminOp
  | write (c : Chan) (ctl : Byte) (data : List Byte)
  | forceErrorMask (v : Word16)
  | setActiveCount (k : Nat)
  | setTelemetry (field : Telemetry) (v : Word16)
  | wipePersistence
deriving DecidableEq, Repr

/-- What the environment supplies, one at a time: the four kinds of step (R6), and one sample of a serial line for the
bit-level receiver (R143), high being `true`. -/
inductive Input
  | reset (t0 : Nat)
  | rx (c : Chan) (b : Byte) (now : Nat)
  | poll (now : Nat)
  | admin (op : AdminOp) (now : Nat)
  | line (c : Chan) (level : Bool) (now : Nat)
deriving DecidableEq, Repr

/-- The instructions: one constructor per row of the opcode table, in its order. Rows of format B and W-byte carry the
channel, the byte where the row does not fix it, and the time where the row's rule reads it. Rows of format F carry the
header and the data, cut into index bytes, value and ignored bytes where the row has a `CC_TABLE` entry (R109), so that
no byte of the encoding is dropped. -/
inductive Instr
  -- pre-frame bytes (R110)
  | hsMarker (c : Chan)
  | hsNak (c : Chan)
  | hsAck (c : Chan)
  | hsSoh (c : Chan)
  | hsNakRestart (c : Chan)
  | hsOther (c : Chan) (b : Byte)
  -- transitions without input (R165)
  | hsSyn (c : Chan) (now : Nat)
  | hsAck2 (c : Chan)
  | hsAck3 (c : Chan)
  -- bytes in frame mode (R111)
  | decAmMarker (c : Chan)
  | decAmOther (c : Chan) (b : Byte)
  | decAsStart (c : Chan)
  | decAsMarker (c : Chan)
  | decAsOther (c : Chan) (b : Byte)
  | decIfMarker (c : Chan)
  | decIfData (c : Chan) (b : Byte) (now : Nat)
  | decEscMarker (c : Chan) (now : Nat)
  | decEscEnd (c : Chan) (now : Nat)
  | decEscStart (c : Chan) (now : Nat)
  | decEscOther (c : Chan) (b : Byte)
  -- frames (R114)
  | frmHs (h : Hdr) (data : List Byte)
  | frmNotForUs (h : Hdr) (data : List Byte)
  | frmFwId (h : Hdr) (data : List Byte)
  | frmIdRead (h : Hdr) (data : List Byte)
  | frmIdWrite (h : Hdr) (data : List Byte)
  | frmFwNop (h : Hdr) (data : List Byte)
  | wSuctionLevel (h : Hdr) (idx : List Byte) (v : Byte) (extra : List Byte)
  | wSelectFlow (h : Hdr) (idx : List Byte) (v : Word16) (extra : List Byte)
  | wWorkAct (h : Hdr) (idx : List Byte) (v : Byte) (extra : List Byte)
  | wStandAct (h : Hdr) (idx : List Byte) (v : Byte) (extra : List Byte)
  | wWorkDelay (h : Hdr) (idx : List Byte) (v : Word16) (extra : List Byte)
  | wStandDelay (h : Hdr) (idx : List Byte) (v : Word16) (extra : List Byte)
  | wPedalAct (h : Hdr) (idx : List Byte) (v : Byte) (extra : List Byte)
  | wPedalMode (h : Hdr) (idx : List Byte) (v : Byte) (extra : List Byte)
  | wFilterStatus (h : Hdr) (idx : List Byte) (v : Word16) (extra : List Byte)
  | wFilterSat (h : Hdr) (idx : List Byte) (v : Word16) (extra : List Byte)
  | wConnectedPedal (h : Hdr) (idx : List Byte) (v : Byte) (extra : List Byte)
  | wContSuction (h : Hdr) (idx : List Byte) (v : Byte) (extra : List Byte)
  | wUsbConnect (h : Hdr) (idx : List Byte) (v : Byte) (extra : List Byte)
  | wStationError (h : Hdr) (idx : List Byte) (v : Word16) (extra : List Byte)
  | rSuctionLevel (h : Hdr) (idx : List Byte) (extra : List Byte)
  | rFlow (h : Hdr) (idx : List Byte) (extra : List Byte)
  | rSpeed (h : Hdr) (idx : List Byte) (extra : List Byte)
  | rSelectFlow (h : Hdr) (idx : List Byte) (extra : List Byte)
  | rWorkAct (h : Hdr) (idx : List Byte) (extra : List Byte)
  | rStandAct (h : Hdr) (idx : List Byte) (extra : List Byte)
  | rWorkDelay (h : Hdr) (idx : List Byte) (extra : List Byte)
  | rStandDelay (h : Hdr) (idx : List Byte) (extra : List Byte)
  | rWorkAfterrunMs (h : Hdr) (idx : List Byte) (extra : List Byte)
  | rStandAfterrunMs (h : Hdr) (idx : List Byte) (extra : List Byte)
  | rPedalAct (h : Hdr) (idx : List Byte) (extra : List Byte)
  | rPedalMode (h : Hdr) (idx : List Byte) (extra : List Byte)
  | rFilterStatus (h : Hdr) (idx : List Byte) (extra : List Byte)
  | rFilterSat (h : Hdr) (idx : List Byte) (extra : List Byte)
  | rConnectedPedal (h : Hdr) (idx : List Byte) (extra : List Byte)
  | rContSuction (h : Hdr) (idx : List Byte) (extra : List Byte)
  | rUsbConnect (h : Hdr) (idx : List Byte) (extra : List Byte)
  | rStationError (h : Hdr) (idx : List Byte) (extra : List Byte)
  | frmUnknown (h : Hdr) (data : List Byte)
  -- steps (R6)
  | reset (t0 : Nat)
  | rx (c : Chan) (b : Byte) (now : Nat)
  | poll (now : Nat)
  | adminWrite (c : Chan) (ctl : Byte) (data : List Byte) (now : Nat)
  | adminForceErrorMask (v : Word16) (now : Nat)
  | adminSetActiveCount (k : Nat) (now : Nat)
  | adminSetTelemetry (field : Telemetry) (v : Word16) (now : Nat)
  | adminWipePersistence (now : Nat)
deriving DecidableEq, Repr

/-- The context a row is selected in: the configuration, the active-channel count and, of the channel concerned, its
address (R231) and its sequencer and decoder state (R33). -/
structure Ctx where
  cfg : Cfg
  nActive : Nat
  addr : Byte
  hs : HsState
  dec : DecState
  esc : Bool
deriving DecidableEq, Repr

end Sys2Proof
end

