-- ==== Sys2Proof/Machine/Operands.lean ====
section
/-! DEFINITION. Operand assembly and value arithmetic (R13, R76, R109, R112): little-endian values, clamping, the value
widths of the control codes, the store of a value into a Device State field and the value a read returns. -/

namespace Sys2Proof

/-- `clamp(v, lo, hi)` (R13). -/
def clamp (v lo hi : Nat) : Nat :=
  if v < lo then lo else if hi < v then hi else v

/-- `sat16(v)` (R13). -/
def sat16 (v : Nat) : Nat :=
  if v ≤ 65535 then v else 65535

/-- `u16le(b0, b1)` (R13): low byte first. -/
def u16le (b0 b1 : Byte) : Nat :=
  b0.toNat + 256 * b1.toNat

/-- `le16(v)` (R13): bits 7 to 0, then bits 15 to 8. -/
def le16 (v : Nat) : List Byte :=
  [BitVec.ofNat 8 v, BitVec.ofNat 8 (v / 256)]

/-- A flag write (R39, D18): 1 for any nonzero value. -/
def flagOf (v : Nat) : Bool := v ≠ 0

/-- A flag read back (R39): 0 or 1. -/
def flagVal (b : Bool) : Nat := if b then 1 else 0

/-- The value width in bytes of a write entry (R112). -/
def WName.vw : WName → Nat
  | .suctionLevel => 1
  | .selectFlow => 2
  | .workAct => 1
  | .standAct => 1
  | .workDelay => 2
  | .standDelay => 2
  | .pedalAct => 1
  | .pedalMode => 1
  | .filterStatus => 2
  | .filterSat => 2
  | .connectedPedal => 1
  | .contSuction => 1
  | .usbConnect => 1
  | .stationError => 2

/-- The value width in bytes of a read entry (R112). -/
def RName.vw : RName → Nat
  | .suctionLevel => 1
  | .flow => 2
  | .speed => 2
  | .selectFlow => 2
  | .workAct => 1
  | .standAct => 1
  | .workDelay => 2
  | .standDelay => 2
  | .workAfterrunMs => 2
  | .standAfterrunMs => 2
  | .pedalAct => 1
  | .pedalMode => 1
  | .filterStatus => 2
  | .filterSat => 2
  | .connectedPedal => 1
  | .contSuction => 1
  | .usbConnect => 1
  | .stationError => 2

/-- The value operand of a write (R109, R260): one byte zero-extended, or two bytes low byte first, after `k` index
bytes. -/
def valueAt (vw k : Nat) (data : List Byte) : Nat :=
  if vw = 1 then (data.getD k 0).toNat else u16le (data.getD k 0) (data.getD (k + 1) 0)

/-- The serialisation of a read value (R300): one byte, or `le16`. -/
def valueBytes (vw v : Nat) : List Byte :=
  if vw = 1 then [BitVec.ofNat 8 v] else le16 v

/-- The derived after-run delay in milliseconds (R41), a natural number, not stored. -/
def afterrunMs (seconds : Word16) : Nat := 1000 * seconds.toNat

/-- `store_field(field, v)` (R277, R263 to R276): the clamping law of each write entry. -/
def storeField (delayMax : Nat) (n : WName) (v : Nat) (ds : Device) : Device :=
  match n with
  | .suctionLevel => { ds with suctionLevel := BitVec.ofNat 8 (clamp v 0 suctionMax) }
  | .selectFlow => { ds with selectFlow := BitVec.ofNat 16 (clamp v 0 flowMax) }
  | .workAct => { ds with workAct := flagOf v }
  | .standAct => { ds with standAct := flagOf v }
  | .workDelay => { ds with workDelayS := BitVec.ofNat 16 (clamp v 0 delayMax) }
  | .standDelay => { ds with standDelayS := BitVec.ofNat 16 (clamp v 0 delayMax) }
  | .pedalAct => { ds with pedalAct := flagOf v }
  | .pedalMode => { ds with pedalMode := BitVec.ofNat 8 v }
  | .filterStatus => { ds with filterLife := BitVec.ofNat 16 (clamp v 0 filterMax) }
  | .filterSat => { ds with filterSat := BitVec.ofNat 16 (clamp v 0 filterMax) }
  | .connectedPedal => { ds with connectedPedal := flagOf v }
  | .contSuction => { ds with contSuction := flagOf v }
  | .usbConnect => { ds with usbConnect := flagOf v }
  | .stationError => { ds with stationError := BitVec.ofNat 16 v }

/-- `value_of(field)` (R300 to R318): the field's value, the two derived fields saturated to 16 bits (R309, R310). -/
def valueOf (n : RName) (ds : Device) : Nat :=
  match n with
  | .suctionLevel => ds.suctionLevel.toNat
  | .flow => ds.flow.toNat
  | .speed => ds.speed.toNat
  | .selectFlow => ds.selectFlow.toNat
  | .workAct => flagVal ds.workAct
  | .standAct => flagVal ds.standAct
  | .workDelay => ds.workDelayS.toNat
  | .standDelay => ds.standDelayS.toNat
  | .workAfterrunMs => sat16 (afterrunMs ds.workDelayS)
  | .standAfterrunMs => sat16 (afterrunMs ds.standDelayS)
  | .pedalAct => flagVal ds.pedalAct
  | .pedalMode => ds.pedalMode.toNat
  | .filterStatus => ds.filterLife.toNat
  | .filterSat => ds.filterSat.toNat
  | .connectedPedal => flagVal ds.connectedPedal
  | .contSuction => flagVal ds.contSuction
  | .usbConnect => flagVal ds.usbConnect
  | .stationError => ds.stationError.toNat

/-- The index of a channel as a number. -/
def Chan.idx : Chan → Nat
  | .c0 => 0
  | .c1 => 1

/-- `for_us(c, dst)` (R231): broadcast, or the channel's current address. -/
def forUs (addr dst : Byte) : Bool :=
  dst == broadcastAddr || dst == addr

/-- The name and index-byte count of the write entry a control code selects (R112, R260). -/
def Cfg.findW (cfg : Cfg) (ctl : Byte) : Option (WName × Nat) :=
  cfg.ccTable.findSome? fun row =>
    match row.entry with
    | .w n => if row.code = ctl then some (n, row.idxN) else none
    | .r _ => none

/-- The name and index-byte count of the read entry a control code selects (R112, R300). -/
def Cfg.findR (cfg : Cfg) (ctl : Byte) : Option (RName × Nat) :=
  cfg.ccTable.findSome? fun row =>
    match row.entry with
    | .r n => if row.code = ctl then some (n, row.idxN) else none
    | .w _ => none

/-- The four intake-activation entries (R112, R236). -/
def Entry.isIntakeAct : Entry → Bool
  | .r .workAct => true
  | .w .workAct => true
  | .r .standAct => true
  | .w .standAct => true
  | _ => false

/-- The control code is one of the intake-activation codes (R236). -/
def Cfg.isIntakeActCode (cfg : Cfg) (ctl : Byte) : Bool :=
  cfg.ccTable.any fun row => row.entry.isIntakeAct && row.code == ctl

/-- The code of a table entry, `code(E)` (R236). -/
def Cfg.codeOf (cfg : Cfg) (e : Entry) : Option Byte :=
  cfg.ccTable.findSome? fun row => if row.entry = e then some row.code else none

end Sys2Proof
end

