-- ==== Sys2Proof/Decode.lean ====
section
/-! DEFINITION. The decoder and the encoder. Decoding has two levels (R100 to R114): a received byte selects a row by its
value and the channel's sequencer and decoder state (R110, R111); a verified frame selects a row by frame-id, control
code and data length (R114). Total on any bytes; what is no instruction is rejected by name. -/

namespace Sys2Proof

/-! ### Byte level (R110, R111) -/

/-- The rows a received byte can select (R110, R111). -/
inductive ByteSel
  | hsMarker | hsNak | hsAck | hsSoh | hsNakRestart | hsOther
  | decAmMarker | decAmOther | decAsStart | decAsMarker | decAsOther
  | decIfMarker | decIfData | decEscMarker | decEscEnd | decEscStart | decEscOther
deriving DecidableEq, Repr

/-- The opcode map of a pre-frame byte, first match wins (R110, R167). -/
def selectPreFrame (cfg : Cfg) (hs : HsState) (b : Byte) : ByteSel :=
  if b = markerByte then .hsMarker
  else if hs = .idle ∧ b = cfg.bNak then .hsNak
  else if hs = .sentSyn ∧ b = cfg.bAck then .hsAck
  else if hs = .sentAck2 ∧ b = sohByte then .hsSoh
  else if cfg.hsNakRestart = true ∧ b = cfg.bNak ∧ (hs = .sentSyn ∨ hs = .sentAck2) then .hsNakRestart
  else .hsOther

/-- The opcode map of a byte in frame mode (R111, R190). -/
def selectDecoder (dec : DecState) (esc : Bool) (b : Byte) : ByteSel :=
  match dec, esc with
  | .awaitMarker, _ => if b = markerByte then .decAmMarker else .decAmOther
  | .awaitStart, _ =>
    if b = startByte then .decAsStart else if b = markerByte then .decAsMarker else .decAsOther
  | .inFrame, false => if b = markerByte then .decIfMarker else .decIfData
  | .inFrame, true =>
    if b = markerByte then .decEscMarker
    else if b = endByte then .decEscEnd
    else if b = startByte then .decEscStart
    else .decEscOther

/-- The row a byte selects: the sequencer's until frame mode, then the decoder's (R33). -/
def selectByte (cfg : Cfg) (hs : HsState) (dec : DecState) (esc : Bool) (b : Byte) : ByteSel :=
  if hs = .frameModeActive then selectDecoder dec esc b else selectPreFrame cfg hs b

/-- The instruction of a byte-level row. -/
def ByteSel.instr (sel : ByteSel) (c : Chan) (b : Byte) (now : Nat) : Instr :=
  match sel with
  | .hsMarker => .hsMarker c
  | .hsNak => .hsNak c
  | .hsAck => .hsAck c
  | .hsSoh => .hsSoh c
  | .hsNakRestart => .hsNakRestart c
  | .hsOther => .hsOther c b
  | .decAmMarker => .decAmMarker c
  | .decAmOther => .decAmOther c b
  | .decAsStart => .decAsStart c
  | .decAsMarker => .decAsMarker c
  | .decAsOther => .decAsOther c b
  | .decIfMarker => .decIfMarker c
  | .decIfData => .decIfData c b now
  | .decEscMarker => .decEscMarker c now
  | .decEscEnd => .decEscEnd c now
  | .decEscStart => .decEscStart c now
  | .decEscOther => .decEscOther c b

/-- The instruction a received byte is. -/
def decodeByte (cx : Ctx) (c : Chan) (b : Byte) (now : Nat) : Instr :=
  (selectByte cx.cfg cx.hs cx.dec cx.esc b).instr c b now

/-- The transition without input that a sequencer state waits for (R165, R179). -/
def decodeSpontaneous (hs : HsState) (c : Chan) (now : Nat) : Option Instr :=
  match hs with
  | .seenNak => some (.hsSyn c now)
  | .gotAck1 => some (.hsAck2 c)
  | .gotSoh => some (.hsAck3 c)
  | .idle => none
  | .sentSyn => none
  | .sentAck2 => none
  | .frameModeActive => none

/-! ### Frame level (R114) -/

/-- What the write handler recognises (R260). -/
inductive WriteSel
  | identity
  | fwNop
  | entry (n : WName) (idxN : Nat)
deriving DecidableEq, Repr

/-- The write handler's recognition tests, in order (R260); a write entry with too little data is not recognised. -/
def selectWrite (cfg : Cfg) (ctl : Byte) (len : Nat) : Option WriteSel :=
  if ctl = cfg.ccWIdentity then some .identity
  else if ctl ∈ cfg.fwNopCodes then some .fwNop
  else
    match cfg.findW ctl with
    | some (n, k) => if len < k + n.vw then none else some (.entry n k)
    | none => none

/-- The read handler's recognition test (R300). -/
def selectRead (cfg : Cfg) (ctl : Byte) (len : Nat) : Option (RName × Nat) :=
  match cfg.findR ctl with
  | some (n, k) => if len < k then none else some (n, k)
  | none => none

/-- The rows a verified frame can select (R114). -/
inductive FrameSel
  | hs | notForUs | fwId | idRead
  | write (w : WriteSel)
  | read (n : RName) (idxN : Nat)
  | unknown
deriving DecidableEq, Repr

/-- The frame-level opcode map, first match wins (R114, R230). -/
def selectFrame (cfg : Cfg) (addr : Byte) (f : Frame) : FrameSel :=
  if f.fid = cfg.fidHs then .hs
  else if forUs addr f.dst = false then .notForUs
  else if f.fid = cfg.fidApp ∧ f.ctl = cfg.ccFwId then .fwId
  else if f.fid = cfg.fidApp ∧ f.ctl = cfg.ccRIdentity then .idRead
  else
    match selectWrite cfg f.ctl f.data.length with
    | some w => .write w
    | none =>
      match selectRead cfg f.ctl f.data.length with
      | some (n, k) => .read n k
      | none => .unknown

/-- The header of a frame that arrived on channel `c` and completed at `now`. -/
def Frame.hdr (f : Frame) (c : Chan) (now : Nat) : Hdr :=
  { c := c, src := f.src, dst := f.dst, fid := f.fid, ctl := f.ctl, now := now }

/-- The instruction of a write entry: index bytes, value, ignored bytes (R109). -/
def WName.instr (n : WName) (h : Hdr) (idx : List Byte) (v : Nat) (extra : List Byte) : Instr :=
  match n with
  | .suctionLevel => .wSuctionLevel h idx (BitVec.ofNat 8 v) extra
  | .selectFlow => .wSelectFlow h idx (BitVec.ofNat 16 v) extra
  | .workAct => .wWorkAct h idx (BitVec.ofNat 8 v) extra
  | .standAct => .wStandAct h idx (BitVec.ofNat 8 v) extra
  | .workDelay => .wWorkDelay h idx (BitVec.ofNat 16 v) extra
  | .standDelay => .wStandDelay h idx (BitVec.ofNat 16 v) extra
  | .pedalAct => .wPedalAct h idx (BitVec.ofNat 8 v) extra
  | .pedalMode => .wPedalMode h idx (BitVec.ofNat 8 v) extra
  | .filterStatus => .wFilterStatus h idx (BitVec.ofNat 16 v) extra
  | .filterSat => .wFilterSat h idx (BitVec.ofNat 16 v) extra
  | .connectedPedal => .wConnectedPedal h idx (BitVec.ofNat 8 v) extra
  | .contSuction => .wContSuction h idx (BitVec.ofNat 8 v) extra
  | .usbConnect => .wUsbConnect h idx (BitVec.ofNat 8 v) extra
  | .stationError => .wStationError h idx (BitVec.ofNat 16 v) extra

/-- The instruction of a read entry: index bytes and ignored bytes (R109). -/
def RName.instr (n : RName) (h : Hdr) (idx : List Byte) (extra : List Byte) : Instr :=
  match n with
  | .suctionLevel => .rSuctionLevel h idx extra
  | .flow => .rFlow h idx extra
  | .speed => .rSpeed h idx extra
  | .selectFlow => .rSelectFlow h idx extra
  | .workAct => .rWorkAct h idx extra
  | .standAct => .rStandAct h idx extra
  | .workDelay => .rWorkDelay h idx extra
  | .standDelay => .rStandDelay h idx extra
  | .workAfterrunMs => .rWorkAfterrunMs h idx extra
  | .standAfterrunMs => .rStandAfterrunMs h idx extra
  | .pedalAct => .rPedalAct h idx extra
  | .pedalMode => .rPedalMode h idx extra
  | .filterStatus => .rFilterStatus h idx extra
  | .filterSat => .rFilterSat h idx extra
  | .connectedPedal => .rConnectedPedal h idx extra
  | .contSuction => .rContSuction h idx extra
  | .usbConnect => .rUsbConnect h idx extra
  | .stationError => .rStationError h idx extra

/-- The instruction of a frame-level row, its data cut by the row's index-byte count and value width (R109). -/
def FrameSel.instr (sel : FrameSel) (h : Hdr) (data : List Byte) : Instr :=
  match sel with
  | .hs => .frmHs h data
  | .notForUs => .frmNotForUs h data
  | .fwId => .frmFwId h data
  | .idRead => .frmIdRead h data
  | .write .identity => .frmIdWrite h data
  | .write .fwNop => .frmFwNop h data
  | .write (.entry n k) => n.instr h (data.take k) (valueAt n.vw k data) (data.drop (k + n.vw))
  | .read n k => n.instr h (data.take k) (data.drop k)
  | .unknown => .frmUnknown h data

/-- The instruction a verified frame is. -/
def decodeFrame (cx : Ctx) (c : Chan) (f : Frame) (now : Nat) : Instr :=
  (selectFrame cx.cfg cx.addr f).instr (f.hdr c now) f.data

/-! ### Bytes to instructions -/

/-- Why a sequence of bytes is no instruction. -/
inductive DecodeError
  /-- No byte at all. -/
  | empty
  /-- More than one byte and fewer than the six of the shortest frame (R104). -/
  | tooShort
  /-- The length field does not count the data bytes (R104). -/
  | badLength
  /-- The last byte is not the checksum of the others (R105, R116). -/
  | badChecksum
deriving DecidableEq, Repr

/-- The fields of an unescaped frame whose last byte is its checksum (R103, R202): the data is `x[5 .. n-2]`, whatever
the length field says (R203). -/
def frameOf (x : List Byte) : Frame :=
  { src := x.getD 0 0, dst := x.getD 1 0, fid := x.getD 2 0, ctl := x.getD 3 0, data := (x.drop 5).dropLast }

/-- An unescaped frame, format F, checked: length field and checksum (R103 to R105). -/
def parseFrame (x : List Byte) : Except DecodeError Frame :=
  if x.length < 6 then .error .tooShort
  else if x.length ≠ 5 + (x.getD 4 0).toNat + 1 then .error .badLength
  else if verify x = false then .error .badChecksum
  else .ok (frameOf x)

/-- The decoder: one byte is a byte-level instruction, six bytes or more are an unescaped frame. -/
def decode (cx : Ctx) (c : Chan) (now : Nat) (x : List Byte) : Except DecodeError Instr :=
  match x with
  | [] => .error .empty
  | [b] => .ok (decodeByte cx c b now)
  | b0 :: b1 :: rest =>
    match parseFrame (b0 :: b1 :: rest) with
    | .ok f => .ok (decodeFrame cx c f now)
    | .error e => .error e

/-! ### Step inputs to instructions (R6) -/

/-- The instruction of an operator operation (R370). -/
def AdminOp.instr (op : AdminOp) (now : Nat) : Instr :=
  match op with
  | .write c ctl data => .adminWrite c ctl data now
  | .forceErrorMask v => .adminForceErrorMask v now
  | .setActiveCount k => .adminSetActiveCount k now
  | .setTelemetry field v => .adminSetTelemetry field v now
  | .wipePersistence => .adminWipePersistence now

/-- The instruction of a step input; a line sample is none (R143). -/
def decodeInput : Input → Option Instr
  | .reset t0 => some (.reset t0)
  | .rx c b now => some (.rx c b now)
  | .poll now => some (.poll now)
  | .admin op now => some (op.instr now)
  | .line _ _ _ => none

/-! ### The encoder -/

/-- A frame from a header and data. -/
def Hdr.frame (h : Hdr) (data : List Byte) : Frame :=
  { src := h.src, dst := h.dst, fid := h.fid, ctl := h.ctl, data := data }

/-- The frame of a frame-level instruction (R103, R109); none for the other rows. -/
def Instr.frame? : Instr → Option Frame
  | .frmHs h data => some (h.frame data)
  | .frmNotForUs h data => some (h.frame data)
  | .frmFwId h data => some (h.frame data)
  | .frmIdRead h data => some (h.frame data)
  | .frmIdWrite h data => some (h.frame data)
  | .frmFwNop h data => some (h.frame data)
  | .wSuctionLevel h idx v extra => some (h.frame (idx ++ [v] ++ extra))
  | .wSelectFlow h idx v extra => some (h.frame (idx ++ le16 v.toNat ++ extra))
  | .wWorkAct h idx v extra => some (h.frame (idx ++ [v] ++ extra))
  | .wStandAct h idx v extra => some (h.frame (idx ++ [v] ++ extra))
  | .wWorkDelay h idx v extra => some (h.frame (idx ++ le16 v.toNat ++ extra))
  | .wStandDelay h idx v extra => some (h.frame (idx ++ le16 v.toNat ++ extra))
  | .wPedalAct h idx v extra => some (h.frame (idx ++ [v] ++ extra))
  | .wPedalMode h idx v extra => some (h.frame (idx ++ [v] ++ extra))
  | .wFilterStatus h idx v extra => some (h.frame (idx ++ le16 v.toNat ++ extra))
  | .wFilterSat h idx v extra => some (h.frame (idx ++ le16 v.toNat ++ extra))
  | .wConnectedPedal h idx v extra => some (h.frame (idx ++ [v] ++ extra))
  | .wContSuction h idx v extra => some (h.frame (idx ++ [v] ++ extra))
  | .wUsbConnect h idx v extra => some (h.frame (idx ++ [v] ++ extra))
  | .wStationError h idx v extra => some (h.frame (idx ++ le16 v.toNat ++ extra))
  | .rSuctionLevel h idx extra => some (h.frame (idx ++ extra))
  | .rFlow h idx extra => some (h.frame (idx ++ extra))
  | .rSpeed h idx extra => some (h.frame (idx ++ extra))
  | .rSelectFlow h idx extra => some (h.frame (idx ++ extra))
  | .rWorkAct h idx extra => some (h.frame (idx ++ extra))
  | .rStandAct h idx extra => some (h.frame (idx ++ extra))
  | .rWorkDelay h idx extra => some (h.frame (idx ++ extra))
  | .rStandDelay h idx extra => some (h.frame (idx ++ extra))
  | .rWorkAfterrunMs h idx extra => some (h.frame (idx ++ extra))
  | .rStandAfterrunMs h idx extra => some (h.frame (idx ++ extra))
  | .rPedalAct h idx extra => some (h.frame (idx ++ extra))
  | .rPedalMode h idx extra => some (h.frame (idx ++ extra))
  | .rFilterStatus h idx extra => some (h.frame (idx ++ extra))
  | .rFilterSat h idx extra => some (h.frame (idx ++ extra))
  | .rConnectedPedal h idx extra => some (h.frame (idx ++ extra))
  | .rContSuction h idx extra => some (h.frame (idx ++ extra))
  | .rUsbConnect h idx extra => some (h.frame (idx ++ extra))
  | .rStationError h idx extra => some (h.frame (idx ++ extra))
  | .frmUnknown h data => some (h.frame data)
  | .hsMarker _ => none
  | .hsNak _ => none
  | .hsAck _ => none
  | .hsSoh _ => none
  | .hsNakRestart _ => none
  | .hsOther _ _ => none
  | .hsSyn _ _ => none
  | .hsAck2 _ => none
  | .hsAck3 _ => none
  | .decAmMarker _ => none
  | .decAmOther _ _ => none
  | .decAsStart _ => none
  | .decAsMarker _ => none
  | .decAsOther _ _ => none
  | .decIfMarker _ => none
  | .decIfData _ _ _ => none
  | .decEscMarker _ _ => none
  | .decEscEnd _ _ => none
  | .decEscStart _ _ => none
  | .decEscOther _ _ => none
  | .reset _ => none
  | .rx _ _ _ => none
  | .poll _ => none
  | .adminWrite _ _ _ _ => none
  | .adminForceErrorMask _ _ => none
  | .adminSetActiveCount _ _ => none
  | .adminSetTelemetry _ _ _ => none
  | .adminWipePersistence _ => none

/-- The byte of a byte-level instruction (R110, R111); none for the other rows. -/
def Instr.byte? (cfg : Cfg) : Instr → Option Byte
  | .hsMarker _ => some markerByte
  | .hsNak _ => some cfg.bNak
  | .hsAck _ => some cfg.bAck
  | .hsSoh _ => some sohByte
  | .hsNakRestart _ => some cfg.bNak
  | .hsOther _ b => some b
  | .decAmMarker _ => some markerByte
  | .decAmOther _ b => some b
  | .decAsStart _ => some startByte
  | .decAsMarker _ => some markerByte
  | .decAsOther _ b => some b
  | .decIfMarker _ => some markerByte
  | .decIfData _ b _ => some b
  | .decEscMarker _ _ => some markerByte
  | .decEscEnd _ _ => some endByte
  | .decEscStart _ _ => some startByte
  | .decEscOther _ b => some b
  | .hsSyn _ _ => none
  | .hsAck2 _ => none
  | .hsAck3 _ => none
  | .frmHs _ _ => none
  | .frmNotForUs _ _ => none
  | .frmFwId _ _ => none
  | .frmIdRead _ _ => none
  | .frmIdWrite _ _ => none
  | .frmFwNop _ _ => none
  | .wSuctionLevel _ _ _ _ => none
  | .wSelectFlow _ _ _ _ => none
  | .wWorkAct _ _ _ _ => none
  | .wStandAct _ _ _ _ => none
  | .wWorkDelay _ _ _ _ => none
  | .wStandDelay _ _ _ _ => none
  | .wPedalAct _ _ _ _ => none
  | .wPedalMode _ _ _ _ => none
  | .wFilterStatus _ _ _ _ => none
  | .wFilterSat _ _ _ _ => none
  | .wConnectedPedal _ _ _ _ => none
  | .wContSuction _ _ _ _ => none
  | .wUsbConnect _ _ _ _ => none
  | .wStationError _ _ _ _ => none
  | .rSuctionLevel _ _ _ => none
  | .rFlow _ _ _ => none
  | .rSpeed _ _ _ => none
  | .rSelectFlow _ _ _ => none
  | .rWorkAct _ _ _ => none
  | .rStandAct _ _ _ => none
  | .rWorkDelay _ _ _ => none
  | .rStandDelay _ _ _ => none
  | .rWorkAfterrunMs _ _ _ => none
  | .rStandAfterrunMs _ _ _ => none
  | .rPedalAct _ _ _ => none
  | .rPedalMode _ _ _ => none
  | .rFilterStatus _ _ _ => none
  | .rFilterSat _ _ _ => none
  | .rConnectedPedal _ _ _ => none
  | .rContSuction _ _ _ => none
  | .rUsbConnect _ _ _ => none
  | .rStationError _ _ _ => none
  | .frmUnknown _ _ => none
  | .reset _ => none
  | .rx _ _ _ => none
  | .poll _ => none
  | .adminWrite _ _ _ _ => none
  | .adminForceErrorMask _ _ => none
  | .adminSetActiveCount _ _ => none
  | .adminSetTelemetry _ _ _ => none
  | .adminWipePersistence _ => none

/-- The encoder: a byte-level row is its byte, a frame-level row its unescaped frame, format F (R103); the transitions
without input and the steps have no encoding (R110, R120). -/
def encode (cfg : Cfg) (i : Instr) : List Byte :=
  match i.byte? cfg with
  | some b => [b]
  | none =>
    match i.frame? with
    | some f => frameBytes f.src f.dst f.fid f.ctl f.data
    | none => []

/-- The bytes of an instruction on the wire: as `encode`, a frame stuffed and delimited, format W (R102). -/
def encodeWire (cfg : Cfg) (i : Instr) : List Byte :=
  match i.byte? cfg with
  | some b => [b]
  | none =>
    match i.frame? with
    | some f => encodeFrame f.src f.dst f.fid f.ctl f.data
    | none => []

/-! ### The opcode table's words -/

/-- Byte `k` of a word, least significant first. -/
def wordByte (w k : Nat) : Byte := BitVec.ofNat 8 (w / 256 ^ k)

/-- The first `n` bytes of a word from byte `k` on. -/
def wordBytes (w k : Nat) : Nat → List Byte
  | 0 => []
  | n + 1 => wordByte w k :: wordBytes w (k + 1) n

/-- The bytes of an instruction whose table row has `nbits` bits: none for a row without encoding, one byte for a
byte-level row, else an unescaped frame, which is `6 + length` bytes long (R104). -/
def tableBytes (nbits w : Nat) : List Byte :=
  if nbits = 0 then []
  else if nbits ≤ 8 then [wordByte w 0]
  else wordBytes w 0 (6 + (wordByte w 4).toNat)

/-- The sequencer and decoder state of the first table row whose byte is `b`: the state a lone byte is read in, the
table giving the same byte to several states (log entry 4). -/
def tableState (cfg : Cfg) (b : Byte) : HsState × DecState × Bool :=
  if b = markerByte then (.idle, .awaitMarker, false)
  else if b = cfg.bNak then (.idle, .awaitMarker, false)
  else if b = cfg.bAck then (.sentSyn, .awaitMarker, false)
  else if b = sohByte then (.sentAck2, .awaitMarker, false)
  else if b = startByte then (.frameModeActive, .awaitStart, false)
  else if b = endByte then (.frameModeActive, .inFrame, true)
  else (.idle, .awaitMarker, false)

/-- The context a table word is read in: `REFCFG`, channel 0 at its reset address, in the state `tableState` gives. -/
def tableCtx (b : Byte) : Ctx :=
  { cfg := refCfg
    nActive := refCfg.nActiveInit
    addr := refCfg.addrInit0
    hs := (tableState refCfg b).1
    dec := (tableState refCfg b).2.1
    esc := (tableState refCfg b).2.2 }

/-- The instruction the decoder reads from a table word of `nbits` bits. -/
def decodeTableWord (nbits w : Nat) : Option Instr :=
  match decode (tableCtx (wordByte w 0)) .c0 0 (tableBytes nbits w) with
  | .ok i => some i
  | .error _ => none

end Sys2Proof
end

