-- ==== Sys2Proof/Machine/Memory.lean ====
section
/-! DEFINITION. The byte-addressed memories of the block (R70, R71): a list of cells in one canonical form, addresses
strictly rising and no cell equal to what an unlisted address reads as. -/

namespace Sys2Proof.Machine

/-- A byte-addressed memory. -/
abbrev Memory := List Host.Cell

/-- What an unlisted address reads as. DESIGN CHOICE (log entry 3): the spec gives the buffers no reset contents (R54:
`buf[i]` unspecified, never read); no rule reads a byte it has not written. -/
abbrev memDefault : Byte := 0#8

/-- The byte at an address. -/
def Memory.read : Memory → Nat → Byte
  | [], _ => memDefault
  | (k, v) :: rest, a => if k = a then v else Memory.read rest a

/-- Store one byte, keeping the canonical form. -/
def Memory.write : Memory → Nat → Byte → Memory
  | [], a, b => if b = memDefault then [] else [(a, b)]
  | (k, v) :: rest, a, b =>
    if a < k then (if b = memDefault then (k, v) :: rest else (a, b) :: (k, v) :: rest)
    else if a = k then (if b = memDefault then rest else (a, b) :: rest)
    else (k, v) :: Memory.write rest a b

/-- Store bytes from address `a` up. -/
def Memory.writeBytes (m : Memory) (a : Nat) : List Byte → Memory
  | [] => m
  | b :: rest => Memory.writeBytes (Memory.write m a b) (a + 1) rest

/-- The `n` bytes from address `a` up. -/
def Memory.readBytes (m : Memory) (a : Nat) : Nat → List Byte
  | 0 => []
  | n + 1 => Memory.read m a :: Memory.readBytes m (a + 1) n

/-- The canonical form from address `lo` up: addresses strictly rising, no cell at the default. -/
def Memory.wfFrom : Nat → Memory → Bool
  | _, [] => true
  | lo, (k, v) :: rest => decide (lo ≤ k) && v != memDefault && Memory.wfFrom (k + 1) rest

/-- The canonical form. -/
def Memory.wf (m : Memory) : Bool := Memory.wfFrom 0 m

/-- Every listed address is below `cap`: the memory stays inside its address space. -/
def Memory.below (cap : Nat) (m : Memory) : Bool := m.all fun cell => decide (cell.1 < cap)

end Sys2Proof.Machine
end

