-- ==== Sys2Proof/Machine/State.lean ====
section
/-! DEFINITION. The state of the block (R20 to R56), its output events (R8), the reasons a step can stop, and the state
after RESET (R54, R420). Plain data throughout. -/

namespace Sys2Proof.Machine

/-! ### Output events (R8) -/

/-- What the persistence collaborator is sent (R8). -/
inductive Persist
  | saveAddress (c : Chan) (a : Byte)
  | saveIdentity (c : Chan) (bytes : List Byte)
  | saveConfig
deriving DecidableEq, Repr

/-- An output event, in the order a step emits them (R8). -/
inductive Event
  | tx (c : Chan) (bytes : List Byte)
  | report (c : Chan) (kind : ErrKind)
  | persist (p : Persist)
  | relay (v : Bool)
deriving DecidableEq, Repr

/-! ### Why a step can stop -/

/-- The faults of the machine: none. "Nothing in this core is a fatal/process-terminating error" (R116, `60_exceptions.md`):
the three reported conditions (R380) resynchronise a decoder and the machine goes on. -/
inductive Fault
deriving DecidableEq, Repr

/-- The refusals. -/
inductive Refusal
  /-- An instruction without a meaning: raised by an arm of `exec` only, and no arm raises it. Safe. -/
  | notModelled (mnemonic : String)
  /-- A step input whose time is earlier than the latest step's, raised by `fetch` only: the step relation is defined
  only for non-decreasing `now` (R7; `93_implementation_defined.md` row 26: refuse). Safe. -/
  | timeBackwards
deriving DecidableEq, Repr

/-! ### Registers -/

/-- What the bit-level receiver waits for (R143): a falling edge, the middle of the start bit, of data bit `k`, or of
the stop bit. -/
inductive UartPhase
  | idle
  | start
  | data (k : Nat)
  | stop
deriving DecidableEq, Repr

/-- The bit-level receiver of one channel (R143). -/
structure Uart where
  sync1 : Bool        -- the first synchronising flip-flop
  sync2 : Bool        -- the second: the synchronised line
  phase : UartPhase
  count : Nat         -- samples left until the next bit is sampled
  shift : Byte        -- the data bits sampled so far
deriving DecidableEq, Repr

/-- One channel record `ch[c]` (R20 to R31), with its bit-level receiver (R143). -/
structure Channel where
  addr : Byte         -- R21
  locked : Bool       -- R22
  peer : Byte         -- R23
  hs : HsState        -- R24
  dec : DecState      -- R25
  esc : Bool          -- R26
  buf : Memory        -- R27, `buf[0 .. BUF_CAP-1]`
  n : Nat             -- R27, the fill count
  tRx : Nat           -- R29
  tSyn : Nat          -- R29
  synValid : Bool     -- R29
  tReply : Nat        -- R29
  tIdle : Nat         -- R29
  identity : Memory   -- R30, `identity[0 .. 63]`
  idLen : Nat         -- R30
  link : Link         -- R31
  uart : Uart         -- R143
deriving DecidableEq, Repr

/-- Relay Coordination State `rc` (R46 to R49). -/
structure RelayState where
  workMask : BitVec 2     -- R46, bit i belongs to channel i
  owner : Option Chan     -- R47
  deadline : Option Nat   -- R48
  relay : Bool            -- R49
deriving DecidableEq, Repr

/-- The state of the block. `cfg` is the parameter of the step relation (R10, R53), carried here because a step takes a
state alone. `clock`, `inputs` and `events` are the model's own: the latest step's time (R7), the steps the environment
has supplied and the block has not taken (R6), and the events emitted so far (R8). -/
structure State where
  cfg : Cfg
  nActive : Nat           -- R20
  ch0 : Channel           -- R20
  ch1 : Channel           -- R20
  ds : Device             -- R35
  rc : RelayState         -- R46 to R49
  cfgDirty : Bool         -- R51
  tCfg : Nat              -- R51
  clock : Nat
  inputs : List Input
  events : List Event
deriving DecidableEq, Repr

/-! ### Reset (R54, R420) -/

/-- The bit-level receiver with an idle line, which is high (R143). The spec gives it no reset value: DESIGN CHOICE (log
entry 5). -/
def Uart.reset : Uart where
  sync1 := true
  sync2 := true
  phase := .idle
  count := 0
  shift := 0#8

/-- A channel record after RESET (R54). `buf` and `tSyn` are unspecified there and never read; the values here are named
by log entry 3. -/
def Channel.reset (addr : Byte) (identity : List Byte) (t0 : Nat) : Channel where
  addr := addr
  locked := false
  peer := 0x00#8
  hs := .idle
  dec := .awaitMarker
  esc := false
  buf := []
  n := 0
  tRx := t0
  tSyn := 0
  synValid := false
  tReply := t0
  tIdle := t0
  identity := Memory.writeBytes [] 0 identity
  idLen := identity.length
  link := .down
  uart := Uart.reset

/-- Every register after RESET at time origin `t0` under configuration `cfg` (R54, R420); no input pending, no event
emitted. `tCfg` is unspecified there while `cfgDirty` is 0; its value is named by log entry 3. -/
def State.resetWith (cfg : Cfg) (t0 : Nat) : State where
  cfg := cfg
  nActive := cfg.nActiveInit
  ch0 := Channel.reset cfg.addrInit0 cfg.identityInit0 t0
  ch1 := Channel.reset cfg.addrInit1 cfg.identityInit1 t0
  ds := cfg.dsInit
  rc := { workMask := 0#2, owner := none, deadline := none, relay := false }
  cfgDirty := false
  tCfg := 0
  clock := t0
  inputs := []
  events := []

/-- The machine right after reset, under the reference configuration at time origin 0 (R12, R54; log entry 1). -/
def State.reset : State := State.resetWith refCfg 0

end Sys2Proof.Machine
end

