-- ==== Sys2Proof/Machine/Ops.lean ====
section
/-! DEFINITION. The named operations over the registers: channel access, events, the one way to raise an error condition
(R384) and the resynchronisation that ends it (R206, R385), the buffers, replies (R156), the channel reset (R56), and
the effects the handlers share. Each is a function of the state; none can stop. -/

namespace Sys2Proof.Machine

/-- The answer of an instruction. -/
abbrev Res := Host.Outcome State Fault Refusal

/-- Go on from a next state; a stop stays a stop. -/
def andThen (r : Res) (f : State → Res) : Res :=
  match r with
  | .next s => f s
  | .fault e => .fault e
  | .refused e => .refused e

/-! ### Channels -/

/-- `ch[c]` (R20). -/
def State.ch (s : State) : Chan → Channel
  | .c0 => s.ch0
  | .c1 => s.ch1

/-- Write the whole record `ch[c]`. -/
def State.setCh (s : State) (c : Chan) (x : Channel) : State :=
  match c with
  | .c0 => { s with ch0 := x }
  | .c1 => { s with ch1 := x }

/-- Channel `c` is active (R20). -/
def State.active (s : State) (c : Chan) : Bool := decide (c.idx < s.nActive)

/-- Append an output event (R8, R14). -/
def emit (e : Event) (s : State) : State := { s with events := s.events ++ [e] }

/-! ### The accumulation buffer (R27, R70) -/

/-- `x[i]`: byte `i` of the channel's accumulation buffer (R14). -/
def bufByte (s : State) (c : Chan) (i : Nat) : Byte := Memory.read (s.ch c).buf i

/-- `x[0 .. n-1]`: the buffered bytes. -/
def bufBytes (s : State) (c : Chan) : List Byte := Memory.readBytes (s.ch c).buf 0 (s.ch c).n

/-- Store one byte at index `n` and count it (R200, R70). -/
def pushByte (c : Chan) (b : Byte) (s : State) : State :=
  s.setCh c { s.ch c with buf := Memory.write (s.ch c).buf (s.ch c).n b, n := (s.ch c).n + 1 }

/-! ### Error conditions (R380, R384) -/

/-- `resync(c)` (R206): the state every condition is left in, and the only "return" there is (R385). -/
def resync (c : Chan) (s : State) : State :=
  s.setCh c { s.ch c with dec := .awaitMarker, esc := false, n := 0 }

/-- Report a condition (R8); `flush_best_effort` reports without a resynchronisation (R203). -/
def report (c : Chan) (kind : ErrKind) (s : State) : State := emit (.report c kind) s

/-- `raise K(c)` (R384): the whole "trap entry" of the block. No register is saved, no mode changes. -/
def raise (c : Chan) (kind : ErrKind) (s : State) : State := resync c (report c kind s)

/-- `fresh_frame(c)` (R193). -/
def freshFrame (c : Chan) (s : State) : State :=
  s.setCh c { s.ch c with dec := .inFrame, n := 0, esc := false }

/-! ### Channel reset (R56) -/

/-- `channel_reset(c)` (R56). -/
def channelReset (c : Chan) (s : State) : State :=
  s.setCh c { s.ch c with hs := .idle, dec := .awaitMarker, esc := false, n := 0, link := .down, locked := false }

/-! ### Replies (R156, R241, R261) -/

/-- `reply(c, dst, fid, ctl, data)` at time `now` (R156). -/
def reply (c : Chan) (dst fid ctl : Byte) (data : List Byte) (now : Nat) (s : State) : State :=
  let s1 := emit (.tx c (encodeFrame (s.ch c).addr dst fid ctl data)) s
  s1.setCh c { s1.ch c with tReply := now }

/-- `ack(c, src, fid, ctl)` (R261). -/
def ack (h : Hdr) (s : State) : State := reply h.c h.src h.fid h.ctl [ackStatus] h.now s

/-! ### Registers the handlers write -/

/-- `ch[c].link <- v`. -/
def setLink (c : Chan) (v : Link) (s : State) : State := s.setCh c { s.ch c with link := v }

/-- `ch[c].hs <- v`. -/
def setHs (c : Chan) (v : HsState) (s : State) : State := s.setCh c { s.ch c with hs := v }

/-- `ch[c].dec <- v`. -/
def setDec (c : Chan) (v : DecState) (s : State) : State := s.setCh c { s.ch c with dec := v }

/-- `ch[c].esc <- v`. -/
def setEsc (c : Chan) (v : Bool) (s : State) : State := s.setCh c { s.ch c with esc := v }

/-- `ch[c].t_rx <- now` (R141, R372). -/
def touchRx (c : Chan) (now : Nat) (s : State) : State := s.setCh c { s.ch c with tRx := now }

/-- The identity of a channel, `identity[0 .. id_len - 1]` (R238). -/
def identityBytes (s : State) (c : Chan) : List Byte := Memory.readBytes (s.ch c).identity 0 (s.ch c).idLen

/-- The store and the save of an identity write (R281): the first 64 bytes, saved at once. -/
def storeIdentity (c : Chan) (data : List Byte) (s : State) : State :=
  let kept := data.take idMax
  emit (.persist (.saveIdentity c kept))
    (s.setCh c { s.ch c with identity := Memory.writeBytes (s.ch c).identity 0 kept, idLen := kept.length })

/-- `idle_touch(c, ctl, now)` (R236), for a frame that is for us under `FID_APP`. -/
def idleTouch (c : Chan) (ctl : Byte) (now : Nat) (s : State) : State :=
  if s.cfg.isIntakeActCode ctl then s.setCh c { s.ch c with tIdle := now } else s

/-- `mark_config_dirty(now)` (R262). -/
def markConfigDirty (now : Nat) (s : State) : State := { s with cfgDirty := true, tCfg := now }

/-- `MemWrite` (R14, R277): store a value in the field of a write entry, clamped. -/
def storeDevice (n : WName) (v : Nat) (s : State) : State :=
  { s with ds := storeField s.cfg.delayMaxS n v s.ds }

/-! ### Both channels -/

/-- Perform `f` for every active channel, in index order (R360). -/
def forActive (f : Chan → State → Res) (s : State) : Res :=
  andThen (if s.active .c0 then f .c0 s else .next s)
    (fun s1 => if s1.active .c1 then f .c1 s1 else .next s1)

end Sys2Proof.Machine
end

