-- ==== Sys2Proof/Machine/Frames.lean ====
section
/-! DEFINITION. The frame-level rows without a `CC_TABLE` entry (R232 to R238, R281, R283, R320). -/

namespace Sys2Proof.Machine

/-- The adoption half of `FRM.HS` (R233): an unlocked channel adopts a destination that is neither 0x00 nor 0xFF, locks
it and saves it at once. -/
def adoptAddress (c : Chan) (dst : Byte) (s : State) : State :=
  if (s.ch c).locked = false ∧ dst ≠ broadcastAddr ∧ dst ≠ reservedAddr then
    emit (.persist (.saveAddress c dst)) (s.setCh c { s.ch c with addr := dst, locked := true })
  else s

/-- The link and peer half of `FRM.HS` (R233): the source is remembered, `Down` becomes `Connecting`. -/
def noteHandshake (c : Chan) (src : Byte) (s : State) : State :=
  s.setCh c { s.ch c with
    peer := src
    link := if (s.ch c).link = .down then .connecting else (s.ch c).link }

/-- `FRM.HS` (R233): adoption precedes the reply, which comes from the new address and is always sent. -/
def execFrmHs (h : Hdr) (_data : List Byte) (s : State) : Res :=
  let s1 := noteHandshake h.c h.src (adoptAddress h.c h.dst s)
  .next (reply h.c h.src s.cfg.fidHs s.cfg.ccHandshake [ackStatus] h.now s1)

/-- `FRM.NOTFORUS` (R232): no change. -/
def execFrmNotForUs (_h : Hdr) (_data : List Byte) (s : State) : Res := .next s

/-- `FRM.FWID` (R237). -/
def execFrmFwId (h : Hdr) (_data : List Byte) (s : State) : Res :=
  .next (setLink h.c .up (reply h.c h.src s.cfg.fidApp s.cfg.ccFwId s.cfg.fwString h.now s))

/-- `FRM.IDREAD` (R238). -/
def execFrmIdRead (h : Hdr) (_data : List Byte) (s : State) : Res :=
  let d := if s.cfg.reportNoIdentity then [] else identityBytes s h.c
  .next (setLink h.c .up (reply h.c h.src s.cfg.fidApp s.cfg.ccRIdentity d h.now s))

/-- `FRM.IDWRITE` (R281): the `PERSIST` event precedes the acknowledge; the configuration is not marked dirty. -/
def execFrmIdWrite (h : Hdr) (data : List Byte) (s : State) : Res :=
  .next (ack h (storeIdentity h.c data s))

/-- `FRM.FWNOP` (R283): acknowledged, nothing stored. -/
def execFrmFwNop (h : Hdr) (_data : List Byte) (s : State) : Res := .next (ack h s)

/-- `FRM.UNKNOWN` (R320): no change. -/
def execFrmUnknown (_h : Hdr) (_data : List Byte) (s : State) : Res := .next s

end Sys2Proof.Machine
end

