-- ==== Sys2Proof/Machine/Reads.lean ====
section
/-! DEFINITION. The read entries of `CC_TABLE` (R300 to R318): one meaning per entry over one shared effect. -/

namespace Sys2Proof.Machine

/-- A recognised read (R300): the index bytes echoed, then the value in the entry's width. -/
def tableRead (n : RName) (h : Hdr) (idx : List Byte) (s : State) : State :=
  reply h.c h.src h.fid h.ctl (idx ++ valueBytes n.vw (valueOf n s.ds)) h.now s

/-- `R_SUCTIONLEVEL` (R301). -/
def execRSuctionLevel (h : Hdr) (idx : List Byte) (s : State) : Res := .next (tableRead .suctionLevel h idx s)

/-- `R_FLOW` (R302). -/
def execRFlow (h : Hdr) (idx : List Byte) (s : State) : Res := .next (tableRead .flow h idx s)

/-- `R_SPEED` (R303). -/
def execRSpeed (h : Hdr) (idx : List Byte) (s : State) : Res := .next (tableRead .speed h idx s)

/-- `R_SELECTFLOW` (R304). -/
def execRSelectFlow (h : Hdr) (idx : List Byte) (s : State) : Res := .next (tableRead .selectFlow h idx s)

/-- `R_WORK_ACT` (R305). -/
def execRWorkAct (h : Hdr) (idx : List Byte) (s : State) : Res := .next (tableRead .workAct h idx s)

/-- `R_STAND_ACT` (R306). -/
def execRStandAct (h : Hdr) (idx : List Byte) (s : State) : Res := .next (tableRead .standAct h idx s)

/-- `R_WORK_DELAY` (R307). -/
def execRWorkDelay (h : Hdr) (idx : List Byte) (s : State) : Res := .next (tableRead .workDelay h idx s)

/-- `R_STAND_DELAY` (R308). -/
def execRStandDelay (h : Hdr) (idx : List Byte) (s : State) : Res := .next (tableRead .standDelay h idx s)

/-- `R_WORK_AFTERRUN_MS` (R309). -/
def execRWorkAfterrunMs (h : Hdr) (idx : List Byte) (s : State) : Res := .next (tableRead .workAfterrunMs h idx s)

/-- `R_STAND_AFTERRUN_MS` (R310). -/
def execRStandAfterrunMs (h : Hdr) (idx : List Byte) (s : State) : Res := .next (tableRead .standAfterrunMs h idx s)

/-- `R_PEDAL_ACT` (R311). -/
def execRPedalAct (h : Hdr) (idx : List Byte) (s : State) : Res := .next (tableRead .pedalAct h idx s)

/-- `R_PEDAL_MODE` (R312). -/
def execRPedalMode (h : Hdr) (idx : List Byte) (s : State) : Res := .next (tableRead .pedalMode h idx s)

/-- `R_FILTER_STATUS` (R313). -/
def execRFilterStatus (h : Hdr) (idx : List Byte) (s : State) : Res := .next (tableRead .filterStatus h idx s)

/-- `R_FILTER_SAT` (R314). -/
def execRFilterSat (h : Hdr) (idx : List Byte) (s : State) : Res := .next (tableRead .filterSat h idx s)

/-- `R_CONNECTED_PEDAL` (R315). -/
def execRConnectedPedal (h : Hdr) (idx : List Byte) (s : State) : Res := .next (tableRead .connectedPedal h idx s)

/-- `R_CONT_SUCTION` (R316). -/
def execRContSuction (h : Hdr) (idx : List Byte) (s : State) : Res := .next (tableRead .contSuction h idx s)

/-- `R_USB_CONNECT` (R317). -/
def execRUsbConnect (h : Hdr) (idx : List Byte) (s : State) : Res := .next (tableRead .usbConnect h idx s)

/-- `R_STATION_ERROR` (R318). -/
def execRStationError (h : Hdr) (idx : List Byte) (s : State) : Res := .next (tableRead .stationError h idx s)

/-- The meaning of a read entry, by its name. -/
def runRead (n : RName) (h : Hdr) (idx : List Byte) (s : State) : Res :=
  match n with
  | .suctionLevel => execRSuctionLevel h idx s
  | .flow => execRFlow h idx s
  | .speed => execRSpeed h idx s
  | .selectFlow => execRSelectFlow h idx s
  | .workAct => execRWorkAct h idx s
  | .standAct => execRStandAct h idx s
  | .workDelay => execRWorkDelay h idx s
  | .standDelay => execRStandDelay h idx s
  | .workAfterrunMs => execRWorkAfterrunMs h idx s
  | .standAfterrunMs => execRStandAfterrunMs h idx s
  | .pedalAct => execRPedalAct h idx s
  | .pedalMode => execRPedalMode h idx s
  | .filterStatus => execRFilterStatus h idx s
  | .filterSat => execRFilterSat h idx s
  | .connectedPedal => execRConnectedPedal h idx s
  | .contSuction => execRContSuction h idx s
  | .usbConnect => execRUsbConnect h idx s
  | .stationError => execRStationError h idx s

end Sys2Proof.Machine
end

