-- ==== Sys2Proof/Machine/Relay.lean ====
section
/-! DEFINITION. The cross-channel relay coordinator (R340 to R350). -/

namespace Sys2Proof.Machine

/-- The bit of a channel in `rc.work_mask` (R46). -/
def maskBit : Chan → BitVec 2
  | .c0 => 1#2
  | .c1 => 2#2

/-- `set_relay(v)` (R344): the one way `rc.relay` is written. -/
def setRelay (v : Bool) (s : State) : State :=
  if s.rc.relay = v then s else emit (.relay v) { s with rc := { s.rc with relay := v } }

/-- Clear owner and deadline. -/
def clearAfterRun (s : State) : State := { s with rc := { s.rc with owner := none, deadline := none } }

/-- `work_on(i)` (R341). -/
def workOn (i : Chan) (s : State) : State :=
  setRelay true (clearAfterRun { s with rc := { s.rc with workMask := s.rc.workMask ||| maskBit i } })

/-- `work_off(i, now)` (R343). -/
def workOff (i : Chan) (now : Nat) (s : State) : State :=
  let before := s.rc.workMask
  let after := before &&& ~~~ maskBit i
  if before ≠ 0#2 ∧ after = 0#2 ∧ s.rc.deadline = none then
    { s with rc := { s.rc with workMask := after, owner := some i, deadline := some (now + 1000 * s.ds.workDelayS.toNat) } }
  else { s with rc := { s.rc with workMask := after } }

/-- `relay_drive(c, now)` (R265). -/
def relayDrive (c : Chan) (now : Nat) (s : State) : State :=
  if s.ds.workAct then workOn c s else workOff c now s

/-- `relay_eval(now)` (R342, R345 to R347): four exclusive arms. -/
def relayEval (now : Nat) (s : State) : State :=
  if s.ds.contSuction then setRelay true (clearAfterRun s)
  else if s.rc.workMask ≠ 0#2 then setRelay true (clearAfterRun s)
  else
    match s.rc.deadline with
    | some d => if d ≤ now then clearAfterRun (setRelay false s) else s
    | none => setRelay false s

/-- `retract(c)` (R348). -/
def retract (c : Chan) (s : State) : State :=
  let s1 := { s with rc := { s.rc with workMask := s.rc.workMask &&& ~~~ maskBit c } }
  if s.rc.owner = some c then clearAfterRun s1 else s1

/-- The effect of a recognised write before its acknowledge (R260): the store and, for the work intake, the relay
drive (R265). -/
def writeField (n : WName) (v : Nat) (c : Chan) (now : Nat) (s : State) : State :=
  if n = .workAct then relayDrive c now (storeDevice n v s) else storeDevice n v s

end Sys2Proof.Machine
end

