-- ==== Sys2Proof/Machine/Writes.lean ====
section
/-! DEFINITION. The write entries of `CC_TABLE` (R260 to R278): one meaning per entry over one shared effect. -/

namespace Sys2Proof.Machine

/-- A recognised `CC_TABLE` write (R260): store and relay drive, acknowledge (R261), mark the configuration dirty
(R262), in this order. -/
def tableWrite (n : WName) (h : Hdr) (v : Nat) (s : State) : State :=
  markConfigDirty h.now (ack h (writeField n v h.c h.now s))

/-- `W_SUCTIONLEVEL` (R263): `clamp(v, 0, 3)`. -/
def execWSuctionLevel (h : Hdr) (v : Byte) (s : State) : Res := .next (tableWrite .suctionLevel h v.toNat s)

/-- `W_SELECTFLOW` (R264): `clamp(v, 0, 1000)`. -/
def execWSelectFlow (h : Hdr) (v : Word16) (s : State) : Res := .next (tableWrite .selectFlow h v.toNat s)

/-- `W_WORK_ACT` (R265): flag; drives the relay coordinator before the acknowledge. -/
def execWWorkAct (h : Hdr) (v : Byte) (s : State) : Res := .next (tableWrite .workAct h v.toNat s)

/-- `W_STAND_ACT` (R266): flag; drives nothing. -/
def execWStandAct (h : Hdr) (v : Byte) (s : State) : Res := .next (tableWrite .standAct h v.toNat s)

/-- `W_WORK_DELAY` (R267): `clamp(v, 0, DELAY_MAX_S)`; a pending deadline is not moved. -/
def execWWorkDelay (h : Hdr) (v : Word16) (s : State) : Res := .next (tableWrite .workDelay h v.toNat s)

/-- `W_STAND_DELAY` (R268): `clamp(v, 0, DELAY_MAX_S)`. -/
def execWStandDelay (h : Hdr) (v : Word16) (s : State) : Res := .next (tableWrite .standDelay h v.toNat s)

/-- `W_PEDAL_ACT` (R269): flag. -/
def execWPedalAct (h : Hdr) (v : Byte) (s : State) : Res := .next (tableWrite .pedalAct h v.toNat s)

/-- `W_PEDAL_MODE` (R270): plain. -/
def execWPedalMode (h : Hdr) (v : Byte) (s : State) : Res := .next (tableWrite .pedalMode h v.toNat s)

/-- `W_FILTER_STATUS` (R271): `clamp(v, 0, 1000)` into `filter_life` (C4). -/
def execWFilterStatus (h : Hdr) (v : Word16) (s : State) : Res := .next (tableWrite .filterStatus h v.toNat s)

/-- `W_FILTER_SAT` (R272): `clamp(v, 0, 1000)`. -/
def execWFilterSat (h : Hdr) (v : Word16) (s : State) : Res := .next (tableWrite .filterSat h v.toNat s)

/-- `W_CONNECTED_PEDAL` (R273): flag. -/
def execWConnectedPedal (h : Hdr) (v : Byte) (s : State) : Res := .next (tableWrite .connectedPedal h v.toNat s)

/-- `W_CONT_SUCTION` (R274): flag; the relay follows at the next evaluation (C6). -/
def execWContSuction (h : Hdr) (v : Byte) (s : State) : Res := .next (tableWrite .contSuction h v.toNat s)

/-- `W_USB_CONNECT` (R275): flag. -/
def execWUsbConnect (h : Hdr) (v : Byte) (s : State) : Res := .next (tableWrite .usbConnect h v.toNat s)

/-- `W_STATION_ERROR` (R276): plain. -/
def execWStationError (h : Hdr) (v : Word16) (s : State) : Res := .next (tableWrite .stationError h v.toNat s)

/-- The meaning of a write entry, by its name. -/
def runWrite (n : WName) (h : Hdr) (v : Nat) (s : State) : Res :=
  match n with
  | .suctionLevel => execWSuctionLevel h (BitVec.ofNat 8 v) s
  | .selectFlow => execWSelectFlow h (BitVec.ofNat 16 v) s
  | .workAct => execWWorkAct h (BitVec.ofNat 8 v) s
  | .standAct => execWStandAct h (BitVec.ofNat 8 v) s
  | .workDelay => execWWorkDelay h (BitVec.ofNat 16 v) s
  | .standDelay => execWStandDelay h (BitVec.ofNat 16 v) s
  | .pedalAct => execWPedalAct h (BitVec.ofNat 8 v) s
  | .pedalMode => execWPedalMode h (BitVec.ofNat 8 v) s
  | .filterStatus => execWFilterStatus h (BitVec.ofNat 16 v) s
  | .filterSat => execWFilterSat h (BitVec.ofNat 16 v) s
  | .connectedPedal => execWConnectedPedal h (BitVec.ofNat 8 v) s
  | .contSuction => execWContSuction h (BitVec.ofNat 8 v) s
  | .usbConnect => execWUsbConnect h (BitVec.ofNat 8 v) s
  | .stationError => execWStationError h (BitVec.ofNat 16 v) s

end Sys2Proof.Machine
end

