-- ==== Sys2Proof/Machine/Dispatcher.lean ====
section
/-! DEFINITION. The command dispatcher (R230): classify a verified frame, touch the idle timestamp, run the row. -/

namespace Sys2Proof.Machine

/-- The context a byte or a frame on channel `c` is read in. -/
def State.ctx (s : State) (c : Chan) : Ctx :=
  { cfg := s.cfg
    nActive := s.nActive
    addr := (s.ch c).addr
    hs := (s.ch c).hs
    dec := (s.ch c).dec
    esc := (s.ch c).esc }

/-- Run the row a frame selects (R114); the same meanings the opcode dispatch calls. -/
def runFrame (sel : FrameSel) (h : Hdr) (data : List Byte) (s : State) : Res :=
  match sel with
  | .hs => execFrmHs h data s
  | .notForUs => execFrmNotForUs h data s
  | .fwId => execFrmFwId h data s
  | .idRead => execFrmIdRead h data s
  | .write .identity => execFrmIdWrite h data s
  | .write .fwNop => execFrmFwNop h data s
  | .write (.entry n k) => runWrite n h (valueAt n.vw k data) s
  | .read n k => runRead n h (data.take k) s
  | .unknown => execFrmUnknown h data s

/-- The idle touch of the dispatcher (R230, R236): an application frame that is for us and no handshake frame. -/
def touchFor (c : Chan) (f : Frame) (now : Nat) (s : State) : State :=
  if f.fid ≠ s.cfg.fidHs ∧ forUs (s.ch c).addr f.dst = true ∧ f.fid = s.cfg.fidApp then idleTouch c f.ctl now s else s

/-- `dispatch(c, src, dst, fid, ctl, data, now)` (R230). -/
def dispatch (c : Chan) (f : Frame) (now : Nat) (s : State) : Res :=
  runFrame (selectFrame s.cfg (s.ch c).addr f) (f.hdr c now) f.data (touchFor c f now s)

end Sys2Proof.Machine
end

