-- ==== Sys2Proof/Machine/Flags.lean ====
section
/-! DEFINITION. The derived flags and conditions (R28, R34, R172, R365, R366): structural completeness, the SYN rate
limit, the debounce and the inactivity tests. There are no arithmetic flags (R34). -/

namespace Sys2Proof.Machine

/-- `need(c)` (R28): the size the length field declares; defined when `n >= 5`. -/
def need (s : State) (c : Chan) : Nat := hdrLen + (bufByte s c 4).toNat + 1

/-- The completion condition (R202): the buffer holds exactly the declared frame. -/
def atNeed (s : State) (c : Chan) : Bool :=
  decide (hdrLen ≤ (s.ch c).n) && decide ((s.ch c).n = need s c)

/-- `complete(c)` (R28): the frame was already structurally complete. -/
def complete (s : State) (c : Chan) : Bool :=
  (s.ch c).dec == .inFrame && decide (hdrLen ≤ (s.ch c).n) && decide (need s c ≤ (s.ch c).n)

/-- `syn_allowed(c, now)` (R172): no SYN since RESET, or 1500 ms since the last. -/
def synAllowed (s : State) (c : Chan) (now : Nat) : Bool :=
  !(s.ch c).synValid || decide (tSynMin ≤ now - (s.ch c).tSyn)

/-- The debounce interval has elapsed since the latest configuration-affecting write (R365). -/
def saveDue (s : State) (now : Nat) : Bool := s.cfgDirty && decide (s.cfg.tDebounce ≤ now - s.tCfg)

/-- No byte within the inactivity window (R366). -/
def linkSilent (s : State) (c : Chan) (now : Nat) : Bool := decide (s.cfg.tInact ≤ now - (s.ch c).tRx)

end Sys2Proof.Machine
end

