-- ==== Sys2Proof/Machine/Decoder.lean ====
section
/-! DEFINITION. The frame decoder (R190 to R208): the two completion paths and one meaning per row. -/

namespace Sys2Proof.Machine

/-- `check_complete(c, now)` (R202): after a good frame the decoder stays in `InFrame`. -/
def checkComplete (c : Chan) (now : Nat) (s : State) : Res :=
  if atNeed s c = true then
    if verify (bufBytes s c) = true then dispatch c (frameOf (bufBytes s c)) now s
    else .next (raise c .checksumMismatch s)
  else .next s

/-- `append(c, v, now)` (R200). The overflow test is `BUF_CAP <= n`, which is `n = BUF_CAP` in every state with
`n <= BUF_CAP` (R32 iv; log entry 6). -/
def appendByte (c : Chan) (v : Byte) (now : Nat) (s : State) : Res :=
  if s.cfg.bufCap ≤ (s.ch c).n then .next (raise c .overflow s)
  else checkComplete c now (pushByte c v s)

/-- `flush_best_effort(c, now)` (R203): a mismatch is reported, the caller decides the next state. -/
def flushBestEffort (c : Chan) (now : Nat) (s : State) : Res :=
  if complete s c = true then .next s
  else if minFlush ≤ (s.ch c).n then
    if verify (bufBytes s c) = true then dispatch c (frameOf (bufBytes s c)) now s
    else .next (report c .checksumMismatch s)
  else .next s

/-- `DEC.AM.MARKER` (R191). -/
def execDecAmMarker (c : Chan) (s : State) : Res := .next (setDec c .awaitStart s)

/-- `DEC.AM.OTHER` (R192): no change, no report. -/
def execDecAmOther (_c : Chan) (_b : Byte) (s : State) : Res := .next s

/-- `DEC.AS.START` (R193). -/
def execDecAsStart (c : Chan) (s : State) : Res := .next (freshFrame c s)

/-- `DEC.AS.MARKER` (R194): no change, the decoder is re-armed. -/
def execDecAsMarker (_c : Chan) (s : State) : Res := .next s

/-- `DEC.AS.OTHER` (R195). -/
def execDecAsOther (c : Chan) (_b : Byte) (s : State) : Res := .next (setDec c .awaitMarker s)

/-- `DEC.IF.MARKER` (R196): the byte is not appended. -/
def execDecIfMarker (c : Chan) (s : State) : Res := .next (setEsc c true s)

/-- `DEC.IF.DATA` (R204). -/
def execDecIfData (c : Chan) (b : Byte) (now : Nat) (s : State) : Res := appendByte c b now s

/-- `DEC.ESC.MARKER` (R197): one literal 0x10. -/
def execDecEscMarker (c : Chan) (now : Nat) (s : State) : Res := appendByte c markerByte now (setEsc c false s)

/-- `DEC.ESC.END` (R198). -/
def execDecEscEnd (c : Chan) (now : Nat) (s : State) : Res :=
  andThen (flushBestEffort c now s) (fun s1 => .next (resync c s1))

/-- `DEC.ESC.START` (R199): the flush, then a fresh frame whatever it reported. -/
def execDecEscStart (c : Chan) (now : Nat) (s : State) : Res :=
  andThen (flushBestEffort c now s) (fun s1 => .next (freshFrame c s1))

/-- `DEC.ESC.OTHER` (R201). -/
def execDecEscOther (c : Chan) (_b : Byte) (s : State) : Res := .next (raise c .invalidEscape s)

end Sys2Proof.Machine
end

