-- ==== Sys2Proof/Machine/Handshake.lean ====
section
/-! DEFINITION. The link handshake sequencer (R165 to R181): one meaning per row. -/

namespace Sys2Proof.Machine

/-- `HS.MARKER` (R170): the fast path into frame mode; `link` is not changed. -/
def execHsMarker (c : Chan) (s : State) : Res :=
  .next (setDec c .awaitStart (setHs c .frameModeActive s))

/-- `HS.NAK` (R171). -/
def execHsNak (c : Chan) (s : State) : Res := .next (setHs c .seenNak s)

/-- `HS.ACK` (R173). -/
def execHsAck (c : Chan) (s : State) : Res := .next (setHs c .gotAck1 s)

/-- `HS.SOH` (R174). -/
def execHsSoh (c : Chan) (s : State) : Res := .next (setHs c .gotSoh s)

/-- `HS.NAK_RESTART` (R181): selected only under `HS_NAK_RESTART`. -/
def execHsNakRestart (c : Chan) (s : State) : Res := .next (setHs c .seenNak s)

/-- `HS.OTHER` (R177): no change. -/
def execHsOther (_c : Chan) (_b : Byte) (s : State) : Res := .next s

/-- `HS.SYN` (R172): sends the SYN when the rate limit allows it; otherwise the channel waits in `SeenNak`. -/
def execHsSyn (c : Chan) (now : Nat) (s : State) : Res :=
  if (s.ch c).hs = .seenNak ∧ synAllowed s c now = true then
    let s1 := emit (.tx c [s.cfg.bSyn]) s
    .next (s1.setCh c { s1.ch c with tSyn := now, synValid := true, hs := .sentSyn })
  else .next s

/-- `HS.ACK2` (R178). -/
def execHsAck2 (c : Chan) (s : State) : Res :=
  if (s.ch c).hs = .gotAck1 then .next (setHs c .sentAck2 (emit (.tx c [s.cfg.bAck]) s)) else .next s

/-- `HS.ACK3` (R175): the handshake is done, the link is connecting. -/
def execHsAck3 (c : Chan) (s : State) : Res :=
  if (s.ch c).hs = .gotSoh then
    .next (setLink c .connecting (setHs c .frameModeActive (emit (.tx c [s.cfg.bAck]) s)))
  else .next s

/-- `handshake_settle(c, now)` (R179): the transition without input, if the state has one. -/
def settle (c : Chan) (now : Nat) (s : State) : Res :=
  match (s.ch c).hs with
  | .seenNak => execHsSyn c now s
  | .gotAck1 => execHsAck2 c s
  | .gotSoh => execHsAck3 c s
  | .idle => .next s
  | .sentSyn => .next s
  | .sentAck2 => .next s
  | .frameModeActive => .next s

end Sys2Proof.Machine
end

