-- ==== Sys2Proof/Machine/Steps.lean ====
section
/-! DEFINITION. The steps (R6): RX (R141), POLL (R360), the operator operations (R370 to R375) and RESET (R420). -/

namespace Sys2Proof.Machine

/-- Run the row a byte selects (R110, R111); the same meanings the opcode dispatch calls. -/
def runByte (sel : ByteSel) (c : Chan) (b : Byte) (now : Nat) (s : State) : Res :=
  match sel with
  | .hsMarker => execHsMarker c s
  | .hsNak => execHsNak c s
  | .hsAck => execHsAck c s
  | .hsSoh => execHsSoh c s
  | .hsNakRestart => execHsNakRestart c s
  | .hsOther => execHsOther c b s
  | .decAmMarker => execDecAmMarker c s
  | .decAmOther => execDecAmOther c b s
  | .decAsStart => execDecAsStart c s
  | .decAsMarker => execDecAsMarker c s
  | .decAsOther => execDecAsOther c b s
  | .decIfMarker => execDecIfMarker c s
  | .decIfData => execDecIfData c b now s
  | .decEscMarker => execDecEscMarker c now s
  | .decEscEnd => execDecEscEnd c now s
  | .decEscStart => execDecEscStart c now s
  | .decEscOther => execDecEscOther c b s

/-- `handshake_byte(c, b, now)` (R167). -/
def handshakeByte (c : Chan) (b : Byte) (now : Nat) (s : State) : Res :=
  runByte (selectPreFrame s.cfg (s.ch c).hs b) c b now s

/-- `decoder_byte(c, b, now)` (R190). -/
def decoderByte (c : Chan) (b : Byte) (now : Nat) (s : State) : Res :=
  runByte (selectDecoder (s.ch c).dec (s.ch c).esc b) c b now s

/-- `RX(c, b, now)` (R141); a byte on an inactive channel is discarded (R142). -/
def execRx (c : Chan) (b : Byte) (now : Nat) (s : State) : Res :=
  if s.active c = false then .next s
  else if (s.ch c).hs = .frameModeActive then decoderByte c b now (touchRx c now s)
  else andThen (handshakeByte c b now (touchRx c now s)) (settle c now)

/-- `debounce_flush(now)` (R365). -/
def debounceFlush (now : Nat) (s : State) : State :=
  if saveDue s now then { emit (.persist .saveConfig) s with cfgDirty := false } else s

/-- `inactivity_check(c, now)` (R366). -/
def inactivityCheck (c : Chan) (now : Nat) (s : State) : State :=
  if linkSilent s c now then retract c (channelReset c s) else s

/-- `POLL(now)` (R360): settle, evaluate the relay, flush the save, check the links, in this order. -/
def execPoll (now : Nat) (s : State) : Res :=
  andThen (forActive (fun c s1 => settle c now s1) s)
    (fun s2 => forActive (fun c s3 => .next (inactivityCheck c now s3)) (debounceFlush now (relayEval now s2)))

/-- `ADMIN.Write(c, ctl, data)` (R373): the selected write rule without reply or channel timestamps. The rule's operand
is an active channel; on an inactive one the step changes nothing (log entry 7). -/
def execAdminWrite (c : Chan) (ctl : Byte) (data : List Byte) (now : Nat) (s : State) : Res :=
  if s.active c = false then .next s
  else
    match selectWrite s.cfg ctl data.length with
    | some .identity => .next (storeIdentity c data s)
    | some .fwNop => .next s
    | some (.entry n k) => .next (markConfigDirty now (writeField n (valueAt n.vw k data) c now s))
    | none => .next s

/-- `ADMIN.ForceErrorMask(v)` (R371). -/
def execAdminForceErrorMask (v : Word16) (now : Nat) (s : State) : Res :=
  .next (markConfigDirty now { s with ds := { s.ds with stationError := v } })

/-- One channel of `SetActiveCount` (R372): reset and retract it when it is disabled, restart its inactivity window when
it is enabled. -/
def recount (old k : Nat) (c : Chan) (now : Nat) (s : State) : State :=
  if k ≤ c.idx ∧ c.idx < old then retract c (channelReset c s)
  else if old ≤ c.idx ∧ c.idx < k then touchRx c now s
  else s

/-- `ADMIN.SetActiveCount(k)` (R372); any other count is refused: the step changes nothing. -/
def execAdminSetActiveCount (k : Nat) (now : Nat) (s : State) : Res :=
  if k = 1 ∨ k = 2 then
    .next (recount s.nActive k .c1 now (recount s.nActive k .c0 now { s with nActive := k }))
  else .next s

/-- `ADMIN.SetTelemetry(field, v)` (R374): not configuration-affecting. -/
def execAdminSetTelemetry (field : Telemetry) (v : Word16) (s : State) : Res :=
  match field with
  | .flow => .next { s with ds := { s.ds with flow := v } }
  | .speed => .next { s with ds := { s.ds with speed := v } }

/-- `ADMIN.WipePersistence` (R375): it concerns the collaborator's store; no register of the block changes. -/
def execAdminWipePersistence (s : State) : Res := .next s

/-- `RESET` at time origin `t0` (R54, R420): every register; the pending inputs and the emitted events are the
environment's and stay. -/
def execReset (t0 : Nat) (s : State) : Res :=
  .next { State.resetWith s.cfg t0 with inputs := s.inputs, events := s.events }

end Sys2Proof.Machine
end

