-- ==== Sys2Proof/Machine/Dispatch.lean ====
section
/-! DEFINITION. `exec`: one arm per constructor of `Instr`, each one direct call of its meaning. -/

namespace Sys2Proof.Machine

def exec (i : Instr) (s : State) : Host.Outcome State Fault Refusal :=
  match i with
  | .hsMarker c => Sys2Proof.Machine.execHsMarker c s
  | .hsNak c => Sys2Proof.Machine.execHsNak c s
  | .hsAck c => Sys2Proof.Machine.execHsAck c s
  | .hsSoh c => Sys2Proof.Machine.execHsSoh c s
  | .hsNakRestart c => Sys2Proof.Machine.execHsNakRestart c s
  | .hsOther c b => Sys2Proof.Machine.execHsOther c b s
  | .hsSyn c now => Sys2Proof.Machine.execHsSyn c now s
  | .hsAck2 c => Sys2Proof.Machine.execHsAck2 c s
  | .hsAck3 c => Sys2Proof.Machine.execHsAck3 c s
  | .decAmMarker c => Sys2Proof.Machine.execDecAmMarker c s
  | .decAmOther c b => Sys2Proof.Machine.execDecAmOther c b s
  | .decAsStart c => Sys2Proof.Machine.execDecAsStart c s
  | .decAsMarker c => Sys2Proof.Machine.execDecAsMarker c s
  | .decAsOther c b => Sys2Proof.Machine.execDecAsOther c b s
  | .decIfMarker c => Sys2Proof.Machine.execDecIfMarker c s
  | .decIfData c b now => Sys2Proof.Machine.execDecIfData c b now s
  | .decEscMarker c now => Sys2Proof.Machine.execDecEscMarker c now s
  | .decEscEnd c now => Sys2Proof.Machine.execDecEscEnd c now s
  | .decEscStart c now => Sys2Proof.Machine.execDecEscStart c now s
  | .decEscOther c b => Sys2Proof.Machine.execDecEscOther c b s
  | .frmHs h data => Sys2Proof.Machine.execFrmHs h data s
  | .frmNotForUs h data => Sys2Proof.Machine.execFrmNotForUs h data s
  | .frmFwId h data => Sys2Proof.Machine.execFrmFwId h data s
  | .frmIdRead h data => Sys2Proof.Machine.execFrmIdRead h data s
  | .frmIdWrite h data => Sys2Proof.Machine.execFrmIdWrite h data s
  | .frmFwNop h data => Sys2Proof.Machine.execFrmFwNop h data s
  | .wSuctionLevel h _ v _ => Sys2Proof.Machine.execWSuctionLevel h v s
  | .wSelectFlow h _ v _ => Sys2Proof.Machine.execWSelectFlow h v s
  | .wWorkAct h _ v _ => Sys2Proof.Machine.execWWorkAct h v s
  | .wStandAct h _ v _ => Sys2Proof.Machine.execWStandAct h v s
  | .wWorkDelay h _ v _ => Sys2Proof.Machine.execWWorkDelay h v s
  | .wStandDelay h _ v _ => Sys2Proof.Machine.execWStandDelay h v s
  | .wPedalAct h _ v _ => Sys2Proof.Machine.execWPedalAct h v s
  | .wPedalMode h _ v _ => Sys2Proof.Machine.execWPedalMode h v s
  | .wFilterStatus h _ v _ => Sys2Proof.Machine.execWFilterStatus h v s
  | .wFilterSat h _ v _ => Sys2Proof.Machine.execWFilterSat h v s
  | .wConnectedPedal h _ v _ => Sys2Proof.Machine.execWConnectedPedal h v s
  | .wContSuction h _ v _ => Sys2Proof.Machine.execWContSuction h v s
  | .wUsbConnect h _ v _ => Sys2Proof.Machine.execWUsbConnect h v s
  | .wStationError h _ v _ => Sys2Proof.Machine.execWStationError h v s
  | .rSuctionLevel h idx _ => Sys2Proof.Machine.execRSuctionLevel h idx s
  | .rFlow h idx _ => Sys2Proof.Machine.execRFlow h idx s
  | .rSpeed h idx _ => Sys2Proof.Machine.execRSpeed h idx s
  | .rSelectFlow h idx _ => Sys2Proof.Machine.execRSelectFlow h idx s
  | .rWorkAct h idx _ => Sys2Proof.Machine.execRWorkAct h idx s
  | .rStandAct h idx _ => Sys2Proof.Machine.execRStandAct h idx s
  | .rWorkDelay h idx _ => Sys2Proof.Machine.execRWorkDelay h idx s
  | .rStandDelay h idx _ => Sys2Proof.Machine.execRStandDelay h idx s
  | .rWorkAfterrunMs h idx _ => Sys2Proof.Machine.execRWorkAfterrunMs h idx s
  | .rStandAfterrunMs h idx _ => Sys2Proof.Machine.execRStandAfterrunMs h idx s
  | .rPedalAct h idx _ => Sys2Proof.Machine.execRPedalAct h idx s
  | .rPedalMode h idx _ => Sys2Proof.Machine.execRPedalMode h idx s
  | .rFilterStatus h idx _ => Sys2Proof.Machine.execRFilterStatus h idx s
  | .rFilterSat h idx _ => Sys2Proof.Machine.execRFilterSat h idx s
  | .rConnectedPedal h idx _ => Sys2Proof.Machine.execRConnectedPedal h idx s
  | .rContSuction h idx _ => Sys2Proof.Machine.execRContSuction h idx s
  | .rUsbConnect h idx _ => Sys2Proof.Machine.execRUsbConnect h idx s
  | .rStationError h idx _ => Sys2Proof.Machine.execRStationError h idx s
  | .frmUnknown h data => Sys2Proof.Machine.execFrmUnknown h data s
  | .reset t0 => Sys2Proof.Machine.execReset t0 s
  | .rx c b now => Sys2Proof.Machine.execRx c b now s
  | .poll now => Sys2Proof.Machine.execPoll now s
  | .adminWrite c ctl data now => Sys2Proof.Machine.execAdminWrite c ctl data now s
  | .adminForceErrorMask v now => Sys2Proof.Machine.execAdminForceErrorMask v now s
  | .adminSetActiveCount k now => Sys2Proof.Machine.execAdminSetActiveCount k now s
  | .adminSetTelemetry field v _ => Sys2Proof.Machine.execAdminSetTelemetry field v s
  | .adminWipePersistence _ => Sys2Proof.Machine.execAdminWipePersistence s

end Sys2Proof.Machine
end

