-- ==== Sys2Proof/Machine/Uart.lean ====
section
/-! DEFINITION. The reference bit-level receiver (R143, R144): 8 data bits, least significant first, no parity, one stop
bit, `OSR` line samples in a bit period. One sample is one `line` input. -/

namespace Sys2Proof.Machine

/-- Set bit `k` of a byte to the sampled level. -/
def setBit (b : Byte) (k : Nat) (level : Bool) : Byte :=
  if level then b ||| (1#8 <<< k) else b &&& ~~~ (1#8 <<< k)

/-- One sample after the synchroniser: `prev` and `line` are the synchronised line one sample ago and now. The answer is
the receiver and the byte delivered, if any. R143 leaves `OSR` open without a lower bound: that a wait is never less than
one sample is DESIGN CHOICE (log entry 5). The check in the start bit comes `max 1 (OSR / 2)` samples after the falling
edge, one sample for `OSR` 0 and 1, and a bit lasts `max 1 OSR` samples, one for `OSR` 0. -/
def uartSample (osr : Nat) (prev line : Bool) (u : Uart) : Uart × Option Byte :=
  match u.phase with
  | .idle => if prev && !line then ({ u with phase := .start, count := osr / 2 }, none) else (u, none)
  | .start =>
    if 1 < u.count then ({ u with count := u.count - 1 }, none)
    else if line then ({ u with phase := .idle, count := 0 }, none)       -- false start
    else ({ u with phase := .data 0, count := osr, shift := 0#8 }, none)
  | .data k =>
    if 1 < u.count then ({ u with count := u.count - 1 }, none)
    else
      ({ u with phase := if k < 7 then .data (k + 1) else .stop, count := osr, shift := setBit u.shift k line }, none)
  | .stop =>
    if 1 < u.count then ({ u with count := u.count - 1 }, none)
    else ({ u with phase := .idle, count := 0 }, if line then some u.shift else none)   -- a low stop bit: R144

/-- One line sample: the two flip-flops move on, then the receiver looks at the synchronised line. -/
def uartTick (osr : Nat) (level : Bool) (u : Uart) : Uart × Option Byte :=
  uartSample osr u.sync2 u.sync1 { u with sync1 := level, sync2 := u.sync1 }

/-- A line sample on channel `c`: the channel's receiver, and the byte it delivers. -/
def lineSample (c : Chan) (level : Bool) (s : State) : State × Option Byte :=
  (s.setCh c { s.ch c with uart := (uartTick s.cfg.osr level (s.ch c).uart).1 },
   (uartTick s.cfg.osr level (s.ch c).uart).2)

end Sys2Proof.Machine
end

