-- ==== Sys2Proof/Machine/Fetch.lean ====
section
/-! DEFINITION. What a step does before it runs an instruction: take the oldest step input (R6), check its time (R7) and
decode it; and where a word of the opcode table is placed so that the next step runs it. -/

namespace Sys2Proof.Machine

/-- The answer of `fetch`. -/
inductive Fetched
  /-- No input is pending: the block waits. -/
  | idle
  /-- The input is refused. -/
  | refuse (r : Refusal)
  /-- A line sample that completes no character. -/
  | quiet (s : State)
  /-- Run an instruction. -/
  | run (i : Instr) (s : State)
deriving DecidableEq, Repr

/-- The time a step input carries; `RESET` has none but its own origin (R54). -/
def inputTime : Input → Option Nat
  | .reset _ => none
  | .rx _ _ now => some now
  | .poll now => some now
  | .admin _ now => some now
  | .line _ _ now => some now

/-- The input's time is not earlier than the latest step's (R7); a `RESET` starts a new time origin (R54). -/
def timeOk (clock : Nat) (x : Input) : Bool :=
  match inputTime x with
  | some now => decide (clock ≤ now)
  | none => true

/-- The oldest input is taken and its time is the latest time. -/
def popInput (x : Input) (rest : List Input) (s : State) : State :=
  { s with inputs := rest, clock := (inputTime x).getD s.clock }

/-- Take the oldest input (R6, R7). A line sample that completes a character is an `RX` step (R143). -/
def fetch (s : State) : Fetched :=
  match s.inputs with
  | [] => .idle
  | x :: rest =>
    if timeOk s.clock x = false then .refuse .timeBackwards
    else
      match x with
      | .line c level now =>
        match lineSample c level (popInput x rest s) with
        | (s1, some b) => .run (.rx c b now) s1
        | (s1, none) => .quiet s1
      | .reset t0 => .run (.reset t0) (popInput x rest s)
      | .rx c b now => .run (.rx c b now) (popInput x rest s)
      | .poll now => .run (.poll now) (popInput x rest s)
      | .admin op now => .run (op.instr now) (popInput x rest s)

/-- Channel 0 in the sequencer and decoder state of the table row of a lone byte (log entry 4). -/
def placeState (b : Byte) (s : State) : State :=
  s.setCh .c0 { s.ch .c0 with
    hs := (tableState s.cfg b).1, dec := (tableState s.cfg b).2.1, esc := (tableState s.cfg b).2.2 }

/-- Channel 0 inside a frame with all of its bytes but the last buffered; a last byte 0x10 has its escape byte behind it. -/
def placeFrame (x : List Byte) (s : State) : State :=
  s.setCh .c0 { s.ch .c0 with
    hs := .frameModeActive
    dec := .inFrame
    esc := x.getLastD 0 == markerByte
    buf := Memory.writeBytes [] 0 x.dropLast
    n := x.dropLast.length }

/-- The word of a table row placed so that the next step receives its last byte. -/
def placeWord (nbits w : Nat) (s : State) : State :=
  let x := tableBytes nbits w
  let s1 := if nbits ≤ 8 then placeState (x.getLastD 0) s else placeFrame x s
  { s1 with inputs := .rx .c0 (x.getLastD 0) s.clock :: s.inputs }

end Sys2Proof.Machine
end

