-- ==== Sys2Proof/Machine/Step.lean ====
section
/-! DEFINITION. One step of the machine: fetch the next step input and run it. -/

namespace Sys2Proof.Machine

/-- One step. With no input pending the block waits: nothing changes. -/
def step (s : State) : Host.Outcome State Fault Refusal :=
  match fetch s with
  | .idle => .next s
  | .refuse r => .refused r
  | .quiet s1 => .next s1
  | .run i s1 => exec i s1

/-- `s` with the instruction of a table word placed where the next step fetches it (log entry 4). -/
def State.withFetchWord (s : State) (nbits w : Nat) : State := placeWord nbits w s

end Sys2Proof.Machine
end

