-- ==== Sys2Proof/Machine/Status.lean ====
section
/-! DEFINITION. What the block exposes without a step: the status collaborator's reads (R350, R406), and the folding of
the persistence loads into the configuration before RESET (R422). -/

namespace Sys2Proof.Machine

/-- `remaining(now)` (R350): the after-run remaining time. -/
def remaining (s : State) (now : Nat) : Nat :=
  match s.rc.deadline with
  | some d => if now < d then d - now else 0
  | none => 0

/-- What the status collaborator reads of one channel (R406 iv, and R23 for the peer address). -/
structure ChannelStatus where
  link : Link
  idleSince : Nat
  peer : Byte
deriving DecidableEq, Repr

/-- What the status collaborator reads (R406 iv). -/
structure Status where
  channels : List ChannelStatus
  relay : Bool
  afterRun : Nat
  errorMask : Word16
deriving DecidableEq, Repr

/-- The status collaborator's read: a getter, no step (R370). -/
def status (s : State) (now : Nat) : Status :=
  { channels := [⟨s.ch0.link, s.ch0.tIdle, s.ch0.peer⟩, ⟨s.ch1.link, s.ch1.tIdle, s.ch1.peer⟩]
    relay := s.rc.relay
    afterRun := remaining s now
    errorMask := s.ds.stationError }

/-- A loaded address replaces the built-in default when it is a legal one (R422). -/
def loadAddress (loaded : Option Byte) (default : Byte) : Byte :=
  match loaded with
  | some a => if a ≠ broadcastAddr ∧ a ≠ reservedAddr then a else default
  | none => default

/-- A loaded identity, cut to 64 bytes, replaces the default (R422). -/
def loadIdentity (loaded : Option (List Byte)) (default : List Byte) : List Byte :=
  match loaded with
  | some x => x.take idMax
  | none => default

/-- Every field of a loaded configuration clamped to its range (R422). -/
def clampDevice (delayMax : Nat) (ds : Device) : Device :=
  { ds with
    suctionLevel := BitVec.ofNat 8 (clamp ds.suctionLevel.toNat 0 suctionMax)
    selectFlow := BitVec.ofNat 16 (clamp ds.selectFlow.toNat 0 flowMax)
    workDelayS := BitVec.ofNat 16 (clamp ds.workDelayS.toNat 0 delayMax)
    standDelayS := BitVec.ofNat 16 (clamp ds.standDelayS.toNat 0 delayMax)
    filterLife := BitVec.ofNat 16 (clamp ds.filterLife.toNat 0 filterMax)
    filterSat := BitVec.ofNat 16 (clamp ds.filterSat.toNat 0 filterMax) }

/-- What the persistence collaborator answers before RESET (R422); `none` is a failed or empty load. -/
structure Loads where
  addr0 : Option Byte
  addr1 : Option Byte
  identity0 : Option (List Byte)
  identity1 : Option (List Byte)
  config : Option Device
deriving DecidableEq, Repr

/-- The configuration after the loads: what RESET starts from (R422, R390). `cfg` holds the built-in defaults. -/
def withLoads (cfg : Cfg) (l : Loads) : Cfg :=
  { cfg with
    addrInit0 := loadAddress l.addr0 cfg.addrInit0
    addrInit1 := loadAddress l.addr1 cfg.addrInit1
    identityInit0 := loadIdentity l.identity0 cfg.identityInit0
    identityInit1 := loadIdentity l.identity1 cfg.identityInit1
    dsInit := match l.config with
      | some d => clampDevice cfg.delayMaxS d
      | none => cfg.dsInit }

end Sys2Proof.Machine
end

