-- ==== Sys2Proof/WellFormed.lean ====
section
/-! DEFINITION. Well-formedness: of Device State (its ranges), of the configuration (R11) and of an instruction in the
context it is selected in (R110, R111, R114: the row's state condition, its operand lengths, and that no earlier row
applies). -/

namespace Sys2Proof

/-- Every bounded field is within its documented range (R35 to R45, R278). -/
def Device.inRange (delayMax : Nat) (ds : Device) : Bool :=
  decide (ds.suctionLevel.toNat ≤ suctionMax) && decide (ds.selectFlow.toNat ≤ flowMax)
  && decide (ds.workDelayS.toNat ≤ delayMax) && decide (ds.standDelayS.toNat ≤ delayMax)
  && decide (ds.filterLife.toNat ≤ filterMax) && decide (ds.filterSat.toNat ≤ filterMax)

/-- A legal channel address, 0x01 to 0xFE (R21). -/
def legalAddr (a : Byte) : Bool := a != broadcastAddr && a != reservedAddr

/-- Every control code the dispatcher gives a meaning (R11). -/
def Cfg.allCodes (cfg : Cfg) : List Byte :=
  [cfg.ccFwId, cfg.ccRIdentity, cfg.ccWIdentity] ++ cfg.fwNopCodes ++ cfg.ccTable.map (·.code)

/-- `CC_TABLE` has each of the 32 entries of R112 once and no others. -/
def Cfg.tableComplete (cfg : Cfg) : Bool :=
  decide (cfg.ccTable.length = allEntries.length)
  && allEntries.all fun e => decide ((cfg.ccTable.map (·.entry)).count e = 1)

/-- The constraints on the open parameters (R11, and R10 for the active count). -/
def Cfg.wf (cfg : Cfg) : Bool :=
  decide ([cfg.bNak, cfg.bSyn, cfg.bAck, sohByte, markerByte].Nodup)
  && cfg.fidHs != cfg.fidApp
  && decide cfg.allCodes.Nodup
  && cfg.tableComplete
  && decide (6 ≤ cfg.bufCap)
  && decide (0 < cfg.tInact)
  && decide (cfg.fwString.length ≤ fwMax)
  && decide (cfg.identityInit0.length ≤ idMax) && decide (cfg.identityInit1.length ≤ idMax)
  && legalAddr cfg.addrInit0 && legalAddr cfg.addrInit1
  && cfg.dsInit.inRange cfg.delayMaxS
  && (cfg.nActiveInit == 1 || cfg.nActiveInit == 2)

/-- The data of a frame fits the one-byte length field (R104). -/
def dataFits (data : List Byte) : Bool := decide (data.length ≤ 255)

/-- A frame the handlers see: not a handshake frame, and for us (R114 rows 3 to 9). -/
def Ctx.served (cx : Ctx) (h : Hdr) : Bool :=
  h.fid != cx.cfg.fidHs && forUs cx.addr h.dst

/-- Row 3 or 4 of R114 applies to a served frame. -/
def Ctx.appSpecial (cx : Ctx) (h : Hdr) : Bool :=
  h.fid == cx.cfg.fidApp && (h.ctl == cx.cfg.ccFwId || h.ctl == cx.cfg.ccRIdentity)

/-- A served frame selects the table entry `e` with these index bytes, this value width and these ignored bytes. -/
def Ctx.selectsEntry (cx : Ctx) (h : Hdr) (e : Entry) (idx : List Byte) (vw : Nat) (extra : List Byte) : Bool :=
  cx.served h && cx.cfg.ccTable.contains ⟨e, h.ctl, idx.length⟩ && decide (idx.length + vw + extra.length ≤ 255)

/-- No entry of the table with this code has enough data (R114 rows 7 and 8). -/
def Cfg.noEntryServes (cfg : Cfg) (ctl : Byte) (len : Nat) : Bool :=
  cfg.ccTable.all fun row =>
    row.code != ctl ||
      match row.entry with
      | .w n => decide (len < row.idxN + n.vw)
      | .r _ => decide (len < row.idxN)

/-- The instruction is one its context selects, with operands its encoding admits. -/
def WellFormed (cx : Ctx) : Instr → Bool
  | .hsMarker _ => cx.hs != .frameModeActive
  | .hsNak _ => cx.hs == .idle
  | .hsAck _ => cx.hs == .sentSyn
  | .hsSoh _ => cx.hs == .sentAck2
  | .hsNakRestart _ => cx.cfg.hsNakRestart && (cx.hs == .sentSyn || cx.hs == .sentAck2)
  | .hsOther _ b =>
    cx.hs != .frameModeActive && b != markerByte && !(cx.hs == .idle && b == cx.cfg.bNak)
    && !(cx.hs == .sentSyn && b == cx.cfg.bAck) && !(cx.hs == .sentAck2 && b == sohByte)
    && !(cx.cfg.hsNakRestart && b == cx.cfg.bNak && (cx.hs == .sentSyn || cx.hs == .sentAck2))
  | .hsSyn _ _ => cx.hs == .seenNak
  | .hsAck2 _ => cx.hs == .gotAck1
  | .hsAck3 _ => cx.hs == .gotSoh
  | .decAmMarker _ => cx.hs == .frameModeActive && cx.dec == .awaitMarker
  | .decAmOther _ b => cx.hs == .frameModeActive && cx.dec == .awaitMarker && b != markerByte
  | .decAsStart _ => cx.hs == .frameModeActive && cx.dec == .awaitStart
  | .decAsMarker _ => cx.hs == .frameModeActive && cx.dec == .awaitStart
  | .decAsOther _ b => cx.hs == .frameModeActive && cx.dec == .awaitStart && b != startByte && b != markerByte
  | .decIfMarker _ => cx.hs == .frameModeActive && cx.dec == .inFrame && !cx.esc
  | .decIfData _ b _ => cx.hs == .frameModeActive && cx.dec == .inFrame && !cx.esc && b != markerByte
  | .decEscMarker _ _ => cx.hs == .frameModeActive && cx.dec == .inFrame && cx.esc
  | .decEscEnd _ _ => cx.hs == .frameModeActive && cx.dec == .inFrame && cx.esc
  | .decEscStart _ _ => cx.hs == .frameModeActive && cx.dec == .inFrame && cx.esc
  | .decEscOther _ b =>
    cx.hs == .frameModeActive && cx.dec == .inFrame && cx.esc && b != markerByte && b != endByte && b != startByte
  | .frmHs h data => h.fid == cx.cfg.fidHs && dataFits data
  | .frmNotForUs h data => h.fid != cx.cfg.fidHs && !forUs cx.addr h.dst && dataFits data
  | .frmFwId h data => cx.served h && h.fid == cx.cfg.fidApp && h.ctl == cx.cfg.ccFwId && dataFits data
  | .frmIdRead h data => cx.served h && h.fid == cx.cfg.fidApp && h.ctl == cx.cfg.ccRIdentity && dataFits data
  | .frmIdWrite h data => cx.served h && h.ctl == cx.cfg.ccWIdentity && dataFits data
  | .frmFwNop h data => cx.served h && cx.cfg.fwNopCodes.contains h.ctl && dataFits data
  | .wSuctionLevel h idx _ extra => cx.selectsEntry h (.w .suctionLevel) idx 1 extra
  | .wSelectFlow h idx _ extra => cx.selectsEntry h (.w .selectFlow) idx 2 extra
  | .wWorkAct h idx _ extra => cx.selectsEntry h (.w .workAct) idx 1 extra
  | .wStandAct h idx _ extra => cx.selectsEntry h (.w .standAct) idx 1 extra
  | .wWorkDelay h idx _ extra => cx.selectsEntry h (.w .workDelay) idx 2 extra
  | .wStandDelay h idx _ extra => cx.selectsEntry h (.w .standDelay) idx 2 extra
  | .wPedalAct h idx _ extra => cx.selectsEntry h (.w .pedalAct) idx 1 extra
  | .wPedalMode h idx _ extra => cx.selectsEntry h (.w .pedalMode) idx 1 extra
  | .wFilterStatus h idx _ extra => cx.selectsEntry h (.w .filterStatus) idx 2 extra
  | .wFilterSat h idx _ extra => cx.selectsEntry h (.w .filterSat) idx 2 extra
  | .wConnectedPedal h idx _ extra => cx.selectsEntry h (.w .connectedPedal) idx 1 extra
  | .wContSuction h idx _ extra => cx.selectsEntry h (.w .contSuction) idx 1 extra
  | .wUsbConnect h idx _ extra => cx.selectsEntry h (.w .usbConnect) idx 1 extra
  | .wStationError h idx _ extra => cx.selectsEntry h (.w .stationError) idx 2 extra
  | .rSuctionLevel h idx extra => cx.selectsEntry h (.r .suctionLevel) idx 0 extra
  | .rFlow h idx extra => cx.selectsEntry h (.r .flow) idx 0 extra
  | .rSpeed h idx extra => cx.selectsEntry h (.r .speed) idx 0 extra
  | .rSelectFlow h idx extra => cx.selectsEntry h (.r .selectFlow) idx 0 extra
  | .rWorkAct h idx extra => cx.selectsEntry h (.r .workAct) idx 0 extra
  | .rStandAct h idx extra => cx.selectsEntry h (.r .standAct) idx 0 extra
  | .rWorkDelay h idx extra => cx.selectsEntry h (.r .workDelay) idx 0 extra
  | .rStandDelay h idx extra => cx.selectsEntry h (.r .standDelay) idx 0 extra
  | .rWorkAfterrunMs h idx extra => cx.selectsEntry h (.r .workAfterrunMs) idx 0 extra
  | .rStandAfterrunMs h idx extra => cx.selectsEntry h (.r .standAfterrunMs) idx 0 extra
  | .rPedalAct h idx extra => cx.selectsEntry h (.r .pedalAct) idx 0 extra
  | .rPedalMode h idx extra => cx.selectsEntry h (.r .pedalMode) idx 0 extra
  | .rFilterStatus h idx extra => cx.selectsEntry h (.r .filterStatus) idx 0 extra
  | .rFilterSat h idx extra => cx.selectsEntry h (.r .filterSat) idx 0 extra
  | .rConnectedPedal h idx extra => cx.selectsEntry h (.r .connectedPedal) idx 0 extra
  | .rContSuction h idx extra => cx.selectsEntry h (.r .contSuction) idx 0 extra
  | .rUsbConnect h idx extra => cx.selectsEntry h (.r .usbConnect) idx 0 extra
  | .rStationError h idx extra => cx.selectsEntry h (.r .stationError) idx 0 extra
  | .frmUnknown h data =>
    cx.served h && !cx.appSpecial h && h.ctl != cx.cfg.ccWIdentity && !cx.cfg.fwNopCodes.contains h.ctl
    && cx.cfg.noEntryServes h.ctl data.length && dataFits data
  | .reset _ => true
  | .rx _ _ _ => true
  | .poll _ => true
  | .adminWrite c _ _ _ => decide (c.idx < cx.nActive)
  | .adminForceErrorMask _ _ => true
  | .adminSetActiveCount k _ => k == 1 || k == 2
  | .adminSetTelemetry _ _ _ => true
  | .adminWipePersistence _ => true

end Sys2Proof
end

