-- ==== Sys2Proof/Safety.lean ====
section
/-! DEFINITION. The terms claims about the machine are stated in: the invariants (R32, R50, R349), what a step leaves
unchanged, runs of received bytes, and where an encoded instruction arrives. -/

namespace Sys2Proof

/-! ### Where an encoded instruction arrives -/

/-- The channel of a byte-level or frame-level instruction and, where its operands carry one, the time it arrives at;
none for the transitions without input and the steps, which have no encoding (R110, R120). -/
def Instr.arrival : Instr → Option (Chan × Option Nat)
  | .hsMarker c | .hsNak c | .hsAck c | .hsSoh c | .hsNakRestart c | .hsOther c _ => some (c, none)
  | .decAmMarker c | .decAmOther c _ | .decAsStart c | .decAsMarker c | .decAsOther c _ => some (c, none)
  | .decIfMarker c | .decEscOther c _ => some (c, none)
  | .decIfData c _ now | .decEscMarker c now | .decEscEnd c now | .decEscStart c now => some (c, some now)
  | .frmHs h _ | .frmNotForUs h _ | .frmFwId h _ | .frmIdRead h _ | .frmIdWrite h _ | .frmFwNop h _
  | .frmUnknown h _ => some (h.c, some h.now)
  | .wSuctionLevel h _ _ _ | .wSelectFlow h _ _ _ | .wWorkAct h _ _ _ | .wStandAct h _ _ _ | .wWorkDelay h _ _ _
  | .wStandDelay h _ _ _ | .wPedalAct h _ _ _ | .wPedalMode h _ _ _ | .wFilterStatus h _ _ _ | .wFilterSat h _ _ _
  | .wConnectedPedal h _ _ _ | .wContSuction h _ _ _ | .wUsbConnect h _ _ _
  | .wStationError h _ _ _ => some (h.c, some h.now)
  | .rSuctionLevel h _ _ | .rFlow h _ _ | .rSpeed h _ _ | .rSelectFlow h _ _ | .rWorkAct h _ _ | .rStandAct h _ _
  | .rWorkDelay h _ _ | .rStandDelay h _ _ | .rWorkAfterrunMs h _ _ | .rStandAfterrunMs h _ _ | .rPedalAct h _ _
  | .rPedalMode h _ _ | .rFilterStatus h _ _ | .rFilterSat h _ _ | .rConnectedPedal h _ _ | .rContSuction h _ _
  | .rUsbConnect h _ _ | .rStationError h _ _ => some (h.c, some h.now)
  | .hsSyn _ _ | .hsAck2 _ | .hsAck3 _ => none
  | .reset _ | .rx _ _ _ | .poll _ | .adminWrite _ _ _ _ | .adminForceErrorMask _ _ | .adminSetActiveCount _ _
  | .adminSetTelemetry _ _ _ | .adminWipePersistence _ => none

/-- The instruction arrives on channel `c`, and at `now` where its operands carry a time. -/
def Instr.arrivesAt (i : Instr) (c : Chan) (now : Nat) : Prop :=
  i.arrival = some (c, none) ∨ i.arrival = some (c, some now)

/-! ### Values of the write and read entries -/

/-- The value a write of `v` leaves in its field (R263 to R276). -/
def WName.stored (delayMax : Nat) (n : WName) (v : Nat) : Nat :=
  match n with
  | .suctionLevel => min v 3
  | .selectFlow | .filterStatus | .filterSat => min v 1000
  | .workDelay | .standDelay => min v delayMax
  | .workAct | .standAct | .pedalAct | .connectedPedal | .contSuction | .usbConnect => if v = 0 then 0 else 1
  | .pedalMode | .stationError => v

/-- The read entry of the field a write entry stores to (R112). -/
def WName.readBack : WName → RName
  | .suctionLevel => .suctionLevel
  | .selectFlow => .selectFlow
  | .workAct => .workAct
  | .standAct => .standAct
  | .workDelay => .workDelay
  | .standDelay => .standDelay
  | .pedalAct => .pedalAct
  | .pedalMode => .pedalMode
  | .filterStatus => .filterStatus
  | .filterSat => .filterSat
  | .connectedPedal => .connectedPedal
  | .contSuction => .contSuction
  | .usbConnect => .usbConnect
  | .stationError => .stationError

end Sys2Proof

namespace Sys2Proof.Machine

/-! ### Invariants -/

/-- The channel-reset state (R56): what an inactive channel is held in (R20, R32 viii). -/
def Channel.atRest (x : Channel) : Prop :=
  x.hs = .idle ∧ x.dec = .awaitMarker ∧ x.esc = false ∧ x.n = 0 ∧ x.link = .down ∧ x.locked = false

/-- The invariants of a channel record: R32 (i) to (vii), and what the rules imply of `link`, `locked`, the sequencer
state, the timestamps, the two memories and the bit-level receiver. -/
structure ChannelInv (cfg : Cfg) (clock : Nat) (x : Channel) : Prop where
  /-- R32 (i), and the link and the lock, which only frames set (R175, R400). -/
  preFrame : x.hs ≠ .frameModeActive →
    x.dec = .awaitMarker ∧ x.esc = false ∧ x.n = 0 ∧ x.link = .down ∧ x.locked = false
  /-- R32 (ii), (iii). -/
  outside : x.dec ≠ .inFrame → x.n = 0 ∧ x.esc = false
  /-- R32 (iv). -/
  fill : x.n ≤ cfg.bufCap
  /-- R28: a structurally complete buffer starts with a frame whose checksum is good. -/
  good : 5 ≤ x.n → 5 + (Memory.read x.buf 4).toNat + 1 ≤ x.n →
    verify (Memory.readBytes x.buf 0 (5 + (Memory.read x.buf 4).toNat + 1)) = true
  /-- R32 (vi). -/
  addrLegal : legalAddr x.addr = true
  /-- R32 (vii). -/
  idFits : x.idLen ≤ idMax
  /-- R179: never observed between steps. -/
  settled : x.hs ≠ .gotAck1 ∧ x.hs ≠ .gotSoh
  /-- R70: the buffer keeps its canonical form and its address space. -/
  bufForm : Memory.wf x.buf = true ∧ Memory.below cfg.bufCap x.buf = true
  /-- R71: so does the identity memory. -/
  identityForm : Memory.wf x.identity = true ∧ Memory.below idMax x.identity = true
  /-- R7, R29: no timestamp lies ahead of the clock. -/
  times : x.tRx ≤ clock ∧ x.tReply ≤ clock ∧ x.tIdle ≤ clock ∧ (x.synValid = true → x.tSyn ≤ clock)
  /-- R143: eight data bits. -/
  uartBits : ∀ k, x.uart.phase = .data k → k < 8

/-- The invariants of the relay coordinator (R50, R349). -/
structure RelayInv (rc : RelayState) : Prop where
  /-- R349 (i). -/
  paired : rc.owner = none ↔ rc.deadline = none
  /-- R349 (ii). -/
  afterRun : rc.deadline ≠ none → rc.workMask = 0#2
  /-- R349: never off with the mask non-empty. -/
  working : rc.workMask ≠ 0#2 → rc.relay = true
  /-- R343, R347: a pending after-run keeps the relay on. -/
  running : rc.deadline ≠ none → rc.relay = true

/-- The invariant every step keeps. -/
structure Inv (s : State) : Prop where
  cfgWf : s.cfg.wf = true
  count : s.nActive = 1 ∨ s.nActive = 2
  channels : ∀ c, ChannelInv s.cfg s.clock (s.ch c)
  /-- R32 (viii), and R348: a disabled channel holds neither a work bit nor the after-run. -/
  inactive : ∀ c, s.active c = false →
    (s.ch c).atRest ∧ s.rc.workMask &&& maskBit c = 0#2 ∧ s.rc.owner ≠ some c
  /-- R35: every bounded field is within its range. -/
  ranges : s.ds.inRange s.cfg.delayMaxS = true
  relay : RelayInv s.rc
  dirtyTime : s.cfgDirty = true → s.tCfg ≤ s.clock

/-! ### What a step leaves unchanged -/

/-- The parameters and the environment's side are unchanged: `cfg`, the active count, the clock, the pending inputs. -/
def EnvKept (s t : State) : Prop :=
  t.cfg = s.cfg ∧ t.nActive = s.nActive ∧ t.clock = s.clock ∧ t.inputs = s.inputs

/-- Every register the channels share is unchanged, and so is the environment's side. -/
def SharedKept (s t : State) : Prop :=
  EnvKept s t ∧ t.ds = s.ds ∧ t.rc = s.rc ∧ t.cfgDirty = s.cfgDirty ∧ t.tCfg = s.tCfg

/-- Every register and memory byte of the other channel is unchanged. -/
def OtherKept (c : Chan) (s t : State) : Prop := ∀ d, d ≠ c → t.ch d = s.ch d

/-- Every byte of both memories of both channels reads as before. -/
def BytesKept (s t : State) : Prop :=
  ∀ d a, Memory.read (t.ch d).buf a = Memory.read (s.ch d).buf a
    ∧ Memory.read (t.ch d).identity a = Memory.read (s.ch d).identity a

/-- The events a step appends. -/
def Emits (s t : State) (evs : List Event) : Prop := t.events = s.events ++ evs

/-- Only one channel record changed, and it is now `x`; nothing was emitted. -/
def OnlyChannel (c : Chan) (x : Channel) (s t : State) : Prop :=
  t.ch c = x ∧ OtherKept c s t ∧ SharedKept s t ∧ BytesKept s t ∧ Emits s t []

/-- The frame a reply to header `h` puts on the wire (R156, R241). -/
def replyEvent (h : Hdr) (data : List Byte) (s : State) : Event :=
  .tx h.c (encodeFrame (s.ch h.c).addr h.src h.fid h.ctl data)

/-- A write was committed (R260 to R262): the field aside, the acknowledge was sent from the channel's own address and
the configuration marked dirty; every other register and every memory byte is unchanged. -/
def WriteCommitted (h : Hdr) (s t : State) : Prop :=
  Emits s t [replyEvent h [ackStatus] s]
  ∧ t.ch h.c = { s.ch h.c with tReply := h.now }
  ∧ OtherKept h.c s t ∧ BytesKept s t
  ∧ t.rc = s.rc ∧ t.cfgDirty = true ∧ t.tCfg = h.now ∧ EnvKept s t

/-- Nothing but a reply with these data bytes happened (R300, R156). -/
def OnlyReplied (h : Hdr) (data : List Byte) (s t : State) : Prop :=
  Emits s t [replyEvent h data s]
  ∧ t.ch h.c = { s.ch h.c with tReply := h.now }
  ∧ OtherKept h.c s t ∧ SharedKept s t ∧ BytesKept s t

/-! ### Runs -/

/-- Receive timed bytes on one channel, one `RX` step each (R6, R140). -/
def rxAll (c : Chan) : List (Byte × Nat) → State → Res
  | [], s => .next s
  | (b, now) :: rest, s => andThen (exec (.rx c b now) s) (rxAll c rest)

/-- Channel `c` with these bytes buffered inside an unescaped frame (R200). -/
def withBuffer (c : Chan) (x : List Byte) (now : Nat) (s : State) : State :=
  s.setCh c { s.ch c with
    dec := .inFrame, esc := false, tRx := now, buf := Memory.writeBytes (s.ch c).buf 0 x, n := x.length }

/-- The line levels of one character (R143): a low start bit, eight data bits least significant first, the stop bit. -/
def charLevels (osr : Nat) (b : Byte) (stop : Bool) : List Bool :=
  List.replicate osr false
  ++ (List.range 8).flatMap (fun k => List.replicate osr (b.getLsbD k))
  ++ List.replicate osr stop

/-- Feed line samples to a bit-level receiver; the bytes it delivers, in order. -/
def uartRun (osr : Nat) : List Bool → Uart → Uart × List Byte
  | [], u => (u, [])
  | l :: rest, u =>
    let step1 := uartTick osr l u
    let step2 := uartRun osr rest step1.1
    (step2.1, step1.2.toList ++ step2.2)

end Sys2Proof.Machine
end

