-- ==== Sys2Proof/Certificates/Slice0/Obligations.lean ====
section
/-! DEFINITION. The statements for the provers. Each says which rule it formalises; a clause that rests on a choice of the
model names the log entry. -/

open Sys2Proof Sys2Proof.Machine

/-! ### Encoding and the Framer -/

/-- R100 to R114: the decoder gives back every well-formed byte-level and frame-level instruction its encoder wrote, every
operand at every value the encoding admits, under every well-formed configuration. -/
def Obligations.DecodeEncodeRoundTrip : Prop :=
  ∀ (cx : Ctx) (i : Instr) (c : Chan) (now : Nat), cx.cfg.wf = true → WellFormed cx i = true → i.arrivesAt c now →
    decode cx c now (encode cx.cfg i) = .ok i

/-- R100 to R114, the other direction: what the decoder accepts is a well-formed instruction that encodes to the very
bytes it was read from, so no byte is dropped and no two byte strings share a meaning. -/
def Obligations.DecodedIsWellFormed : Prop :=
  ∀ (cx : Ctx) (c : Chan) (now : Nat) (x : List Byte) (i : Instr), cx.cfg.wf = true →
    decode cx c now x = .ok i → WellFormed cx i = true ∧ encode cx.cfg i = x ∧ i.arrivesAt c now

/-- Words written out from the encoding tables (R110, R111, R113, R114) decode to the instruction they stand for. That
the lone bytes 0x10, 0x15 and 0x03, which the tables give to several rows, read as the first row's instruction is the
model's choice (log entry 4: a lone byte is read in the state of the first row that has it). -/
def Obligations.TableWordsDecode : Prop :=
  decodeTableWord 8 0x10 = some (.hsMarker .c0)
  ∧ decodeTableWord 8 0x15 = some (.hsNak .c0)
  ∧ decodeTableWord 8 0x03 = some (.decEscEnd .c0 0)
  ∧ decode (tableCtx 0#8) .c0 7 [0x05#8, 0x01#8, 0x0A#8, 0x21#8, 0x00#8, 0x2E#8]
      = .ok (.frmFwId ⟨.c0, 0x05#8, 0x01#8, 0x0A#8, 0x21#8, 7⟩ [])
  ∧ decode (tableCtx 0#8) .c0 7 [0x05#8, 0x01#8, 0x0A#8, 0x3B#8, 0x03#8, 0x01#8, 0x1E#8, 0x00#8, 0x28#8]
      = .ok (.wWorkDelay ⟨.c0, 0x05#8, 0x01#8, 0x0A#8, 0x3B#8, 7⟩ [0x01#8] 30#16 [])
  ∧ decode (tableCtx 0#8) .c0 7 [0x05#8, 0x01#8, 0x0A#8, 0x36#8, 0x01#8, 0x01#8, 0x39#8]
      = .ok (.rWorkAct ⟨.c0, 0x05#8, 0x01#8, 0x0A#8, 0x36#8, 7⟩ [0x01#8] [])

/-- R151: the checksum of a concatenation; the order does not matter; a change of one byte changes the result in exactly
those bits, so `verify` detects every such change. A sequence with its own checksum: the plain XOR of its bytes is the
seed, and comparing the two verifies as `verify` does; `checksum` of it, seeded once more, is 0x00 (R150), where R151
writes 0x01 of that XOR. The reading is the model's, DEDUCED (log entry 16). -/
def Obligations.ChecksumLaws : Prop :=
  (∀ s t : List Byte, checksum (s ++ t) = checksum s ^^^ checksum t ^^^ 0x01#8)
  ∧ (∀ s : List Byte, xorBytes (s ++ [checksum s]) = 0x01#8)
  ∧ (∀ s : List Byte, checksum (s ++ [checksum s]) = 0x00#8)
  ∧ (∀ s : List Byte, verifyBySeed s = verify s)
  ∧ (∀ s t : List Byte, s.Perm t → checksum s = checksum t)
  ∧ (∀ (s t : List Byte) (b m : Byte), checksum (s ++ [b ^^^ m] ++ t) = checksum (s ++ [b] ++ t) ^^^ m)
  ∧ (∀ (s t : List Byte) (b m k : Byte), m ≠ 0#8 →
      verify (s ++ [b] ++ t ++ [k]) = true → verify (s ++ [b ^^^ m] ++ t ++ [k]) = false)

/-- R152: stuffing copies every byte in order and doubles 0x10, so its length is the input's and one more for each
0x10; and it loses nothing. -/
def Obligations.StuffLaws : Prop :=
  stuff [] = []
  ∧ (∀ s t : List Byte, stuff (s ++ t) = stuff s ++ stuff t)
  ∧ (∀ b : Byte, stuff [b] = if b = 0x10#8 then [b, b] else [b])
  ∧ (∀ s : List Byte, (stuff s).length = s.length + s.count 0x10#8)
  ∧ (∀ s t : List Byte, stuff s = stuff t → s = t)

/-! ### Link handshake sequencer -/

/-- R170: a marker byte hands the channel to the decoder in `AwaitStart`; nothing else changes, nothing is sent. -/
def Obligations.HandshakeMarker : Prop :=
  ∀ (c : Chan) (s : State), ∃ t, exec (.hsMarker c) s = .next t
    ∧ OnlyChannel c { s.ch c with hs := .frameModeActive, dec := .awaitStart } s t

/-- R171, R173, R174, R181: the other bytes the sequencer knows write `hs` and nothing else. -/
def Obligations.HandshakeBytes : Prop :=
  ∀ (c : Chan) (s : State),
    (∃ t, exec (.hsNak c) s = .next t ∧ OnlyChannel c { s.ch c with hs := .seenNak } s t)
    ∧ (∃ t, exec (.hsAck c) s = .next t ∧ OnlyChannel c { s.ch c with hs := .gotAck1 } s t)
    ∧ (∃ t, exec (.hsSoh c) s = .next t ∧ OnlyChannel c { s.ch c with hs := .gotSoh } s t)
    ∧ (∃ t, exec (.hsNakRestart c) s = .next t ∧ OnlyChannel c { s.ch c with hs := .seenNak } s t)

/-- R172: in `SeenNak` the SYN goes out when none was sent or the last is 1500 ms old, and otherwise the channel waits. -/
def Obligations.SynRateLimited : Prop :=
  ∀ (c : Chan) (now : Nat) (s : State), (s.ch c).hs = .seenNak →
    ∃ t, exec (.hsSyn c now) s = .next t ∧
      if (s.ch c).synValid = false ∨ (s.ch c).tSyn + 1500 ≤ now then
        t.ch c = { s.ch c with tSyn := now, synValid := true, hs := .sentSyn }
        ∧ Emits s t [.tx c [s.cfg.bSyn]] ∧ OtherKept c s t ∧ SharedKept s t ∧ BytesKept s t
      else t = s

/-- R178, R175: the two acknowledge transmissions, in the state that waits for each. -/
def Obligations.HandshakeAcknowledges : Prop :=
  ∀ (c : Chan) (s : State),
    ((s.ch c).hs = .gotAck1 → ∃ t, exec (.hsAck2 c) s = .next t
      ∧ t.ch c = { s.ch c with hs := .sentAck2 }
      ∧ Emits s t [.tx c [s.cfg.bAck]] ∧ OtherKept c s t ∧ SharedKept s t ∧ BytesKept s t)
    ∧ ((s.ch c).hs = .gotSoh → ∃ t, exec (.hsAck3 c) s = .next t
      ∧ t.ch c = { s.ch c with hs := .frameModeActive, link := .connecting }
      ∧ Emits s t [.tx c [s.cfg.bAck]] ∧ OtherKept c s t ∧ SharedKept s t ∧ BytesKept s t)

/-- R177, R192, R194, R232, R320: the rows without effect complete and change nothing. Through an `RX` step (R141), a
byte the sequencer has no transition for, in a state that waits for input, writes `t_rx` and nothing else. -/
def Obligations.IgnoredRowsChangeNothing : Prop :=
  (∀ (c : Chan) (b : Byte) (h : Hdr) (data : List Byte) (s : State),
    exec (.hsOther c b) s = .next s ∧ exec (.decAmOther c b) s = .next s ∧ exec (.decAsMarker c) s = .next s
    ∧ exec (.frmNotForUs h data) s = .next s ∧ exec (.frmUnknown h data) s = .next s)
  ∧ (∀ (c : Chan) (b : Byte) (now : Nat) (s : State), s.active c = true →
    ((s.ch c).hs = .idle ∧ b ≠ s.cfg.bNak
      ∨ (s.ch c).hs = .sentSyn ∧ b ≠ s.cfg.bAck ∧ (s.cfg.hsNakRestart = false ∨ b ≠ s.cfg.bNak)
      ∨ (s.ch c).hs = .sentAck2 ∧ b ≠ 0x01#8 ∧ (s.cfg.hsNakRestart = false ∨ b ≠ s.cfg.bNak)) →
    b ≠ 0x10#8 →
    ∃ t, exec (.rx c b now) s = .next t ∧ OnlyChannel c { s.ch c with tRx := now } s t)

/-- R172 over the machine: a step that transmits the byte `B_SYN` by itself on a channel does so 1500 ms or more after
the channel's last one, and records the time; a step that does not keeps the record, but for `RESET`. -/
def Obligations.SynSpacing : Prop :=
  ∀ (s t : State) (c : Chan) (evs : List Event), Inv s → step s = .next t → t.events = s.events ++ evs →
    (Event.tx c [s.cfg.bSyn] ∈ evs →
      ((s.ch c).synValid = false ∨ (s.ch c).tSyn + 1500 ≤ t.clock)
      ∧ (t.ch c).synValid = true ∧ (t.ch c).tSyn = t.clock)
    ∧ (Event.tx c [s.cfg.bSyn] ∉ evs →
      (t.ch c).synValid = (s.ch c).synValid ∧ (t.ch c).tSyn = (s.ch c).tSyn
      ∨ ∃ t0 rest, s.inputs = .reset t0 :: rest)

/-! ### Frame decoder -/

/-- R191, R193, R195, R196: the decoder's moves that store no byte. -/
def Obligations.DecoderMoves : Prop :=
  ∀ (c : Chan) (b : Byte) (s : State),
    (∃ t, exec (.decAmMarker c) s = .next t ∧ OnlyChannel c { s.ch c with dec := .awaitStart } s t)
    ∧ (∃ t, exec (.decAsStart c) s = .next t
      ∧ OnlyChannel c { s.ch c with dec := .inFrame, n := 0, esc := false } s t)
    ∧ (∃ t, exec (.decAsOther c b) s = .next t ∧ OnlyChannel c { s.ch c with dec := .awaitMarker } s t)
    ∧ (∃ t, exec (.decIfMarker c) s = .next t ∧ OnlyChannel c { s.ch c with esc := true } s t)

/-- R384: raising a condition reports it and resynchronises the channel's decoder, and nothing else changes. R201: that
is all an invalid escape does; the frame is discarded without a flush, complete or not. -/
def Obligations.InvalidEscapeDiscards : Prop :=
  ∀ (c : Chan) (b : Byte) (k : ErrKind) (s : State),
    ((raise c k s).ch c = { s.ch c with dec := .awaitMarker, esc := false, n := 0 }
      ∧ Emits s (raise c k s) [.report c k]
      ∧ OtherKept c s (raise c k s) ∧ SharedKept s (raise c k s) ∧ BytesKept s (raise c k s))
    ∧ ∃ t, exec (.decEscOther c b) s = .next t
      ∧ t.ch c = { s.ch c with dec := .awaitMarker, esc := false, n := 0 }
      ∧ Emits s t [.report c .invalidEscape] ∧ OtherKept c s t ∧ SharedKept s t ∧ BytesKept s t

/-- R204, R197, R200: a byte that neither overflows nor completes the frame is stored at index `n` and counted; every
other byte of both memories reads as before. An escaped 0x10 also clears `esc`. The byte at the length index is looked
up in the buffer as it stands after the store. -/
def Obligations.AppendStoresByte : Prop :=
  ∀ (c : Chan) (b : Byte) (now : Nat) (s : State), Memory.wf (s.ch c).buf = true → (s.ch c).n < s.cfg.bufCap →
    ∀ (i : Instr) (v : Byte) (e : Bool),
      (i = .decIfData c b now ∧ v = b ∧ e = (s.ch c).esc ∨ i = .decEscMarker c now ∧ v = 0x10#8 ∧ e = false) →
      ((s.ch c).n < 5 ∨ (s.ch c).n ≠ 5 + (bufByte s c 4).toNat) →
      ∃ t, exec i s = .next t
        ∧ t.ch c = { s.ch c with buf := (t.ch c).buf, n := (s.ch c).n + 1, esc := e }
        ∧ (∀ a, Memory.read (t.ch c).buf a = if a = (s.ch c).n then v else Memory.read (s.ch c).buf a)
        ∧ Memory.wf (t.ch c).buf = true
        ∧ OtherKept c s t ∧ SharedKept s t ∧ Emits s t []

/-- R200: a byte that finds the buffer full is dropped, `Overflow` is reported and the decoder resynchronised. That a
buffer holding more than `BUF_CAP` bytes, which R32 (iv) rules out, overflows too is the model's (log entry 6). -/
def Obligations.FullBufferOverflows : Prop :=
  ∀ (c : Chan) (b : Byte) (now : Nat) (s : State), s.cfg.bufCap ≤ (s.ch c).n →
    ∀ i : Instr, (i = .decIfData c b now ∨ i = .decEscMarker c now) →
      ∃ t, exec i s = .next t
        ∧ t.ch c = { s.ch c with dec := .awaitMarker, esc := false, n := 0 }
        ∧ Emits s t [.report c .overflow] ∧ OtherKept c s t ∧ SharedKept s t ∧ BytesKept s t

/-- R202, the mismatch arm: the byte that completes the declared length with a bad checksum discards the frame. -/
def Obligations.BadChecksumDiscards : Prop :=
  ∀ (c : Chan) (b : Byte) (now : Nat) (s : State), Memory.wf (s.ch c).buf = true → (s.ch c).n < s.cfg.bufCap →
    5 ≤ (s.ch c).n → (s.ch c).n = 5 + (bufByte s c 4).toNat →
    ∀ (i : Instr) (v : Byte),
      (i = .decIfData c b now ∧ v = b ∨ i = .decEscMarker c now ∧ v = 0x10#8) →
      checksum (bufBytes s c) ≠ v →
      ∃ t, exec i s = .next t
        ∧ t.ch c = { s.ch c with dec := .awaitMarker, esc := false, n := 0, buf := (t.ch c).buf }
        ∧ (∀ a, a ≠ (s.ch c).n → Memory.read (t.ch c).buf a = Memory.read (s.ch c).buf a)
        ∧ Emits s t [.report c .checksumMismatch] ∧ OtherKept c s t ∧ SharedKept s t

/-- R202, the match arm: the byte that completes the declared length with a good checksum runs the instruction the frame
decodes to, once, in the state with the byte stored and the idle touch done (R236), and the decoder stays in the
complete frame. -/
def Obligations.GoodFrameDispatches : Prop :=
  ∀ (c : Chan) (b : Byte) (now : Nat) (s : State), Memory.wf (s.ch c).buf = true → (s.ch c).n < s.cfg.bufCap →
    (s.ch c).dec = .inFrame → 5 ≤ (s.ch c).n → (s.ch c).n = 5 + (bufByte s c 4).toNat →
    ∀ (i : Instr) (v : Byte) (s1 : State),
      (i = .decIfData c b now ∧ v = b ∧ s1 = pushByte c v s
        ∨ i = .decEscMarker c now ∧ v = 0x10#8 ∧ s1 = pushByte c v (setEsc c false s)) →
      checksum (bufBytes s c) = v →
      ∃ t, exec i s = .next t
        ∧ exec (decodeFrame (s.ctx c) c (frameOf (bufBytes s c ++ [v])) now)
            (touchFor c (frameOf (bufBytes s c ++ [v])) now s1) = .next t
        ∧ complete t c = true ∧ (t.ch c).n = (s.ch c).n + 1 ∧ (t.ch c).hs = (s.ch c).hs

/-- R198 with R203: the end delimiter resynchronises in every case; before that, a frame already complete and one of
fewer than six bytes are left alone, six bytes or more are dispatched when they verify and reported when they do not. -/
def Obligations.EndDelimiter : Prop :=
  ∀ (c : Chan) (now : Nat) (s : State), ∃ t, exec (.decEscEnd c now) s = .next t
    ∧ (t.ch c).dec = .awaitMarker ∧ (t.ch c).esc = false ∧ (t.ch c).n = 0 ∧ (t.ch c).hs = (s.ch c).hs
    ∧ OtherKept c s t ∧ EnvKept s t
    ∧ (complete s c = true ∨ (s.ch c).n < 6 →
        OnlyChannel c { s.ch c with dec := .awaitMarker, esc := false, n := 0 } s t)
    ∧ (complete s c = false → 6 ≤ (s.ch c).n → verify (bufBytes s c) = false →
        t.ch c = { s.ch c with dec := .awaitMarker, esc := false, n := 0 }
        ∧ SharedKept s t ∧ BytesKept s t ∧ Emits s t [.report c .checksumMismatch])
    ∧ (complete s c = false → 6 ≤ (s.ch c).n → verify (bufBytes s c) = true →
        ∃ u, exec (decodeFrame (s.ctx c) c (frameOf (bufBytes s c)) now)
            (touchFor c (frameOf (bufBytes s c)) now s) = .next u
          ∧ t = u.setCh c { u.ch c with dec := .awaitMarker, esc := false, n := 0 })

/-- R199 with R203: a start byte inside a frame flushes like the end delimiter, then opens a fresh frame whatever the
flush reported. -/
def Obligations.StartInsideFrame : Prop :=
  ∀ (c : Chan) (now : Nat) (s : State), ∃ t, exec (.decEscStart c now) s = .next t
    ∧ (t.ch c).dec = .inFrame ∧ (t.ch c).esc = false ∧ (t.ch c).n = 0 ∧ (t.ch c).hs = (s.ch c).hs
    ∧ OtherKept c s t ∧ EnvKept s t
    ∧ (complete s c = true ∨ (s.ch c).n < 6 →
        OnlyChannel c { s.ch c with dec := .inFrame, esc := false, n := 0 } s t)
    ∧ (complete s c = false → 6 ≤ (s.ch c).n → verify (bufBytes s c) = false →
        t.ch c = { s.ch c with dec := .inFrame, esc := false, n := 0 }
        ∧ SharedKept s t ∧ BytesKept s t ∧ Emits s t [.report c .checksumMismatch])
    ∧ (complete s c = false → 6 ≤ (s.ch c).n → verify (bufBytes s c) = true →
        ∃ u, exec (decodeFrame (s.ctx c) c (frameOf (bufBytes s c)) now)
            (touchFor c (frameOf (bufBytes s c)) now s) = .next u
          ∧ t = u.setCh c { u.ch c with dec := .inFrame, esc := false, n := 0 })

/-- R157: the bytes of an encoded frame, received at any times on a channel waiting for a marker, dispatch exactly that
frame at its checksum byte, report nothing, and leave the decoder in the complete frame; the end delimiter then leaves
it waiting for a marker with an empty buffer. -/
def Obligations.WireRoundTrip : Prop :=
  ∀ (c : Chan) (f : Frame) (s : State) (y : List (Byte × Nat)) (now t1 t2 : Nat),
    s.active c = true → (s.ch c).hs = .frameModeActive → (s.ch c).dec = .awaitMarker →
    Memory.wf (s.ch c).buf = true → f.data.length ≤ 255 → 6 + f.data.length ≤ s.cfg.bufCap →
    y.map (·.1) ++ [0x10#8, 0x03#8] = encodeFrame f.src f.dst f.fid f.ctl f.data →
    y.getLast?.map (·.2) = some now →
    ∃ u evs,
      dispatch c f now (withBuffer c (frameBytes f.src f.dst f.fid f.ctl f.data) now s) = .next u
      ∧ rxAll c y s = .next u
      ∧ complete u c = true
      ∧ u.events = s.events ++ evs ∧ (∀ d k, Event.report d k ∉ evs)
      ∧ rxAll c (y ++ [(0x10#8, t1), (0x03#8, t2)]) s
          = .next (u.setCh c { u.ch c with tRx := t2, dec := .awaitMarker, esc := false, n := 0 })

/-- R208: from any decoder state of a channel in frame mode, `10 03` followed by `10 02` opens a fresh frame. -/
def Obligations.ResyncLiveness : Prop :=
  ∀ (c : Chan) (s : State) (t1 t2 t3 t4 : Nat), s.active c = true → (s.ch c).hs = .frameModeActive →
    ∃ t, rxAll c [(0x10#8, t1), (0x03#8, t2), (0x10#8, t3), (0x02#8, t4)] s = .next t
      ∧ (t.ch c).hs = .frameModeActive ∧ (t.ch c).dec = .inFrame ∧ (t.ch c).n = 0 ∧ (t.ch c).esc = false

/-! ### Dispatcher -/

/-- R230, R114, R236: dispatching a frame runs the instruction the frame decodes to, after the idle timestamp was
refreshed for the intake-activation codes under the application frame-id, whatever then becomes of the frame. -/
def Obligations.DispatchRunsDecodedFrame : Prop :=
  ∀ (c : Chan) (f : Frame) (now : Nat) (s : State), ∃ t, dispatch c f now s = .next t
    ∧ exec (decodeFrame (s.ctx c) c f now)
        (if f.fid = s.cfg.fidApp ∧ f.fid ≠ s.cfg.fidHs ∧ (f.dst = 0x00#8 ∨ f.dst = (s.ch c).addr)
            ∧ s.cfg.isIntakeActCode f.ctl = true
          then s.setCh c { s.ch c with tIdle := now } else s) = .next t
    ∧ (t.ch c).tIdle = (if f.fid = s.cfg.fidApp ∧ f.fid ≠ s.cfg.fidHs ∧ (f.dst = 0x00#8 ∨ f.dst = (s.ch c).addr)
            ∧ s.cfg.isIntakeActCode f.ctl = true then now else (s.ch c).tIdle)
    ∧ OtherKept c s t

/-- R233: an unlocked channel adopts, locks and saves a destination other than 0x00 and 0xFF; the source is remembered;
`Down` becomes `Connecting`; the acknowledge is sent in every case, from the address in force after the adoption. -/
def Obligations.HandshakeFrame : Prop :=
  ∀ (h : Hdr) (data : List Byte) (s : State), ∃ t, exec (.frmHs h data) s = .next t
    ∧ (if (s.ch h.c).locked = false ∧ h.dst ≠ 0x00#8 ∧ h.dst ≠ 0xFF#8 then
        t.ch h.c = { s.ch h.c with
            addr := h.dst, locked := true, peer := h.src
            link := if (s.ch h.c).link = .down then .connecting else (s.ch h.c).link
            tReply := h.now }
        ∧ Emits s t [.persist (.saveAddress h.c h.dst),
            .tx h.c (encodeFrame h.dst h.src s.cfg.fidHs s.cfg.ccHandshake [0x06#8])]
      else
        t.ch h.c = { s.ch h.c with
            peer := h.src
            link := if (s.ch h.c).link = .down then .connecting else (s.ch h.c).link
            tReply := h.now }
        ∧ Emits s t [.tx h.c (encodeFrame (s.ch h.c).addr h.src s.cfg.fidHs s.cfg.ccHandshake [0x06#8])])
    ∧ OtherKept h.c s t ∧ SharedKept s t ∧ BytesKept s t

/-- R237, R238: the two fixed replies, and `link` forced to `Up`; the identity is the channel's own bytes below
`id_len`, or none where the configuration says so. -/
def Obligations.FixedReplies : Prop :=
  ∀ (h : Hdr) (data : List Byte) (s : State),
    (∃ t, exec (.frmFwId h data) s = .next t
      ∧ t.ch h.c = { s.ch h.c with link := .up, tReply := h.now }
      ∧ Emits s t [.tx h.c (encodeFrame (s.ch h.c).addr h.src s.cfg.fidApp s.cfg.ccFwId s.cfg.fwString)]
      ∧ OtherKept h.c s t ∧ SharedKept s t ∧ BytesKept s t)
    ∧ (∃ t d, exec (.frmIdRead h data) s = .next t
      ∧ (if s.cfg.reportNoIdentity = true then d = []
         else d.length = (s.ch h.c).idLen
          ∧ ∀ k, k < (s.ch h.c).idLen → d.getD k 0 = Memory.read (s.ch h.c).identity k)
      ∧ t.ch h.c = { s.ch h.c with link := .up, tReply := h.now }
      ∧ Emits s t [.tx h.c (encodeFrame (s.ch h.c).addr h.src s.cfg.fidApp s.cfg.ccRIdentity d)]
      ∧ OtherKept h.c s t ∧ SharedKept s t ∧ BytesKept s t)

/-- R281: an identity write stores the first 64 data bytes from index 0, sets the length to their count, saves them at
once and acknowledges; every other byte of both memories reads as before, and the configuration is not marked dirty. -/
def Obligations.IdentityWrite : Prop :=
  ∀ (h : Hdr) (data : List Byte) (s : State), Memory.wf (s.ch h.c).identity = true →
    ∃ t, exec (.frmIdWrite h data) s = .next t
      ∧ t.ch h.c = { s.ch h.c with
          identity := (t.ch h.c).identity, idLen := min data.length 64, tReply := h.now }
      ∧ (∀ a, Memory.read (t.ch h.c).identity a
          = if a < min data.length 64 then data.getD a 0 else Memory.read (s.ch h.c).identity a)
      ∧ Memory.wf (t.ch h.c).identity = true
      ∧ Emits s t [.persist (.saveIdentity h.c (data.take 64)), replyEvent h [0x06#8] s]
      ∧ OtherKept h.c s t ∧ SharedKept s t

/-- R283: a no-op code is acknowledged and changes nothing but `t_reply`. -/
def Obligations.FirmwareNoOp : Prop :=
  ∀ (h : Hdr) (data : List Byte) (s : State),
    ∃ t, exec (.frmFwNop h data) s = .next t ∧ OnlyReplied h [0x06#8] s t

/-! ### Write handler -/

/-- R263, R264, R271, R272: a bounded write stores the value or the upper bound, whichever is less. -/
def Obligations.BoundedWrites : Prop :=
  ∀ (h : Hdr) (idx extra : List Byte) (b : Byte) (v : Word16) (s : State),
    (∃ t, exec (.wSuctionLevel h idx b extra) s = .next t ∧ WriteCommitted h s t
      ∧ t.ds = { s.ds with suctionLevel := if b.toNat ≤ 3 then b else 3#8 })
    ∧ (∃ t, exec (.wSelectFlow h idx v extra) s = .next t ∧ WriteCommitted h s t
      ∧ t.ds = { s.ds with selectFlow := if v.toNat ≤ 1000 then v else 1000#16 })
    ∧ (∃ t, exec (.wFilterStatus h idx v extra) s = .next t ∧ WriteCommitted h s t
      ∧ t.ds = { s.ds with filterLife := if v.toNat ≤ 1000 then v else 1000#16 })
    ∧ (∃ t, exec (.wFilterSat h idx v extra) s = .next t ∧ WriteCommitted h s t
      ∧ t.ds = { s.ds with filterSat := if v.toNat ≤ 1000 then v else 1000#16 })

/-- R266, R269, R273, R274, R275: a flag write stores whether the byte is nonzero and drives no relay. -/
def Obligations.FlagWrites : Prop :=
  ∀ (h : Hdr) (idx extra : List Byte) (b : Byte) (s : State),
    (∃ t, exec (.wStandAct h idx b extra) s = .next t ∧ WriteCommitted h s t
      ∧ t.ds = { s.ds with standAct := b != 0#8 })
    ∧ (∃ t, exec (.wPedalAct h idx b extra) s = .next t ∧ WriteCommitted h s t
      ∧ t.ds = { s.ds with pedalAct := b != 0#8 })
    ∧ (∃ t, exec (.wConnectedPedal h idx b extra) s = .next t ∧ WriteCommitted h s t
      ∧ t.ds = { s.ds with connectedPedal := b != 0#8 })
    ∧ (∃ t, exec (.wContSuction h idx b extra) s = .next t ∧ WriteCommitted h s t
      ∧ t.ds = { s.ds with contSuction := b != 0#8 })
    ∧ (∃ t, exec (.wUsbConnect h idx b extra) s = .next t ∧ WriteCommitted h s t
      ∧ t.ds = { s.ds with usbConnect := b != 0#8 })

/-- R267, R268, R270, R276: a delay is cut to `DELAY_MAX_S`, a plain value stored as received; a pending after-run
deadline is not moved. -/
def Obligations.DelayAndPlainWrites : Prop :=
  ∀ (h : Hdr) (idx extra : List Byte) (b : Byte) (v : Word16) (s : State),
    (∃ t, exec (.wWorkDelay h idx v extra) s = .next t ∧ WriteCommitted h s t
      ∧ t.ds = { s.ds with workDelayS := if v.toNat ≤ s.cfg.delayMaxS then v else BitVec.ofNat 16 s.cfg.delayMaxS })
    ∧ (∃ t, exec (.wStandDelay h idx v extra) s = .next t ∧ WriteCommitted h s t
      ∧ t.ds = { s.ds with standDelayS := if v.toNat ≤ s.cfg.delayMaxS then v else BitVec.ofNat 16 s.cfg.delayMaxS })
    ∧ (∃ t, exec (.wPedalMode h idx b extra) s = .next t ∧ WriteCommitted h s t
      ∧ t.ds = { s.ds with pedalMode := b })
    ∧ (∃ t, exec (.wStationError h idx v extra) s = .next t ∧ WriteCommitted h s t
      ∧ t.ds = { s.ds with stationError := v })

/-- R265, R341: a nonzero work-intake write stores the flag, sets the channel's work bit, cancels any after-run and
asserts the relay, all before the acknowledge; the relay event comes first, and only if the relay was off. -/
def Obligations.WorkOnWrite : Prop :=
  ∀ (h : Hdr) (idx extra : List Byte) (b : Byte) (s : State), b ≠ 0#8 →
    ∃ t, exec (.wWorkAct h idx b extra) s = .next t
      ∧ t.ds = { s.ds with workAct := true }
      ∧ t.rc = { workMask := s.rc.workMask ||| maskBit h.c, owner := none, deadline := none, relay := true }
      ∧ Emits s t ((if s.rc.relay = true then [] else [.relay true]) ++ [replyEvent h [0x06#8] s])
      ∧ t.ch h.c = { s.ch h.c with tReply := h.now }
      ∧ OtherKept h.c s t ∧ BytesKept s t ∧ t.cfgDirty = true ∧ t.tCfg = h.now ∧ EnvKept s t

/-- R265, R343: a zero work-intake write clears the flag and the channel's work bit; when that empties a non-empty mask
and no after-run is pending, the channel owns an after-run that ends one work delay later. The relay is not touched. -/
def Obligations.WorkOffWrite : Prop :=
  ∀ (h : Hdr) (idx extra : List Byte) (s : State),
    ∃ t, exec (.wWorkAct h idx 0#8 extra) s = .next t
      ∧ t.ds = { s.ds with workAct := false }
      ∧ t.rc = (if s.rc.workMask ≠ 0#2 ∧ s.rc.workMask &&& ~~~ maskBit h.c = 0#2 ∧ s.rc.deadline = none then
          { s.rc with workMask := 0#2, owner := some h.c, deadline := some (h.now + 1000 * s.ds.workDelayS.toNat) }
        else { s.rc with workMask := s.rc.workMask &&& ~~~ maskBit h.c })
      ∧ Emits s t [replyEvent h [0x06#8] s]
      ∧ t.ch h.c = { s.ch h.c with tReply := h.now }
      ∧ OtherKept h.c s t ∧ BytesKept s t ∧ t.cfgDirty = true ∧ t.tCfg = h.now ∧ EnvKept s t

/-! ### Read handler -/

/-- R301, R305, R306, R311, R312, R315, R316, R317: the one-byte reads reply the index bytes and the field, and change
nothing but `t_reply`; a flag reads back as 0 or 1. -/
def Obligations.ByteReads : Prop :=
  ∀ (h : Hdr) (idx extra : List Byte) (s : State),
    (∃ t, exec (.rSuctionLevel h idx extra) s = .next t ∧ OnlyReplied h (idx ++ [s.ds.suctionLevel]) s t)
    ∧ (∃ t, exec (.rPedalMode h idx extra) s = .next t ∧ OnlyReplied h (idx ++ [s.ds.pedalMode]) s t)
    ∧ (∃ t, exec (.rWorkAct h idx extra) s = .next t
      ∧ OnlyReplied h (idx ++ [if s.ds.workAct then 1#8 else 0#8]) s t)
    ∧ (∃ t, exec (.rStandAct h idx extra) s = .next t
      ∧ OnlyReplied h (idx ++ [if s.ds.standAct then 1#8 else 0#8]) s t)
    ∧ (∃ t, exec (.rPedalAct h idx extra) s = .next t
      ∧ OnlyReplied h (idx ++ [if s.ds.pedalAct then 1#8 else 0#8]) s t)
    ∧ (∃ t, exec (.rConnectedPedal h idx extra) s = .next t
      ∧ OnlyReplied h (idx ++ [if s.ds.connectedPedal then 1#8 else 0#8]) s t)
    ∧ (∃ t, exec (.rContSuction h idx extra) s = .next t
      ∧ OnlyReplied h (idx ++ [if s.ds.contSuction then 1#8 else 0#8]) s t)
    ∧ (∃ t, exec (.rUsbConnect h idx extra) s = .next t
      ∧ OnlyReplied h (idx ++ [if s.ds.usbConnect then 1#8 else 0#8]) s t)

/-- R302, R303, R304, R307, R308, R313, R314, R318: the 16-bit reads reply the index bytes and the field, low byte
first, and change nothing but `t_reply`. -/
def Obligations.WordReads : Prop :=
  ∀ (h : Hdr) (idx extra : List Byte) (s : State),
    (∃ t, exec (.rFlow h idx extra) s = .next t
      ∧ OnlyReplied h (idx ++ [s.ds.flow.extractLsb' 0 8, s.ds.flow.extractLsb' 8 8]) s t)
    ∧ (∃ t, exec (.rSpeed h idx extra) s = .next t
      ∧ OnlyReplied h (idx ++ [s.ds.speed.extractLsb' 0 8, s.ds.speed.extractLsb' 8 8]) s t)
    ∧ (∃ t, exec (.rSelectFlow h idx extra) s = .next t
      ∧ OnlyReplied h (idx ++ [s.ds.selectFlow.extractLsb' 0 8, s.ds.selectFlow.extractLsb' 8 8]) s t)
    ∧ (∃ t, exec (.rWorkDelay h idx extra) s = .next t
      ∧ OnlyReplied h (idx ++ [s.ds.workDelayS.extractLsb' 0 8, s.ds.workDelayS.extractLsb' 8 8]) s t)
    ∧ (∃ t, exec (.rStandDelay h idx extra) s = .next t
      ∧ OnlyReplied h (idx ++ [s.ds.standDelayS.extractLsb' 0 8, s.ds.standDelayS.extractLsb' 8 8]) s t)
    ∧ (∃ t, exec (.rFilterStatus h idx extra) s = .next t
      ∧ OnlyReplied h (idx ++ [s.ds.filterLife.extractLsb' 0 8, s.ds.filterLife.extractLsb' 8 8]) s t)
    ∧ (∃ t, exec (.rFilterSat h idx extra) s = .next t
      ∧ OnlyReplied h (idx ++ [s.ds.filterSat.extractLsb' 0 8, s.ds.filterSat.extractLsb' 8 8]) s t)
    ∧ (∃ t, exec (.rStationError h idx extra) s = .next t
      ∧ OnlyReplied h (idx ++ [s.ds.stationError.extractLsb' 0 8, s.ds.stationError.extractLsb' 8 8]) s t)

/-- R309, R310, R41: a derived delay reads as 1000 times the seconds up to 65 s, and as 65535 above. -/
def Obligations.DerivedReadsSaturate : Prop :=
  ∀ (h : Hdr) (idx extra : List Byte) (s : State),
    (∃ t, exec (.rWorkAfterrunMs h idx extra) s = .next t
      ∧ OnlyReplied h (idx ++
          (if s.ds.workDelayS.toNat ≤ 65 then
            [(1000#16 * s.ds.workDelayS).extractLsb' 0 8, (1000#16 * s.ds.workDelayS).extractLsb' 8 8]
          else [0xFF#8, 0xFF#8])) s t)
    ∧ (∃ t, exec (.rStandAfterrunMs h idx extra) s = .next t
      ∧ OnlyReplied h (idx ++
          (if s.ds.standDelayS.toNat ≤ 65 then
            [(1000#16 * s.ds.standDelayS).extractLsb' 0 8, (1000#16 * s.ds.standDelayS).extractLsb' 8 8]
          else [0xFF#8, 0xFF#8])) s t)

/-- R319: a read dispatched after a recognised write to the same field, on either channel, replies the stored value. -/
def Obligations.ReadAfterWrite : Prop :=
  ∀ (n : WName) (h h' : Hdr) (idx idx' extra extra' : List Byte) (v : Nat) (s : State), v < 256 ^ n.vw →
    ∃ t u, exec (n.instr h idx v extra) s = .next t
      ∧ exec (n.readBack.instr h' idx' extra') t = .next u
      ∧ Emits t u [.tx h'.c (encodeFrame (t.ch h'.c).addr h'.src h'.fid h'.ctl
          (idx' ++ valueBytes n.vw (n.stored s.cfg.delayMaxS v)))]

/-! ### Relay coordinator -/

/-- R342 with R345 to R347: the four exclusive arms of the periodic evaluation. -/
def Obligations.RelayEvaluation : Prop :=
  ∀ (now : Nat) (s : State),
    (s.ds.contSuction = true ∨ s.rc.workMask ≠ 0#2 →
      (relayEval now s).rc = { s.rc with owner := none, deadline := none, relay := true }
      ∧ Emits s (relayEval now s) (if s.rc.relay = true then [] else [.relay true]))
    ∧ (∀ d, s.ds.contSuction = false → s.rc.workMask = 0#2 → s.rc.deadline = some d →
      (d ≤ now → (relayEval now s).rc = { s.rc with owner := none, deadline := none, relay := false }
        ∧ Emits s (relayEval now s) (if s.rc.relay = true then [.relay false] else []))
      ∧ (now < d → relayEval now s = s))
    ∧ (s.ds.contSuction = false → s.rc.workMask = 0#2 → s.rc.deadline = none →
      (relayEval now s).rc = { s.rc with relay := false }
      ∧ Emits s (relayEval now s) (if s.rc.relay = true then [.relay false] else []))
    ∧ (∀ c, (relayEval now s).ch c = s.ch c) ∧ (relayEval now s).ds = s.ds
    ∧ (relayEval now s).cfgDirty = s.cfgDirty ∧ (relayEval now s).tCfg = s.tCfg ∧ EnvKept s (relayEval now s)

/-- R349 (iv), (v): after an evaluation the relay is on under continuous suction, with no after-run pending, and
otherwise exactly while a channel works or an after-run is pending. -/
def Obligations.RelayFollowsDemand : Prop :=
  ∀ (now : Nat) (s : State), RelayInv s.rc →
    (s.ds.contSuction = true →
      (relayEval now s).rc.relay = true ∧ (relayEval now s).rc.deadline = none)
    ∧ (s.ds.contSuction = false →
      ((relayEval now s).rc.relay = true ↔
        (relayEval now s).rc.workMask ≠ 0#2 ∨ (relayEval now s).rc.deadline ≠ none))

/-- R349: with no channel working, no continuous suction and every pending deadline passed, a `POLL` leaves the relay
off and, among the events this step emits, has the relay's change exactly if it was on. -/
def Obligations.PollTurnsRelayOff : Prop :=
  ∀ (now : Nat) (s : State), s.ds.contSuction = false → s.rc.workMask = 0#2 →
    (∀ d, s.rc.deadline = some d → d ≤ now) →
    ∃ t evs, exec (.poll now) s = .next t
      ∧ t.rc = { workMask := 0#2, owner := t.rc.owner, deadline := none, relay := false }
      ∧ t.events = s.events ++ evs
      ∧ (Event.relay false ∈ evs ↔ s.rc.relay = true)

/-- R348: the retraction clears the channel's work bit and, if the channel owns the after-run, the after-run; the relay
and every other register stay. -/
def Obligations.RetractEffect : Prop :=
  ∀ (c : Chan) (s : State),
    (retract c s).rc = { s.rc with
        workMask := s.rc.workMask &&& ~~~ maskBit c
        owner := if s.rc.owner = some c then none else s.rc.owner
        deadline := if s.rc.owner = some c then none else s.rc.deadline }
    ∧ Emits s (retract c s) [] ∧ (∀ d, (retract c s).ch d = s.ch d) ∧ (retract c s).ds = s.ds
    ∧ (retract c s).cfgDirty = s.cfgDirty ∧ (retract c s).tCfg = s.tCfg ∧ EnvKept s (retract c s)

/-! ### POLL, the operator operations, RESET -/

/-- R360: what a `POLL` emits, in order: a held-back SYN of each active channel, the relay's change, the due save. The
premise on the sequencer holds between steps (R179). -/
def Obligations.PollEmitsInOrder : Prop :=
  ∀ (now : Nat) (s : State), (∀ c, (s.ch c).hs ≠ .gotAck1 ∧ (s.ch c).hs ≠ .gotSoh) →
    ∃ t, exec (.poll now) s = .next t
      ∧ Emits s t
        ((if s.active .c0 = true ∧ s.ch0.hs = .seenNak ∧ (s.ch0.synValid = false ∨ s.ch0.tSyn + 1500 ≤ now) then
            [.tx .c0 [s.cfg.bSyn]] else [])
        ++ (if s.active .c1 = true ∧ s.ch1.hs = .seenNak ∧ (s.ch1.synValid = false ∨ s.ch1.tSyn + 1500 ≤ now) then
            [.tx .c1 [s.cfg.bSyn]] else [])
        ++ (if s.ds.contSuction = true ∨ s.rc.workMask ≠ 0#2 then (if s.rc.relay = true then [] else [.relay true])
            else match s.rc.deadline with
              | some d => if d ≤ now ∧ s.rc.relay = true then [.relay false] else []
              | none => if s.rc.relay = true then [.relay false] else [])
        ++ (if s.cfgDirty = true ∧ s.cfg.tDebounce ≤ now - s.tCfg then [.persist .saveConfig] else []))

/-- R365, R366, R361: the registers a `POLL` leaves. The dirty bit is cleared by a due save only; an active channel
silent for `T_INACT` is reset (R56), another keeps all but what a SYN writes; an inactive one keeps everything. -/
def Obligations.PollRegisters : Prop :=
  ∀ (now : Nat) (s : State), (∀ c, (s.ch c).hs ≠ .gotAck1 ∧ (s.ch c).hs ≠ .gotSoh) →
    ∃ t, exec (.poll now) s = .next t
      ∧ t.cfgDirty = (if s.cfgDirty = true ∧ s.cfg.tDebounce ≤ now - s.tCfg then false else s.cfgDirty)
      ∧ t.tCfg = s.tCfg ∧ t.ds = s.ds ∧ EnvKept s t ∧ BytesKept s t
      ∧ ∀ c, ∃ x : Channel,
          (if s.active c = true ∧ (s.ch c).hs = .seenNak ∧ ((s.ch c).synValid = false ∨ (s.ch c).tSyn + 1500 ≤ now) then
            x = { s.ch c with tSyn := now, synValid := true, hs := .sentSyn } else x = s.ch c)
          ∧ (if s.active c = true ∧ s.cfg.tInact ≤ now - (s.ch c).tRx then
            t.ch c = { x with hs := .idle, dec := .awaitMarker, esc := false, n := 0, link := .down, locked := false }
            else t.ch c = x)

/-- R366, R348: the relay state a `POLL` leaves is the evaluation's, less the work bit and the after-run of every active
channel that fell silent; without an owner the evaluation's owner and deadline stay. -/
def Obligations.PollRetractsSilent : Prop :=
  ∀ (now : Nat) (s : State), ∃ t, exec (.poll now) s = .next t
    ∧ t.rc.relay = (relayEval now s).rc.relay
    ∧ (∀ c, t.rc.workMask &&& maskBit c =
        if s.active c = true ∧ s.cfg.tInact ≤ now - (s.ch c).tRx then 0#2 else s.rc.workMask &&& maskBit c)
    ∧ (∀ c, (relayEval now s).rc.owner = some c →
        if s.active c = true ∧ s.cfg.tInact ≤ now - (s.ch c).tRx then t.rc.owner = none ∧ t.rc.deadline = none
        else t.rc.owner = some c ∧ t.rc.deadline = (relayEval now s).rc.deadline)
    ∧ ((relayEval now s).rc.owner = none →
        t.rc.owner = none ∧ t.rc.deadline = (relayEval now s).rc.deadline)

/-- R373, R260: an operator write on an active channel performs the selected write without reply, channel timestamp or
event of its own: a table write stores, drives the relay for the work intake and marks the configuration dirty; the
identity code replaces and saves the identity; a no-op, unknown or short code does nothing. That a write on an inactive
channel changes nothing is the model's choice, the rule asking for an active one (log entry 7). -/
def Obligations.OperatorWrite : Prop :=
  ∀ (c : Chan) (ctl : Byte) (data : List Byte) (now : Nat) (s : State),
    (s.active c = false → exec (.adminWrite c ctl data now) s = .next s)
    ∧ (s.active c = true → ∃ t, exec (.adminWrite c ctl data now) s = .next t ∧
      match selectWrite s.cfg ctl data.length with
      | some (.entry n k) =>
        t = markConfigDirty now
          (if n = .workAct then relayDrive c now (storeDevice n (valueAt n.vw k data) s)
            else storeDevice n (valueAt n.vw k data) s)
        ∧ (∀ d, t.ch d = s.ch d) ∧ t.cfgDirty = true ∧ t.tCfg = now ∧ EnvKept s t
        ∧ (n ≠ .workAct → t.rc = s.rc ∧ Emits s t [])
      | some .identity =>
        (t.ch c).idLen = min data.length 64 ∧ Emits s t [.persist (.saveIdentity c (data.take 64))]
        ∧ t.ch c = { s.ch c with identity := (t.ch c).identity, idLen := (t.ch c).idLen }
        ∧ (Memory.wf (s.ch c).identity = true → ∀ a, Memory.read (t.ch c).identity a
            = if a < min data.length 64 then data.getD a 0 else Memory.read (s.ch c).identity a)
        ∧ OtherKept c s t ∧ SharedKept s t
      | some .fwNop => t = s
      | none => t = s)

/-- R371: forcing the error mask stores the value and marks the configuration dirty, and equals the operator's write of
the station-error code on an active channel. -/
def Obligations.ForceErrorMask : Prop :=
  ∀ (v : Word16) (now : Nat) (s : State),
    (∃ t, exec (.adminForceErrorMask v now) s = .next t
      ∧ t.ds = { s.ds with stationError := v } ∧ t.cfgDirty = true ∧ t.tCfg = now ∧ t.rc = s.rc
      ∧ (∀ d, t.ch d = s.ch d) ∧ EnvKept s t ∧ Emits s t [])
    ∧ (∀ (c : Chan) (ctl : Byte) (row : CcRow), s.cfg.wf = true → s.active c = true → row ∈ s.cfg.ccTable →
        row.entry = .w .stationError → row.code = ctl →
        ∀ idx : List Byte, idx.length = row.idxN →
          exec (.adminWrite c ctl (idx ++ [v.extractLsb' 0 8, v.extractLsb' 8 8]) now) s
            = exec (.adminForceErrorMask v now) s)

/-- R372: setting the active count resets and retracts the channels it disables, restarts the inactivity window of those
it enables, emits nothing, and changes nothing else; a count other than 1 and 2 changes nothing. -/
def Obligations.SetActiveCount : Prop :=
  ∀ (k now : Nat) (s : State), s.nActive = 1 ∨ s.nActive = 2 →
    ∃ t, exec (.adminSetActiveCount k now) s = .next t ∧
      if k = 1 ∨ k = 2 then
        t.nActive = k ∧ t.ch0 = s.ch0 ∧ t.ds = s.ds ∧ t.cfg = s.cfg ∧ t.clock = s.clock ∧ t.inputs = s.inputs
        ∧ t.cfgDirty = s.cfgDirty ∧ t.tCfg = s.tCfg ∧ Emits s t []
        ∧ t.ch1 = (if k < s.nActive then
            { s.ch1 with hs := .idle, dec := .awaitMarker, esc := false, n := 0, link := .down, locked := false }
          else if s.nActive < k then { s.ch1 with tRx := now } else s.ch1)
        ∧ t.rc = (if k < s.nActive then (retract .c1 s).rc else s.rc)
      else t = s

/-- R374, R375: telemetry stores one field and marks nothing; wiping the persistence store changes no register. -/
def Obligations.TelemetryAndWipe : Prop :=
  ∀ (v : Word16) (now : Nat) (s : State),
    exec (.adminSetTelemetry .flow v now) s = .next { s with ds := { s.ds with flow := v } }
    ∧ exec (.adminSetTelemetry .speed v now) s = .next { s with ds := { s.ds with speed := v } }
    ∧ exec (.adminWipePersistence now) s = .next s

/-- R54, R420: every register `RESET` gives a value holds it afterwards, whatever the state before; later times may not
lie before `t0`; no event is emitted. The registers the rule leaves unspecified are not mentioned. -/
def Obligations.ResetValues : Prop :=
  ∀ (t0 : Nat) (s : State), ∃ t, exec (.reset t0) s = .next t
    ∧ t.nActive = s.cfg.nActiveInit
    ∧ t.ch0.addr = s.cfg.addrInit0 ∧ t.ch1.addr = s.cfg.addrInit1
    ∧ (∀ c, (t.ch c).atRest ∧ (t.ch c).peer = 0x00#8 ∧ (t.ch c).tRx = t0 ∧ (t.ch c).tReply = t0
        ∧ (t.ch c).tIdle = t0 ∧ (t.ch c).synValid = false)
    ∧ identityBytes t .c0 = s.cfg.identityInit0 ∧ t.ch0.idLen = s.cfg.identityInit0.length
    ∧ identityBytes t .c1 = s.cfg.identityInit1 ∧ t.ch1.idLen = s.cfg.identityInit1.length
    ∧ t.ds = s.cfg.dsInit
    ∧ t.rc = { workMask := 0#2, owner := none, deadline := none, relay := false }
    ∧ t.cfgDirty = false
    ∧ t.clock = t0 ∧ t.cfg = s.cfg ∧ t.inputs = s.inputs ∧ Emits s t []

/-- R422, R390: the configuration the persistence loads leave. A loaded address counts if it is legal, a loaded identity
is cut to 64 bytes, a loaded Device State is clamped field by field, what was not loaded stays at the built-in default,
and no other parameter changes. So a well-formed configuration stays well-formed whatever is loaded. -/
def Obligations.LoadsKeepConfiguration : Prop :=
  ∀ (cfg : Cfg) (l : Loads),
    (cfg.wf = true → (withLoads cfg l).wf = true)
    ∧ (withLoads cfg l).addrInit0 = (match l.addr0 with
        | some a => if a = 0x00#8 ∨ a = 0xFF#8 then cfg.addrInit0 else a
        | none => cfg.addrInit0)
    ∧ (withLoads cfg l).addrInit1 = (match l.addr1 with
        | some a => if a = 0x00#8 ∨ a = 0xFF#8 then cfg.addrInit1 else a
        | none => cfg.addrInit1)
    ∧ (withLoads cfg l).identityInit0 = (match l.identity0 with
        | some x => x.take 64
        | none => cfg.identityInit0)
    ∧ (withLoads cfg l).identityInit1 = (match l.identity1 with
        | some x => x.take 64
        | none => cfg.identityInit1)
    ∧ (withLoads cfg l).dsInit = (match l.config with
        | some d => { d with
            suctionLevel := if d.suctionLevel.toNat ≤ 3 then d.suctionLevel else 3#8
            selectFlow := if d.selectFlow.toNat ≤ 1000 then d.selectFlow else 1000#16
            workDelayS := if d.workDelayS.toNat ≤ cfg.delayMaxS then d.workDelayS else BitVec.ofNat 16 cfg.delayMaxS
            standDelayS := if d.standDelayS.toNat ≤ cfg.delayMaxS then d.standDelayS else BitVec.ofNat 16 cfg.delayMaxS
            filterLife := if d.filterLife.toNat ≤ 1000 then d.filterLife else 1000#16
            filterSat := if d.filterSat.toNat ≤ 1000 then d.filterSat else 1000#16 }
        | none => cfg.dsInit)
    ∧ withLoads cfg l = { cfg with
        addrInit0 := (withLoads cfg l).addrInit0, addrInit1 := (withLoads cfg l).addrInit1
        identityInit0 := (withLoads cfg l).identityInit0, identityInit1 := (withLoads cfg l).identityInit1
        dsInit := (withLoads cfg l).dsInit }

/-! ### The receiver -/

/-- R142: a byte on an inactive channel is discarded: no register changes, no event. -/
def Obligations.InactiveChannelDiscards : Prop :=
  ∀ (c : Chan) (b : Byte) (now : Nat) (s : State), s.nActive ≤ c.idx → exec (.rx c b now) s = .next s

/-- R141, R33: on an active channel an `RX` step writes `t_rx` and runs the instruction the byte decodes to: in frame
mode that and nothing more, before it that and then the transition without input the sequencer waits for, if any. -/
def Obligations.RxRunsDecodedByte : Prop :=
  ∀ (c : Chan) (b : Byte) (now : Nat) (s : State), s.active c = true →
    ∃ u t, exec (decodeByte (s.ctx c) c b now) (s.setCh c { s.ch c with tRx := now }) = .next u
      ∧ exec (.rx c b now) s = .next t
      ∧ (t.ch c).tRx = now ∧ OtherKept c s t ∧ EnvKept s t
      ∧ (if (s.ch c).hs = .frameModeActive then t = u
         else match decodeSpontaneous (u.ch c).hs c now with
          | some i => exec i u = .next t
          | none => t = u)

/-- R143, R144, R77: from an idle line the bit-level receiver, at three or more samples a bit, delivers exactly the byte
of a character whose stop bit is high, nothing when the stop bit is low, and is idle again. That one sample is one clock
of the synchroniser, and half a bit `OSR / 2` samples, is the model's choice (log entry 5). -/
def Obligations.UartDeliversCharacter : Prop :=
  ∀ (osr : Nat) (b : Byte) (u : Uart), 3 ≤ osr → u.phase = .idle → u.sync1 = true → u.sync2 = true →
    (uartRun osr (charLevels osr b true) u).2 = [b]
    ∧ (uartRun osr (charLevels osr b true) u).1.phase = .idle
    ∧ (uartRun osr (charLevels osr b true) u).1.sync1 = true
    ∧ (uartRun osr (charLevels osr b true) u).1.sync2 = true
    ∧ (uartRun osr (charLevels osr b false) u).2 = []
    ∧ (uartRun osr (charLevels osr b false) u).1.phase = .idle

/-! ### The whole machine -/

/-- The state after reset meets the invariant. The configuration it carries is the model's choice (log entry 1). -/
def Obligations.InvariantAtReset : Prop := Inv State.reset

/-- R32, R50, R349, R35: every step keeps the invariant. -/
def Obligations.StepKeepsInvariant : Prop := ∀ s t : State, Inv s → step s = .next t → Inv t

/-- R6, R7: a step takes the oldest input, sets the clock to its time and runs the instruction the input decodes to; a
line sample that completes a character runs as an `RX`. With no input pending it changes nothing (log entry 2). -/
def Obligations.StepRunsDecodedInput : Prop :=
  ∀ (s : State),
    (s.inputs = [] → step s = .next s)
    ∧ (∀ x rest i, s.inputs = x :: rest → timeOk s.clock x = true → decodeInput x = some i →
        step s = exec i { s with inputs := rest, clock := (inputTime x).getD s.clock })
    ∧ (∀ c l now rest, s.inputs = .line c l now :: rest → s.clock ≤ now →
        let u := uartTick s.cfg.osr l (s.ch c).uart
        let s1 := State.setCh { s with inputs := rest, clock := now } c { s.ch c with uart := u.1 }
        step s = match u.2 with
          | some b => exec (.rx c b now) s1
          | none => .next s1)

/-- R116, R145, R7: nothing stops the machine: a step is refused when its input's time runs backwards, and otherwise
answers a next state under the same configuration. R7 says only that `now` never decreases: that an input which breaks
this is refused, and that `RESET`, which carries no `now`, is exempt, is the model's reading, DEDUCED (log entry 8); that
a step without input answers the unchanged state is its choice (log entry 2). -/
def Obligations.OnlyTimeIsRefused : Prop :=
  ∀ s : State,
    (∀ x rest now, s.inputs = x :: rest → inputTime x = some now → now < s.clock →
      step s = .refused .timeBackwards)
    ∧ ((∀ x rest now, s.inputs = x :: rest → inputTime x = some now → s.clock ≤ now) →
      ∃ t, step s = .next t ∧ t.cfg = s.cfg ∧ t.inputs = s.inputs.tail)

/-- R165, R33, R400: a step takes a channel out of frame mode only by `RESET`, by a `POLL` that finds it silent for
`T_INACT`, or by the operator disabling it. -/
def Obligations.FrameModeIsTerminal : Prop :=
  ∀ (s t : State) (c : Chan), step s = .next t →
    (s.ch c).hs = .frameModeActive → (t.ch c).hs ≠ .frameModeActive →
    ∃ rest, (∃ t0, s.inputs = .reset t0 :: rest)
      ∨ (∃ now, s.inputs = .poll now :: rest ∧ s.active c = true ∧ s.cfg.tInact ≤ now - (s.ch c).tRx)
      ∨ (∃ k now, s.inputs = .admin (.setActiveCount k) now :: rest ∧ k ≤ c.idx ∧ s.active c = true)

/-- R21, R22, R376: a step other than `RESET` changes a channel's address only by adopting one on an unlocked channel
from a byte received on that channel (an `RX`, or the line sample that completes a character), and then the new address
is legal, locked, and saved by an event of the same step. -/
def Obligations.AddressOnlyAdopted : Prop :=
  ∀ (s t : State) (c : Chan), step s = .next t → (∀ t0 rest, s.inputs ≠ .reset t0 :: rest) →
    (t.ch c).addr ≠ (s.ch c).addr →
    (s.ch c).locked = false ∧ (t.ch c).locked = true ∧ legalAddr (t.ch c).addr = true
    ∧ (s.ch c).hs = .frameModeActive ∧ s.active c = true
    ∧ (∃ evs, t.events = s.events ++ evs ∧ Event.persist (.saveAddress c (t.ch c).addr) ∈ evs)
    ∧ ∃ rest b now, s.inputs = .rx c b now :: rest
      ∨ ∃ l, s.inputs = .line c l now :: rest ∧ (uartTick s.cfg.osr l (s.ch c).uart).2 = some b

/-- R146, R407: a byte on one channel never changes the other channel's record, nor the active count or the
configuration; it reaches `ds`, `rc` and the dirty bit only in frame mode, inside a frame with a header buffered. -/
def Obligations.ChannelIsolation : Prop :=
  ∀ (c d : Chan) (b : Byte) (now : Nat) (s t : State), exec (.rx c b now) s = .next t →
    (d ≠ c → t.ch d = s.ch d)
    ∧ EnvKept s t
    ∧ (s.active c = false ∨ (s.ch c).hs ≠ .frameModeActive → SharedKept s t)
    ∧ (s.ds = t.ds ∧ s.rc = t.rc ∧ s.cfgDirty = t.cfgDirty ∧ s.tCfg = t.tCfg
      ∨ (s.ch c).dec = .inFrame ∧ 5 ≤ (s.ch c).n)

/-- R387, R241: one `RX` step reports at most one condition and transmits at most once, never both, and only on its own
channel. -/
def Obligations.OneReportOrReply : Prop :=
  ∀ (c : Chan) (b : Byte) (now : Nat) (s t : State) (evs : List Event),
    exec (.rx c b now) s = .next t → t.events = s.events ++ evs →
    evs.countP (fun e => match e with
      | .tx _ _ => true
      | .report _ _ => true
      | .persist _ => false
      | .relay _ => false) ≤ 1
    ∧ (∀ d x, Event.tx d x ∈ evs → d = c) ∧ (∀ d k, Event.report d k ∈ evs → d = c)

/-- R350, R406, R23: what the status collaborator reads: the after-run remaining time is the distance to a pending deadline
that lies ahead, else 0; the rest are the registers. -/
def Obligations.StatusReads : Prop :=
  ∀ (s : State) (now : Nat),
    (∀ d, s.rc.deadline = some d → now < d → now + (status s now).afterRun = d)
    ∧ (∀ d, s.rc.deadline = some d → d ≤ now → (status s now).afterRun = 0)
    ∧ (s.rc.deadline = none → (status s now).afterRun = 0)
    ∧ (status s now).relay = s.rc.relay ∧ (status s now).errorMask = s.ds.stationError
    ∧ (status s now).channels = [⟨s.ch0.link, s.ch0.tIdle, s.ch0.peer⟩, ⟨s.ch1.link, s.ch1.tIdle, s.ch1.peer⟩]
end

