-- ==== Sys2Proof/Laws/Framer.lean ====
section
/-! SUPPORT. The Framer's small lemmas: the checksum as a plain XOR, the length byte, the length of a frame, stuffing one byte. -/

namespace Sys2Proof

/-- The seed may be taken out of the sum (R150). -/
theorem checksum_eq_xorBytes (s : List Byte) : checksum s = ckSeed ^^^ xorBytes s := by
  unfold checksum xorBytes
  generalize ckSeed = k
  suffices h : ∀ a : Byte, s.foldl (fun acc b => acc ^^^ b) (k ^^^ a) = k ^^^ s.foldl (fun acc b => acc ^^^ b) a by
    simpa using h 0#8
  induction s with
  | nil => exact fun _ => rfl
  | cons b rest ih => intro a; simpa [BitVec.xor_assoc] using ih (a ^^^ b)

@[simp] theorem checksum_nil : checksum [] = ckSeed := rfl

@[simp] theorem xorBytes_nil : xorBytes [] = 0#8 := rfl

theorem xorBytes_snoc (s : List Byte) (b : Byte) : xorBytes (s ++ [b]) = xorBytes s ^^^ b := by
  simp [xorBytes]

/-- The length byte is the count wherever the format defines one (R104). -/
theorem lengthByte_fits (n : Nat) (h : n ≤ 255) : lengthByte n = BitVec.ofNat 8 n := if_pos h

theorem lengthByte_toNat (n : Nat) (h : n ≤ 255) : (lengthByte n).toNat = n := by
  rw [lengthByte_fits n h, BitVec.toNat_ofNat, Nat.mod_eq_of_lt (by omega)]

/-- A frame with its checksum is six bytes longer than its data (R104). -/
theorem frameBytes_length (src dst fid ctl : Byte) (data : List Byte) :
    (frameBytes src dst fid ctl data).length = 6 + data.length := by
  simp [frameBytes, frameBody]; omega

@[simp] theorem stuff_nil : stuff [] = [] := rfl

theorem stuff_marker (rest : List Byte) : stuff (markerByte :: rest) = markerByte :: markerByte :: stuff rest := by
  simp [stuff]

theorem stuff_other (b : Byte) (rest : List Byte) (h : b ≠ markerByte) : stuff (b :: rest) = b :: stuff rest := by
  simp [stuff, h]

end Sys2Proof
end

