-- ==== Sys2Proof/Laws/Memory.lean ====
section
/-! SUPPORT. The byte-addressed memories: every operation keeps the canonical form and stays inside the address space;
a read after a write. -/

namespace Sys2Proof.Machine

theorem Memory.wfFrom_mono {lo lo' : Nat} (h : lo' ≤ lo) : ∀ m : Memory, Memory.wfFrom lo m = true → Memory.wfFrom lo' m = true
  | [], _ => rfl
  | (k, v) :: rest, hm => by
    simp only [Memory.wfFrom, Bool.and_eq_true, decide_eq_true_eq] at hm ⊢
    exact ⟨⟨by omega, hm.1.2⟩, hm.2⟩

/-- Below its first possible address a canonical memory reads as unlisted. -/
theorem Memory.read_below : ∀ (m : Memory) (lo a : Nat), Memory.wfFrom lo m = true → a < lo → Memory.read m a = memDefault
  | [], _, _, _, _ => rfl
  | (k, v) :: rest, lo, a, hm, ha => by
    simp only [Memory.wfFrom, Bool.and_eq_true, decide_eq_true_eq] at hm
    have hk : k ≠ a := by omega
    simp only [Memory.read, hk, if_false]
    exact Memory.read_below rest (k + 1) a hm.2 (by omega)

/-- A write keeps the canonical form. -/
theorem Memory.wfFrom_write : ∀ (m : Memory) (lo a : Nat) (b : Byte), Memory.wfFrom lo m = true → lo ≤ a →
    Memory.wfFrom lo (Memory.write m a b) = true
  | [], lo, a, b, _, ha => by
    unfold Memory.write; split
    · rfl
    · simp_all [Memory.wfFrom]
  | (k, v) :: rest, lo, a, b, hm, ha => by
    simp only [Memory.wfFrom, Bool.and_eq_true, decide_eq_true_eq] at hm
    unfold Memory.write; split
    · split
      · simp_all [Memory.wfFrom]
      · simp_all [Memory.wfFrom]
    · split
      · split
        · exact Memory.wfFrom_mono (by omega) _ hm.2
        · simp_all [Memory.wfFrom]
      · simp only [Memory.wfFrom, Bool.and_eq_true, decide_eq_true_eq]
        exact ⟨hm.1, Memory.wfFrom_write rest (k + 1) a b hm.2 (by omega)⟩

theorem Memory.wf_write (m : Memory) (a : Nat) (b : Byte) (h : Memory.wf m = true) :
    Memory.wf (Memory.write m a b) = true := Memory.wfFrom_write m 0 a b h (Nat.zero_le a)

theorem Memory.wf_writeBytes : ∀ (x : List Byte) (m : Memory) (a : Nat), Memory.wf m = true →
    Memory.wf (Memory.writeBytes m a x) = true
  | [], _, _, h => h
  | b :: rest, m, a, h => Memory.wf_writeBytes rest _ _ (Memory.wf_write m a b h)

theorem Memory.wf_nil : Memory.wf [] = true := rfl

/-- A read after a write. -/
theorem Memory.read_write_from : ∀ (m : Memory) (lo a : Nat) (b : Byte) (a' : Nat), Memory.wfFrom lo m = true → lo ≤ a →
    Memory.read (Memory.write m a b) a' = if a' = a then b else Memory.read m a'
  | [], lo, a, b, a', _, _ => by
    by_cases hb : b = memDefault <;> by_cases h : a' = a
    · simp [Memory.write, Memory.read, hb]
    · simp [Memory.write, Memory.read, hb]
    · simp [Memory.write, Memory.read, hb, h]
    · simp [Memory.write, Memory.read, hb, h, Ne.symm h]
  | (k, v) :: rest, lo, a, b, a', hm, ha => by
    simp only [Memory.wfFrom, Bool.and_eq_true, decide_eq_true_eq] at hm
    have hkk : Memory.read rest k = memDefault := Memory.read_below rest (k + 1) k hm.2 (by omega)
    rcases Nat.lt_trichotomy a k with hlt | heq | hgt
    · have hlow : Memory.read rest a = memDefault := Memory.read_below rest (k + 1) a hm.2 (by omega)
      have hne : k ≠ a := by omega
      by_cases hb : b = memDefault <;> by_cases h : a' = a
      · simp [Memory.write, Memory.read, hlt, hb, h, hne, hlow]
      · simp [Memory.write, Memory.read, hlt, hb, h]
      · simp [Memory.write, Memory.read, hlt, hb, h]
      · simp [Memory.write, Memory.read, hlt, hb, h, Ne.symm h]
    · have hnl : ¬ a < k := by omega
      by_cases hb : b = memDefault <;> by_cases h : a' = a
      · simp [Memory.write, heq, hb, h, hkk]
      · have hne : k ≠ a' := by omega
        have hne' : a' ≠ k := by omega
        simp [Memory.write, Memory.read, heq, hb, hne, hne']
      · simp [Memory.write, Memory.read, heq, hb, h]
      · have hne : k ≠ a' := by omega
        have hne' : a' ≠ k := by omega
        simp [Memory.write, Memory.read, heq, hb, hne, hne']
    · have hnl : ¬ a < k := by omega
      have hne : a ≠ k := by omega
      have ih := Memory.read_write_from rest (k + 1) a b a' hm.2 (by omega)
      simp only [Memory.write, if_neg hnl, if_neg hne, Memory.read, ih]
      by_cases h : k = a'
      · have h1 : a' ≠ a := by omega
        simp [h, h1]
      · simp [h]

theorem Memory.read_write (m : Memory) (a : Nat) (b : Byte) (a' : Nat) (h : Memory.wf m = true) :
    Memory.read (Memory.write m a b) a' = if a' = a then b else Memory.read m a' :=
  Memory.read_write_from m 0 a b a' h (Nat.zero_le a)

/-- A read after a run of writes: the stored byte inside, the old byte outside. -/
theorem Memory.read_writeBytes : ∀ (x : List Byte) (m : Memory) (a a' : Nat), Memory.wf m = true →
    Memory.read (Memory.writeBytes m a x) a'
      = if a ≤ a' ∧ a' < a + x.length then x.getD (a' - a) 0 else Memory.read m a'
  | [], m, a, a', _ => by
    have : ¬ (a ≤ a' ∧ a' < a + 0) := by omega
    simp only [Memory.writeBytes, List.length_nil, if_neg this]
  | b :: rest, m, a, a', h => by
    rw [Memory.writeBytes, Memory.read_writeBytes rest _ (a + 1) a' (Memory.wf_write m a b h), Memory.read_write m a b a' h]
    by_cases h1 : a' = a
    · subst h1; simp
    · by_cases h2 : a + 1 ≤ a' ∧ a' < a + 1 + rest.length
      · have h3 : a ≤ a' ∧ a' < a + (b :: rest).length := by simp; omega
        have h4 : a' - a = (a' - (a + 1)) + 1 := by omega
        rw [if_pos h2, if_pos h3, h4, List.getD_cons_succ]
      · have h3 : ¬ (a ≤ a' ∧ a' < a + (b :: rest).length) := by simp; omega
        rw [if_neg h2, if_neg h3, if_neg h1]

@[simp] theorem Memory.below_nil (cap : Nat) : Memory.below cap [] = true := rfl

@[simp] theorem Memory.below_cons (cap k : Nat) (v : Byte) (rest : Memory) :
    Memory.below cap ((k, v) :: rest) = (decide (k < cap) && Memory.below cap rest) := rfl

/-- A write inside the address space stays inside it. -/
theorem Memory.below_write (cap : Nat) : ∀ (m : Memory) (a : Nat) (b : Byte), Memory.below cap m = true → a < cap →
    Memory.below cap (Memory.write m a b) = true
  | [], a, b, _, ha => by unfold Memory.write; split <;> simp [ha]
  | (k, v) :: rest, a, b, hm, ha => by
    have ih := Memory.below_write cap rest a b
    simp only [Memory.below_cons, Bool.and_eq_true, decide_eq_true_eq] at hm
    unfold Memory.write
    split
    · split <;> simp [hm, ha]
    · split
      · split <;> simp [hm, ha]
      · simp [hm, ih hm.2 ha]

theorem Memory.below_writeBytes (cap : Nat) : ∀ (x : List Byte) (m : Memory) (a : Nat), Memory.below cap m = true →
    a + x.length ≤ cap → Memory.below cap (Memory.writeBytes m a x) = true
  | [], _, _, h, _ => h
  | b :: rest, m, a, h, hl => by
    simp only [List.length_cons] at hl
    exact Memory.below_writeBytes cap rest _ _ (Memory.below_write cap m a b h (by omega)) (by omega)

@[simp] theorem Memory.readBytes_length : ∀ (m : Memory) (a n : Nat), (Memory.readBytes m a n).length = n
  | _, _, 0 => rfl
  | m, a, n + 1 => by simp [Memory.readBytes, Memory.readBytes_length m (a + 1) n]

/-- A run of reads sees only its own bytes. -/
theorem Memory.readBytes_congr : ∀ (n : Nat) (m m' : Memory) (a : Nat),
    (∀ k, a ≤ k → k < a + n → Memory.read m k = Memory.read m' k) → Memory.readBytes m a n = Memory.readBytes m' a n
  | 0, _, _, _, _ => rfl
  | n + 1, m, m', a, h => by
    simp only [Memory.readBytes]
    rw [h a (Nat.le_refl a) (by omega), Memory.readBytes_congr n m m' (a + 1) (fun k h1 h2 => h k (by omega) (by omega))]

/-- One more byte at the end. -/
theorem Memory.readBytes_succ : ∀ (n : Nat) (m : Memory) (a : Nat),
    Memory.readBytes m a (n + 1) = Memory.readBytes m a n ++ [Memory.read m (a + n)]
  | 0, m, a => by simp [Memory.readBytes]
  | n + 1, m, a => by
    rw [Memory.readBytes, Memory.readBytes_succ n m (a + 1)]
    simp [Memory.readBytes, Nat.add_assoc, Nat.add_comm 1 n]

/-- The bytes of a stored run read back. -/
theorem Memory.readBytes_writeBytes : ∀ (x : List Byte) (m : Memory) (a : Nat), Memory.wf m = true →
    Memory.readBytes (Memory.writeBytes m a x) a x.length = x
  | [], _, _, _ => rfl
  | b :: rest, m, a, h => by
    have h1 := Memory.wf_write m a b h
    rw [List.length_cons, Memory.readBytes, Memory.writeBytes, Memory.readBytes_writeBytes rest _ (a + 1) h1,
      Memory.read_writeBytes rest _ (a + 1) a h1, Memory.read_write m a b a h]
    simp

end Sys2Proof.Machine
end

