-- ==== Sys2Proof/Laws/State.lean ====
section
/-! SUPPORT. What each register update leaves in each field: one simp lemma per field per update, so that no later proof
unfolds a record update. -/

namespace Sys2Proof.Machine

/-! ### Channel access -/

@[simp] theorem ch_c0 (s : State) : s.ch .c0 = s.ch0 := rfl

@[simp] theorem ch_c1 (s : State) : s.ch .c1 = s.ch1 := rfl

@[simp] theorem setCh_ch_self (s : State) (c : Chan) (x : Channel) : (s.setCh c x).ch c = x := by cases c <;> rfl

theorem setCh_ch_other (s : State) (c d : Chan) (x : Channel) (h : d ≠ c) : (s.setCh c x).ch d = s.ch d := by
  cases c <;> cases d <;> first | rfl | exact absurd rfl h

@[simp] theorem setCh_setCh (s : State) (c : Chan) (x y : Channel) : (s.setCh c x).setCh c y = s.setCh c y := by
  cases c <;> rfl

@[simp] theorem setCh_self (s : State) (c : Chan) : s.setCh c (s.ch c) = s := by cases c <;> rfl

@[simp] theorem setCh_cfg (s : State) (c : Chan) (x : Channel) : (s.setCh c x).cfg = s.cfg := by cases c <;> rfl

@[simp] theorem setCh_nActive (s : State) (c : Chan) (x : Channel) : (s.setCh c x).nActive = s.nActive := by cases c <;> rfl

@[simp] theorem setCh_ds (s : State) (c : Chan) (x : Channel) : (s.setCh c x).ds = s.ds := by cases c <;> rfl

@[simp] theorem setCh_rc (s : State) (c : Chan) (x : Channel) : (s.setCh c x).rc = s.rc := by cases c <;> rfl

@[simp] theorem setCh_cfgDirty (s : State) (c : Chan) (x : Channel) : (s.setCh c x).cfgDirty = s.cfgDirty := by cases c <;> rfl

@[simp] theorem setCh_tCfg (s : State) (c : Chan) (x : Channel) : (s.setCh c x).tCfg = s.tCfg := by cases c <;> rfl

@[simp] theorem setCh_clock (s : State) (c : Chan) (x : Channel) : (s.setCh c x).clock = s.clock := by cases c <;> rfl

@[simp] theorem setCh_inputs (s : State) (c : Chan) (x : Channel) : (s.setCh c x).inputs = s.inputs := by cases c <;> rfl

@[simp] theorem setCh_events (s : State) (c : Chan) (x : Channel) : (s.setCh c x).events = s.events := by cases c <;> rfl

@[simp] theorem setCh_active (s : State) (c d : Chan) (x : Channel) : (s.setCh c x).active d = s.active d := by
  cases c <;> rfl

/-! ### Events -/

@[simp] theorem emit_cfg (e : Event) (s : State) : (emit e s).cfg = s.cfg := rfl

@[simp] theorem emit_nActive (e : Event) (s : State) : (emit e s).nActive = s.nActive := rfl

@[simp] theorem emit_ds (e : Event) (s : State) : (emit e s).ds = s.ds := rfl

@[simp] theorem emit_rc (e : Event) (s : State) : (emit e s).rc = s.rc := rfl

@[simp] theorem emit_cfgDirty (e : Event) (s : State) : (emit e s).cfgDirty = s.cfgDirty := rfl

@[simp] theorem emit_tCfg (e : Event) (s : State) : (emit e s).tCfg = s.tCfg := rfl

@[simp] theorem emit_clock (e : Event) (s : State) : (emit e s).clock = s.clock := rfl

@[simp] theorem emit_inputs (e : Event) (s : State) : (emit e s).inputs = s.inputs := rfl

@[simp] theorem emit_ch0 (e : Event) (s : State) : (emit e s).ch0 = s.ch0 := rfl

@[simp] theorem emit_ch1 (e : Event) (s : State) : (emit e s).ch1 = s.ch1 := rfl

@[simp] theorem emit_events (e : Event) (s : State) : (emit e s).events = s.events ++ [e] := rfl

@[simp] theorem emit_ch (e : Event) (s : State) (c : Chan) : (emit e s).ch c = s.ch c := by cases c <;> rfl

@[simp] theorem emit_active (e : Event) (s : State) (c : Chan) : (emit e s).active c = s.active c := rfl

/-! ### Shared registers -/

@[simp] theorem markConfigDirty_cfg (now : Nat) (s : State) : (markConfigDirty now s).cfg = s.cfg := rfl

@[simp] theorem markConfigDirty_nActive (now : Nat) (s : State) : (markConfigDirty now s).nActive = s.nActive := rfl

@[simp] theorem markConfigDirty_ds (now : Nat) (s : State) : (markConfigDirty now s).ds = s.ds := rfl

@[simp] theorem markConfigDirty_rc (now : Nat) (s : State) : (markConfigDirty now s).rc = s.rc := rfl

@[simp] theorem markConfigDirty_cfgDirty (now : Nat) (s : State) : (markConfigDirty now s).cfgDirty = true := rfl

@[simp] theorem markConfigDirty_tCfg (now : Nat) (s : State) : (markConfigDirty now s).tCfg = now := rfl

@[simp] theorem markConfigDirty_clock (now : Nat) (s : State) : (markConfigDirty now s).clock = s.clock := rfl

@[simp] theorem markConfigDirty_inputs (now : Nat) (s : State) : (markConfigDirty now s).inputs = s.inputs := rfl

@[simp] theorem markConfigDirty_events (now : Nat) (s : State) : (markConfigDirty now s).events = s.events := rfl

@[simp] theorem markConfigDirty_ch0 (now : Nat) (s : State) : (markConfigDirty now s).ch0 = s.ch0 := rfl

@[simp] theorem markConfigDirty_ch1 (now : Nat) (s : State) : (markConfigDirty now s).ch1 = s.ch1 := rfl

@[simp] theorem markConfigDirty_ch (now : Nat) (s : State) (c : Chan) : (markConfigDirty now s).ch c = s.ch c := by cases c <;> rfl

@[simp] theorem storeDevice_cfg (n : WName) (v : Nat) (s : State) : (storeDevice n v s).cfg = s.cfg := rfl

@[simp] theorem storeDevice_nActive (n : WName) (v : Nat) (s : State) : (storeDevice n v s).nActive = s.nActive := rfl

@[simp] theorem storeDevice_ds (n : WName) (v : Nat) (s : State) : (storeDevice n v s).ds = storeField s.cfg.delayMaxS n v s.ds := rfl

@[simp] theorem storeDevice_rc (n : WName) (v : Nat) (s : State) : (storeDevice n v s).rc = s.rc := rfl

@[simp] theorem storeDevice_cfgDirty (n : WName) (v : Nat) (s : State) : (storeDevice n v s).cfgDirty = s.cfgDirty := rfl

@[simp] theorem storeDevice_tCfg (n : WName) (v : Nat) (s : State) : (storeDevice n v s).tCfg = s.tCfg := rfl

@[simp] theorem storeDevice_clock (n : WName) (v : Nat) (s : State) : (storeDevice n v s).clock = s.clock := rfl

@[simp] theorem storeDevice_inputs (n : WName) (v : Nat) (s : State) : (storeDevice n v s).inputs = s.inputs := rfl

@[simp] theorem storeDevice_events (n : WName) (v : Nat) (s : State) : (storeDevice n v s).events = s.events := rfl

@[simp] theorem storeDevice_ch0 (n : WName) (v : Nat) (s : State) : (storeDevice n v s).ch0 = s.ch0 := rfl

@[simp] theorem storeDevice_ch1 (n : WName) (v : Nat) (s : State) : (storeDevice n v s).ch1 = s.ch1 := rfl

@[simp] theorem storeDevice_ch (n : WName) (v : Nat) (s : State) (c : Chan) : (storeDevice n v s).ch c = s.ch c := by cases c <;> rfl

@[simp] theorem clearAfterRun_cfg (s : State) : (clearAfterRun s).cfg = s.cfg := rfl

@[simp] theorem clearAfterRun_nActive (s : State) : (clearAfterRun s).nActive = s.nActive := rfl

@[simp] theorem clearAfterRun_ds (s : State) : (clearAfterRun s).ds = s.ds := rfl

@[simp] theorem clearAfterRun_rc (s : State) : (clearAfterRun s).rc = { s.rc with owner := none, deadline := none } := rfl

@[simp] theorem clearAfterRun_cfgDirty (s : State) : (clearAfterRun s).cfgDirty = s.cfgDirty := rfl

@[simp] theorem clearAfterRun_tCfg (s : State) : (clearAfterRun s).tCfg = s.tCfg := rfl

@[simp] theorem clearAfterRun_clock (s : State) : (clearAfterRun s).clock = s.clock := rfl

@[simp] theorem clearAfterRun_inputs (s : State) : (clearAfterRun s).inputs = s.inputs := rfl

@[simp] theorem clearAfterRun_events (s : State) : (clearAfterRun s).events = s.events := rfl

@[simp] theorem clearAfterRun_ch0 (s : State) : (clearAfterRun s).ch0 = s.ch0 := rfl

@[simp] theorem clearAfterRun_ch1 (s : State) : (clearAfterRun s).ch1 = s.ch1 := rfl

@[simp] theorem clearAfterRun_ch (s : State) (c : Chan) : (clearAfterRun s).ch c = s.ch c := by cases c <;> rfl

/-! ### Channel registers: what each update leaves in the channel it names, in the other, and outside -/

@[simp] theorem resync_ch_self (c : Chan) (s : State) : (resync c s).ch c =
    { s.ch c with dec := .awaitMarker, esc := false, n := 0 } := setCh_ch_self ..

theorem resync_ch_other (c d : Chan) (s : State) (h : d ≠ c) : (resync c s).ch d = s.ch d := setCh_ch_other _ _ _ _ h

@[simp] theorem resync_cfg (c : Chan) (s : State) : (resync c s).cfg = s.cfg := setCh_cfg ..

@[simp] theorem resync_nActive (c : Chan) (s : State) : (resync c s).nActive = s.nActive := setCh_nActive ..

@[simp] theorem resync_ds (c : Chan) (s : State) : (resync c s).ds = s.ds := setCh_ds ..

@[simp] theorem resync_rc (c : Chan) (s : State) : (resync c s).rc = s.rc := setCh_rc ..

@[simp] theorem resync_cfgDirty (c : Chan) (s : State) : (resync c s).cfgDirty = s.cfgDirty := setCh_cfgDirty ..

@[simp] theorem resync_tCfg (c : Chan) (s : State) : (resync c s).tCfg = s.tCfg := setCh_tCfg ..

@[simp] theorem resync_clock (c : Chan) (s : State) : (resync c s).clock = s.clock := setCh_clock ..

@[simp] theorem resync_inputs (c : Chan) (s : State) : (resync c s).inputs = s.inputs := setCh_inputs ..

@[simp] theorem resync_events (c : Chan) (s : State) : (resync c s).events = s.events := setCh_events ..

@[simp] theorem freshFrame_ch_self (c : Chan) (s : State) : (freshFrame c s).ch c =
    { s.ch c with dec := .inFrame, n := 0, esc := false } := setCh_ch_self ..

theorem freshFrame_ch_other (c d : Chan) (s : State) (h : d ≠ c) : (freshFrame c s).ch d = s.ch d := setCh_ch_other _ _ _ _ h

@[simp] theorem freshFrame_cfg (c : Chan) (s : State) : (freshFrame c s).cfg = s.cfg := setCh_cfg ..

@[simp] theorem freshFrame_nActive (c : Chan) (s : State) : (freshFrame c s).nActive = s.nActive := setCh_nActive ..

@[simp] theorem freshFrame_ds (c : Chan) (s : State) : (freshFrame c s).ds = s.ds := setCh_ds ..

@[simp] theorem freshFrame_rc (c : Chan) (s : State) : (freshFrame c s).rc = s.rc := setCh_rc ..

@[simp] theorem freshFrame_cfgDirty (c : Chan) (s : State) : (freshFrame c s).cfgDirty = s.cfgDirty := setCh_cfgDirty ..

@[simp] theorem freshFrame_tCfg (c : Chan) (s : State) : (freshFrame c s).tCfg = s.tCfg := setCh_tCfg ..

@[simp] theorem freshFrame_clock (c : Chan) (s : State) : (freshFrame c s).clock = s.clock := setCh_clock ..

@[simp] theorem freshFrame_inputs (c : Chan) (s : State) : (freshFrame c s).inputs = s.inputs := setCh_inputs ..

@[simp] theorem freshFrame_events (c : Chan) (s : State) : (freshFrame c s).events = s.events := setCh_events ..

@[simp] theorem channelReset_ch_self (c : Chan) (s : State) : (channelReset c s).ch c =
    { s.ch c with
      hs := .idle, dec := .awaitMarker, esc := false, n := 0, link := .down, locked := false } := setCh_ch_self ..

theorem channelReset_ch_other (c d : Chan) (s : State) (h : d ≠ c) : (channelReset c s).ch d = s.ch d := setCh_ch_other _ _ _ _ h

@[simp] theorem channelReset_cfg (c : Chan) (s : State) : (channelReset c s).cfg = s.cfg := setCh_cfg ..

@[simp] theorem channelReset_nActive (c : Chan) (s : State) : (channelReset c s).nActive = s.nActive := setCh_nActive ..

@[simp] theorem channelReset_ds (c : Chan) (s : State) : (channelReset c s).ds = s.ds := setCh_ds ..

@[simp] theorem channelReset_rc (c : Chan) (s : State) : (channelReset c s).rc = s.rc := setCh_rc ..

@[simp] theorem channelReset_cfgDirty (c : Chan) (s : State) : (channelReset c s).cfgDirty = s.cfgDirty := setCh_cfgDirty ..

@[simp] theorem channelReset_tCfg (c : Chan) (s : State) : (channelReset c s).tCfg = s.tCfg := setCh_tCfg ..

@[simp] theorem channelReset_clock (c : Chan) (s : State) : (channelReset c s).clock = s.clock := setCh_clock ..

@[simp] theorem channelReset_inputs (c : Chan) (s : State) : (channelReset c s).inputs = s.inputs := setCh_inputs ..

@[simp] theorem channelReset_events (c : Chan) (s : State) : (channelReset c s).events = s.events := setCh_events ..

@[simp] theorem setLink_ch_self (c : Chan) (v : Link) (s : State) : (setLink c v s).ch c =
    { s.ch c with link := v } := setCh_ch_self ..

theorem setLink_ch_other (c d : Chan) (v : Link) (s : State) (h : d ≠ c) : (setLink c v s).ch d = s.ch d := setCh_ch_other _ _ _ _ h

@[simp] theorem setLink_cfg (c : Chan) (v : Link) (s : State) : (setLink c v s).cfg = s.cfg := setCh_cfg ..

@[simp] theorem setLink_nActive (c : Chan) (v : Link) (s : State) : (setLink c v s).nActive = s.nActive := setCh_nActive ..

@[simp] theorem setLink_ds (c : Chan) (v : Link) (s : State) : (setLink c v s).ds = s.ds := setCh_ds ..

@[simp] theorem setLink_rc (c : Chan) (v : Link) (s : State) : (setLink c v s).rc = s.rc := setCh_rc ..

@[simp] theorem setLink_cfgDirty (c : Chan) (v : Link) (s : State) : (setLink c v s).cfgDirty = s.cfgDirty := setCh_cfgDirty ..

@[simp] theorem setLink_tCfg (c : Chan) (v : Link) (s : State) : (setLink c v s).tCfg = s.tCfg := setCh_tCfg ..

@[simp] theorem setLink_clock (c : Chan) (v : Link) (s : State) : (setLink c v s).clock = s.clock := setCh_clock ..

@[simp] theorem setLink_inputs (c : Chan) (v : Link) (s : State) : (setLink c v s).inputs = s.inputs := setCh_inputs ..

@[simp] theorem setLink_events (c : Chan) (v : Link) (s : State) : (setLink c v s).events = s.events := setCh_events ..

@[simp] theorem setHs_ch_self (c : Chan) (v : HsState) (s : State) : (setHs c v s).ch c =
    { s.ch c with hs := v } := setCh_ch_self ..

theorem setHs_ch_other (c d : Chan) (v : HsState) (s : State) (h : d ≠ c) : (setHs c v s).ch d = s.ch d := setCh_ch_other _ _ _ _ h

@[simp] theorem setHs_cfg (c : Chan) (v : HsState) (s : State) : (setHs c v s).cfg = s.cfg := setCh_cfg ..

@[simp] theorem setHs_nActive (c : Chan) (v : HsState) (s : State) : (setHs c v s).nActive = s.nActive := setCh_nActive ..

@[simp] theorem setHs_ds (c : Chan) (v : HsState) (s : State) : (setHs c v s).ds = s.ds := setCh_ds ..

@[simp] theorem setHs_rc (c : Chan) (v : HsState) (s : State) : (setHs c v s).rc = s.rc := setCh_rc ..

@[simp] theorem setHs_cfgDirty (c : Chan) (v : HsState) (s : State) : (setHs c v s).cfgDirty = s.cfgDirty := setCh_cfgDirty ..

@[simp] theorem setHs_tCfg (c : Chan) (v : HsState) (s : State) : (setHs c v s).tCfg = s.tCfg := setCh_tCfg ..

@[simp] theorem setHs_clock (c : Chan) (v : HsState) (s : State) : (setHs c v s).clock = s.clock := setCh_clock ..

@[simp] theorem setHs_inputs (c : Chan) (v : HsState) (s : State) : (setHs c v s).inputs = s.inputs := setCh_inputs ..

@[simp] theorem setHs_events (c : Chan) (v : HsState) (s : State) : (setHs c v s).events = s.events := setCh_events ..

@[simp] theorem setDec_ch_self (c : Chan) (v : DecState) (s : State) : (setDec c v s).ch c =
    { s.ch c with dec := v } := setCh_ch_self ..

theorem setDec_ch_other (c d : Chan) (v : DecState) (s : State) (h : d ≠ c) : (setDec c v s).ch d = s.ch d := setCh_ch_other _ _ _ _ h

@[simp] theorem setDec_cfg (c : Chan) (v : DecState) (s : State) : (setDec c v s).cfg = s.cfg := setCh_cfg ..

@[simp] theorem setDec_nActive (c : Chan) (v : DecState) (s : State) : (setDec c v s).nActive = s.nActive := setCh_nActive ..

@[simp] theorem setDec_ds (c : Chan) (v : DecState) (s : State) : (setDec c v s).ds = s.ds := setCh_ds ..

@[simp] theorem setDec_rc (c : Chan) (v : DecState) (s : State) : (setDec c v s).rc = s.rc := setCh_rc ..

@[simp] theorem setDec_cfgDirty (c : Chan) (v : DecState) (s : State) : (setDec c v s).cfgDirty = s.cfgDirty := setCh_cfgDirty ..

@[simp] theorem setDec_tCfg (c : Chan) (v : DecState) (s : State) : (setDec c v s).tCfg = s.tCfg := setCh_tCfg ..

@[simp] theorem setDec_clock (c : Chan) (v : DecState) (s : State) : (setDec c v s).clock = s.clock := setCh_clock ..

@[simp] theorem setDec_inputs (c : Chan) (v : DecState) (s : State) : (setDec c v s).inputs = s.inputs := setCh_inputs ..

@[simp] theorem setDec_events (c : Chan) (v : DecState) (s : State) : (setDec c v s).events = s.events := setCh_events ..

@[simp] theorem setEsc_ch_self (c : Chan) (v : Bool) (s : State) : (setEsc c v s).ch c =
    { s.ch c with esc := v } := setCh_ch_self ..

theorem setEsc_ch_other (c d : Chan) (v : Bool) (s : State) (h : d ≠ c) : (setEsc c v s).ch d = s.ch d := setCh_ch_other _ _ _ _ h

@[simp] theorem setEsc_cfg (c : Chan) (v : Bool) (s : State) : (setEsc c v s).cfg = s.cfg := setCh_cfg ..

@[simp] theorem setEsc_nActive (c : Chan) (v : Bool) (s : State) : (setEsc c v s).nActive = s.nActive := setCh_nActive ..

@[simp] theorem setEsc_ds (c : Chan) (v : Bool) (s : State) : (setEsc c v s).ds = s.ds := setCh_ds ..

@[simp] theorem setEsc_rc (c : Chan) (v : Bool) (s : State) : (setEsc c v s).rc = s.rc := setCh_rc ..

@[simp] theorem setEsc_cfgDirty (c : Chan) (v : Bool) (s : State) : (setEsc c v s).cfgDirty = s.cfgDirty := setCh_cfgDirty ..

@[simp] theorem setEsc_tCfg (c : Chan) (v : Bool) (s : State) : (setEsc c v s).tCfg = s.tCfg := setCh_tCfg ..

@[simp] theorem setEsc_clock (c : Chan) (v : Bool) (s : State) : (setEsc c v s).clock = s.clock := setCh_clock ..

@[simp] theorem setEsc_inputs (c : Chan) (v : Bool) (s : State) : (setEsc c v s).inputs = s.inputs := setCh_inputs ..

@[simp] theorem setEsc_events (c : Chan) (v : Bool) (s : State) : (setEsc c v s).events = s.events := setCh_events ..

@[simp] theorem touchRx_ch_self (c : Chan) (now : Nat) (s : State) : (touchRx c now s).ch c =
    { s.ch c with tRx := now } := setCh_ch_self ..

theorem touchRx_ch_other (c d : Chan) (now : Nat) (s : State) (h : d ≠ c) : (touchRx c now s).ch d = s.ch d := setCh_ch_other _ _ _ _ h

@[simp] theorem touchRx_cfg (c : Chan) (now : Nat) (s : State) : (touchRx c now s).cfg = s.cfg := setCh_cfg ..

@[simp] theorem touchRx_nActive (c : Chan) (now : Nat) (s : State) : (touchRx c now s).nActive = s.nActive := setCh_nActive ..

@[simp] theorem touchRx_ds (c : Chan) (now : Nat) (s : State) : (touchRx c now s).ds = s.ds := setCh_ds ..

@[simp] theorem touchRx_rc (c : Chan) (now : Nat) (s : State) : (touchRx c now s).rc = s.rc := setCh_rc ..

@[simp] theorem touchRx_cfgDirty (c : Chan) (now : Nat) (s : State) : (touchRx c now s).cfgDirty = s.cfgDirty := setCh_cfgDirty ..

@[simp] theorem touchRx_tCfg (c : Chan) (now : Nat) (s : State) : (touchRx c now s).tCfg = s.tCfg := setCh_tCfg ..

@[simp] theorem touchRx_clock (c : Chan) (now : Nat) (s : State) : (touchRx c now s).clock = s.clock := setCh_clock ..

@[simp] theorem touchRx_inputs (c : Chan) (now : Nat) (s : State) : (touchRx c now s).inputs = s.inputs := setCh_inputs ..

@[simp] theorem touchRx_events (c : Chan) (now : Nat) (s : State) : (touchRx c now s).events = s.events := setCh_events ..

@[simp] theorem pushByte_ch_self (c : Chan) (b : Byte) (s : State) : (pushByte c b s).ch c =
    { s.ch c with
      buf := Memory.write (s.ch c).buf (s.ch c).n b, n := (s.ch c).n + 1 } := setCh_ch_self ..

theorem pushByte_ch_other (c d : Chan) (b : Byte) (s : State) (h : d ≠ c) : (pushByte c b s).ch d = s.ch d := setCh_ch_other _ _ _ _ h

@[simp] theorem pushByte_cfg (c : Chan) (b : Byte) (s : State) : (pushByte c b s).cfg = s.cfg := setCh_cfg ..

@[simp] theorem pushByte_nActive (c : Chan) (b : Byte) (s : State) : (pushByte c b s).nActive = s.nActive := setCh_nActive ..

@[simp] theorem pushByte_ds (c : Chan) (b : Byte) (s : State) : (pushByte c b s).ds = s.ds := setCh_ds ..

@[simp] theorem pushByte_rc (c : Chan) (b : Byte) (s : State) : (pushByte c b s).rc = s.rc := setCh_rc ..

@[simp] theorem pushByte_cfgDirty (c : Chan) (b : Byte) (s : State) : (pushByte c b s).cfgDirty = s.cfgDirty := setCh_cfgDirty ..

@[simp] theorem pushByte_tCfg (c : Chan) (b : Byte) (s : State) : (pushByte c b s).tCfg = s.tCfg := setCh_tCfg ..

@[simp] theorem pushByte_clock (c : Chan) (b : Byte) (s : State) : (pushByte c b s).clock = s.clock := setCh_clock ..

@[simp] theorem pushByte_inputs (c : Chan) (b : Byte) (s : State) : (pushByte c b s).inputs = s.inputs := setCh_inputs ..

@[simp] theorem pushByte_events (c : Chan) (b : Byte) (s : State) : (pushByte c b s).events = s.events := setCh_events ..

end Sys2Proof.Machine
end

