-- ==== Sys2Proof/Laws/Ops.lean ====
section
/-! SUPPORT. One lemma for each shared operation that says what it can do: cite these instead of unfolding it. -/

namespace Sys2Proof.Machine

@[simp] theorem andThen_next (s : State) (f : State → Res) : andThen (.next s) f = f s := rfl

theorem chan_ne_cases {P : Chan → Prop} {c : Chan} (d : Chan) (h : P c) (h' : d ≠ c → P d) : P d := by
  by_cases e : d = c
  · exact e ▸ h
  · exact h' e

/-! ### Reset -/

theorem reset_memories_wf (c : Chan) :
    Memory.wf (State.reset.ch c).buf = true ∧ Memory.wf (State.reset.ch c).identity = true := by
  cases c <;> decide

/-! ### Events and conditions -/

@[simp] theorem report_cfg (c : Chan) (k : ErrKind) (s : State) : (report c k s).cfg = s.cfg := by simp [report]

@[simp] theorem report_nActive (c : Chan) (k : ErrKind) (s : State) : (report c k s).nActive = s.nActive := by simp [report]

@[simp] theorem report_ds (c : Chan) (k : ErrKind) (s : State) : (report c k s).ds = s.ds := by simp [report]

@[simp] theorem report_rc (c : Chan) (k : ErrKind) (s : State) : (report c k s).rc = s.rc := by simp [report]

@[simp] theorem report_cfgDirty (c : Chan) (k : ErrKind) (s : State) : (report c k s).cfgDirty = s.cfgDirty := by simp [report]

@[simp] theorem report_tCfg (c : Chan) (k : ErrKind) (s : State) : (report c k s).tCfg = s.tCfg := by simp [report]

@[simp] theorem report_clock (c : Chan) (k : ErrKind) (s : State) : (report c k s).clock = s.clock := by simp [report]

@[simp] theorem report_inputs (c : Chan) (k : ErrKind) (s : State) : (report c k s).inputs = s.inputs := by simp [report]

@[simp] theorem report_events (c : Chan) (k : ErrKind) (s : State) : (report c k s).events = s.events ++ [.report c k] := rfl

@[simp] theorem report_ch (c d : Chan) (k : ErrKind) (s : State) : (report c k s).ch d = s.ch d := by cases d <;> rfl

@[simp] theorem raise_cfg (c : Chan) (k : ErrKind) (s : State) : (raise c k s).cfg = s.cfg := by simp [raise]

@[simp] theorem raise_nActive (c : Chan) (k : ErrKind) (s : State) : (raise c k s).nActive = s.nActive := by simp [raise]

@[simp] theorem raise_ds (c : Chan) (k : ErrKind) (s : State) : (raise c k s).ds = s.ds := by simp [raise]

@[simp] theorem raise_rc (c : Chan) (k : ErrKind) (s : State) : (raise c k s).rc = s.rc := by simp [raise]

@[simp] theorem raise_cfgDirty (c : Chan) (k : ErrKind) (s : State) : (raise c k s).cfgDirty = s.cfgDirty := by simp [raise]

@[simp] theorem raise_tCfg (c : Chan) (k : ErrKind) (s : State) : (raise c k s).tCfg = s.tCfg := by simp [raise]

@[simp] theorem raise_clock (c : Chan) (k : ErrKind) (s : State) : (raise c k s).clock = s.clock := by simp [raise]

@[simp] theorem raise_inputs (c : Chan) (k : ErrKind) (s : State) : (raise c k s).inputs = s.inputs := by simp [raise]

@[simp] theorem raise_events (c : Chan) (k : ErrKind) (s : State) : (raise c k s).events = s.events ++ [.report c k] := by simp [raise]

theorem raise_eq (c : Chan) (k : ErrKind) (s : State) :
    raise c k s = (emit (.report c k) s).setCh c { s.ch c with dec := .awaitMarker, esc := false, n := 0 } := by
  cases c <;> rfl

/-! ### Replies -/

@[simp] theorem reply_cfg (c : Chan) (dst fid ctl : Byte) (data : List Byte) (now : Nat) (s : State) : (reply c dst fid ctl data now s).cfg = s.cfg := by simp [reply]

@[simp] theorem reply_nActive (c : Chan) (dst fid ctl : Byte) (data : List Byte) (now : Nat) (s : State) : (reply c dst fid ctl data now s).nActive = s.nActive := by simp [reply]

@[simp] theorem reply_ds (c : Chan) (dst fid ctl : Byte) (data : List Byte) (now : Nat) (s : State) : (reply c dst fid ctl data now s).ds = s.ds := by simp [reply]

@[simp] theorem reply_rc (c : Chan) (dst fid ctl : Byte) (data : List Byte) (now : Nat) (s : State) : (reply c dst fid ctl data now s).rc = s.rc := by simp [reply]

@[simp] theorem reply_cfgDirty (c : Chan) (dst fid ctl : Byte) (data : List Byte) (now : Nat) (s : State) : (reply c dst fid ctl data now s).cfgDirty = s.cfgDirty := by simp [reply]

@[simp] theorem reply_tCfg (c : Chan) (dst fid ctl : Byte) (data : List Byte) (now : Nat) (s : State) : (reply c dst fid ctl data now s).tCfg = s.tCfg := by simp [reply]

@[simp] theorem reply_clock (c : Chan) (dst fid ctl : Byte) (data : List Byte) (now : Nat) (s : State) : (reply c dst fid ctl data now s).clock = s.clock := by simp [reply]

@[simp] theorem reply_inputs (c : Chan) (dst fid ctl : Byte) (data : List Byte) (now : Nat) (s : State) : (reply c dst fid ctl data now s).inputs = s.inputs := by simp [reply]

@[simp] theorem reply_events (c : Chan) (dst fid ctl : Byte) (data : List Byte) (now : Nat) (s : State) : (reply c dst fid ctl data now s).events = s.events ++ [.tx c (encodeFrame (s.ch c).addr dst fid ctl data)] := by simp [reply]

@[simp] theorem reply_ch_self (c : Chan) (dst fid ctl : Byte) (data : List Byte) (now : Nat) (s : State) :
    (reply c dst fid ctl data now s).ch c = { s.ch c with tReply := now } := by simp [reply]

theorem reply_ch_other (c d : Chan) (dst fid ctl : Byte) (data : List Byte) (now : Nat) (s : State) (h : d ≠ c) :
    (reply c dst fid ctl data now s).ch d = s.ch d := by simp [reply, setCh_ch_other _ _ _ _ h]

theorem ack_eq (h : Hdr) (s : State) : ack h s = reply h.c h.src h.fid h.ctl [ackStatus] h.now s := rfl

/-! ### Identity -/

@[simp] theorem storeIdentity_cfg (c : Chan) (data : List Byte) (s : State) : (storeIdentity c data s).cfg = s.cfg := by simp [storeIdentity]

@[simp] theorem storeIdentity_nActive (c : Chan) (data : List Byte) (s : State) : (storeIdentity c data s).nActive = s.nActive := by simp [storeIdentity]

@[simp] theorem storeIdentity_ds (c : Chan) (data : List Byte) (s : State) : (storeIdentity c data s).ds = s.ds := by simp [storeIdentity]

@[simp] theorem storeIdentity_rc (c : Chan) (data : List Byte) (s : State) : (storeIdentity c data s).rc = s.rc := by simp [storeIdentity]

@[simp] theorem storeIdentity_cfgDirty (c : Chan) (data : List Byte) (s : State) : (storeIdentity c data s).cfgDirty = s.cfgDirty := by simp [storeIdentity]

@[simp] theorem storeIdentity_tCfg (c : Chan) (data : List Byte) (s : State) : (storeIdentity c data s).tCfg = s.tCfg := by simp [storeIdentity]

@[simp] theorem storeIdentity_clock (c : Chan) (data : List Byte) (s : State) : (storeIdentity c data s).clock = s.clock := by simp [storeIdentity]

@[simp] theorem storeIdentity_inputs (c : Chan) (data : List Byte) (s : State) : (storeIdentity c data s).inputs = s.inputs := by simp [storeIdentity]

@[simp] theorem storeIdentity_events (c : Chan) (data : List Byte) (s : State) : (storeIdentity c data s).events = s.events ++ [.persist (.saveIdentity c (data.take idMax))] := by simp [storeIdentity]

@[simp] theorem storeIdentity_ch_self (c : Chan) (data : List Byte) (s : State) : (storeIdentity c data s).ch c =
    { s.ch c with identity := Memory.writeBytes (s.ch c).identity 0 (data.take idMax), idLen := (data.take idMax).length } := by
  simp [storeIdentity]

theorem storeIdentity_ch_other (c d : Chan) (data : List Byte) (s : State) (h : d ≠ c) :
    (storeIdentity c data s).ch d = s.ch d := by simp [storeIdentity, setCh_ch_other _ _ _ _ h]

/-! ### Handshake frame -/

@[simp] theorem adoptAddress_cfg (c : Chan) (dst : Byte) (s : State) : (adoptAddress c dst s).cfg = s.cfg := by unfold adoptAddress; split <;> simp

@[simp] theorem adoptAddress_nActive (c : Chan) (dst : Byte) (s : State) : (adoptAddress c dst s).nActive = s.nActive := by unfold adoptAddress; split <;> simp

@[simp] theorem adoptAddress_ds (c : Chan) (dst : Byte) (s : State) : (adoptAddress c dst s).ds = s.ds := by unfold adoptAddress; split <;> simp

@[simp] theorem adoptAddress_rc (c : Chan) (dst : Byte) (s : State) : (adoptAddress c dst s).rc = s.rc := by unfold adoptAddress; split <;> simp

@[simp] theorem adoptAddress_cfgDirty (c : Chan) (dst : Byte) (s : State) : (adoptAddress c dst s).cfgDirty = s.cfgDirty := by unfold adoptAddress; split <;> simp

@[simp] theorem adoptAddress_tCfg (c : Chan) (dst : Byte) (s : State) : (adoptAddress c dst s).tCfg = s.tCfg := by unfold adoptAddress; split <;> simp

@[simp] theorem adoptAddress_clock (c : Chan) (dst : Byte) (s : State) : (adoptAddress c dst s).clock = s.clock := by unfold adoptAddress; split <;> simp

@[simp] theorem adoptAddress_inputs (c : Chan) (dst : Byte) (s : State) : (adoptAddress c dst s).inputs = s.inputs := by unfold adoptAddress; split <;> simp

theorem adoptAddress_ch_other (c d : Chan) (dst : Byte) (s : State) (h : d ≠ c) : (adoptAddress c dst s).ch d = s.ch d := by
  unfold adoptAddress; split <;> simp [setCh_ch_other _ _ _ _ h]

@[simp] theorem noteHandshake_cfg (c : Chan) (src : Byte) (s : State) : (noteHandshake c src s).cfg = s.cfg := by simp [noteHandshake]

@[simp] theorem noteHandshake_nActive (c : Chan) (src : Byte) (s : State) : (noteHandshake c src s).nActive = s.nActive := by simp [noteHandshake]

@[simp] theorem noteHandshake_ds (c : Chan) (src : Byte) (s : State) : (noteHandshake c src s).ds = s.ds := by simp [noteHandshake]

@[simp] theorem noteHandshake_rc (c : Chan) (src : Byte) (s : State) : (noteHandshake c src s).rc = s.rc := by simp [noteHandshake]

@[simp] theorem noteHandshake_cfgDirty (c : Chan) (src : Byte) (s : State) : (noteHandshake c src s).cfgDirty = s.cfgDirty := by simp [noteHandshake]

@[simp] theorem noteHandshake_tCfg (c : Chan) (src : Byte) (s : State) : (noteHandshake c src s).tCfg = s.tCfg := by simp [noteHandshake]

@[simp] theorem noteHandshake_clock (c : Chan) (src : Byte) (s : State) : (noteHandshake c src s).clock = s.clock := by simp [noteHandshake]

@[simp] theorem noteHandshake_inputs (c : Chan) (src : Byte) (s : State) : (noteHandshake c src s).inputs = s.inputs := by simp [noteHandshake]

@[simp] theorem noteHandshake_events (c : Chan) (src : Byte) (s : State) : (noteHandshake c src s).events = s.events := by simp [noteHandshake]

@[simp] theorem noteHandshake_ch_self (c : Chan) (src : Byte) (s : State) : (noteHandshake c src s).ch c =
    { s.ch c with peer := src, link := if (s.ch c).link = .down then .connecting else (s.ch c).link } := by
  simp [noteHandshake]

theorem noteHandshake_ch_other (c d : Chan) (src : Byte) (s : State) (h : d ≠ c) :
    (noteHandshake c src s).ch d = s.ch d := by simp [noteHandshake, setCh_ch_other _ _ _ _ h]

/-! ### The idle touch -/

@[simp] theorem touchFor_cfg (c : Chan) (f : Frame) (now : Nat) (s : State) : (touchFor c f now s).cfg = s.cfg := by
  unfold touchFor idleTouch; split
  · split <;> simp
  · rfl

@[simp] theorem touchFor_nActive (c : Chan) (f : Frame) (now : Nat) (s : State) : (touchFor c f now s).nActive = s.nActive := by
  unfold touchFor idleTouch; split
  · split <;> simp
  · rfl

@[simp] theorem touchFor_ds (c : Chan) (f : Frame) (now : Nat) (s : State) : (touchFor c f now s).ds = s.ds := by
  unfold touchFor idleTouch; split
  · split <;> simp
  · rfl

@[simp] theorem touchFor_rc (c : Chan) (f : Frame) (now : Nat) (s : State) : (touchFor c f now s).rc = s.rc := by
  unfold touchFor idleTouch; split
  · split <;> simp
  · rfl

@[simp] theorem touchFor_cfgDirty (c : Chan) (f : Frame) (now : Nat) (s : State) : (touchFor c f now s).cfgDirty = s.cfgDirty := by
  unfold touchFor idleTouch; split
  · split <;> simp
  · rfl

@[simp] theorem touchFor_tCfg (c : Chan) (f : Frame) (now : Nat) (s : State) : (touchFor c f now s).tCfg = s.tCfg := by
  unfold touchFor idleTouch; split
  · split <;> simp
  · rfl

@[simp] theorem touchFor_clock (c : Chan) (f : Frame) (now : Nat) (s : State) : (touchFor c f now s).clock = s.clock := by
  unfold touchFor idleTouch; split
  · split <;> simp
  · rfl

@[simp] theorem touchFor_inputs (c : Chan) (f : Frame) (now : Nat) (s : State) : (touchFor c f now s).inputs = s.inputs := by
  unfold touchFor idleTouch; split
  · split <;> simp
  · rfl

@[simp] theorem touchFor_events (c : Chan) (f : Frame) (now : Nat) (s : State) : (touchFor c f now s).events = s.events := by
  unfold touchFor idleTouch; split
  · split <;> simp
  · rfl

/-- The idle touch writes `tIdle` of its own channel, to the old value or to `now`. -/
theorem touchFor_cases (c : Chan) (f : Frame) (now : Nat) (s : State) :
    touchFor c f now s = s ∨ touchFor c f now s = s.setCh c { s.ch c with tIdle := now } := by
  unfold touchFor idleTouch; split
  · split
    · exact Or.inr rfl
    · exact Or.inl rfl
  · exact Or.inl rfl

/-! ### Relay coordinator -/

@[simp] theorem setRelay_cfg (v : Bool) (s : State) : (setRelay v s).cfg = s.cfg := by unfold setRelay; split <;> simp

@[simp] theorem setRelay_nActive (v : Bool) (s : State) : (setRelay v s).nActive = s.nActive := by unfold setRelay; split <;> simp

@[simp] theorem setRelay_ds (v : Bool) (s : State) : (setRelay v s).ds = s.ds := by unfold setRelay; split <;> simp

@[simp] theorem setRelay_rc (v : Bool) (s : State) : (setRelay v s).rc = { s.rc with relay := v } := by
  unfold setRelay; split
  · rename_i h; rw [← h]
  · simp

@[simp] theorem setRelay_cfgDirty (v : Bool) (s : State) : (setRelay v s).cfgDirty = s.cfgDirty := by unfold setRelay; split <;> simp

@[simp] theorem setRelay_tCfg (v : Bool) (s : State) : (setRelay v s).tCfg = s.tCfg := by unfold setRelay; split <;> simp

@[simp] theorem setRelay_clock (v : Bool) (s : State) : (setRelay v s).clock = s.clock := by unfold setRelay; split <;> simp

@[simp] theorem setRelay_inputs (v : Bool) (s : State) : (setRelay v s).inputs = s.inputs := by unfold setRelay; split <;> simp

@[simp] theorem setRelay_events (v : Bool) (s : State) : (setRelay v s).events = s.events ++ (if s.rc.relay = v then [] else [.relay v]) := by unfold setRelay; split <;> simp

@[simp] theorem setRelay_ch (v : Bool) (s : State) (c : Chan) : (setRelay v s).ch c = s.ch c := by
  unfold setRelay; split
  · rfl
  · simp; cases c <;> rfl

@[simp] theorem workOn_cfg (i : Chan) (s : State) : (workOn i s).cfg = s.cfg := by simp [workOn]

@[simp] theorem workOn_nActive (i : Chan) (s : State) : (workOn i s).nActive = s.nActive := by simp [workOn]

@[simp] theorem workOn_ds (i : Chan) (s : State) : (workOn i s).ds = s.ds := by simp [workOn]

@[simp] theorem workOn_rc (i : Chan) (s : State) : (workOn i s).rc = { workMask := s.rc.workMask ||| maskBit i, owner := none, deadline := none, relay := true } := by simp [workOn]

@[simp] theorem workOn_cfgDirty (i : Chan) (s : State) : (workOn i s).cfgDirty = s.cfgDirty := by simp [workOn]

@[simp] theorem workOn_tCfg (i : Chan) (s : State) : (workOn i s).tCfg = s.tCfg := by simp [workOn]

@[simp] theorem workOn_clock (i : Chan) (s : State) : (workOn i s).clock = s.clock := by simp [workOn]

@[simp] theorem workOn_inputs (i : Chan) (s : State) : (workOn i s).inputs = s.inputs := by simp [workOn]

@[simp] theorem workOn_events (i : Chan) (s : State) : (workOn i s).events = s.events ++ (if s.rc.relay = true then [] else [.relay true]) := by
  simp only [workOn, setRelay_events]; rfl

@[simp] theorem workOn_ch (i : Chan) (s : State) (c : Chan) : (workOn i s).ch c = s.ch c := by
  simp [workOn]; cases c <;> rfl

@[simp] theorem workOff_cfg (i : Chan) (now : Nat) (s : State) : (workOff i now s).cfg = s.cfg := by simp only [workOff]; split <;> rfl

@[simp] theorem workOff_nActive (i : Chan) (now : Nat) (s : State) : (workOff i now s).nActive = s.nActive := by simp only [workOff]; split <;> rfl

@[simp] theorem workOff_ds (i : Chan) (now : Nat) (s : State) : (workOff i now s).ds = s.ds := by simp only [workOff]; split <;> rfl

@[simp] theorem workOff_rc (i : Chan) (now : Nat) (s : State) : (workOff i now s).rc = 
    (if s.rc.workMask ≠ 0#2 ∧ s.rc.workMask &&& ~~~ maskBit i = 0#2 ∧ s.rc.deadline = none then
      { s.rc with
        workMask := s.rc.workMask &&& ~~~ maskBit i
        owner := some i
        deadline := some (now + 1000 * s.ds.workDelayS.toNat) }
    else { s.rc with workMask := s.rc.workMask &&& ~~~ maskBit i }) := by
  simp only [workOff]; split <;> rfl

@[simp] theorem workOff_cfgDirty (i : Chan) (now : Nat) (s : State) : (workOff i now s).cfgDirty = s.cfgDirty := by simp only [workOff]; split <;> rfl

@[simp] theorem workOff_tCfg (i : Chan) (now : Nat) (s : State) : (workOff i now s).tCfg = s.tCfg := by simp only [workOff]; split <;> rfl

@[simp] theorem workOff_clock (i : Chan) (now : Nat) (s : State) : (workOff i now s).clock = s.clock := by simp only [workOff]; split <;> rfl

@[simp] theorem workOff_inputs (i : Chan) (now : Nat) (s : State) : (workOff i now s).inputs = s.inputs := by simp only [workOff]; split <;> rfl

@[simp] theorem workOff_events (i : Chan) (now : Nat) (s : State) : (workOff i now s).events = s.events := by simp only [workOff]; split <;> rfl

@[simp] theorem workOff_ch (i : Chan) (now : Nat) (s : State) (c : Chan) : (workOff i now s).ch c = s.ch c := by
  simp only [workOff]; split <;> cases c <;> rfl

@[simp] theorem relayEval_cfg (now : Nat) (s : State) : (relayEval now s).cfg = s.cfg := by
  unfold relayEval; split
  · simp
  · split
    · simp
    · split
      · split <;> simp
      · simp

@[simp] theorem relayEval_nActive (now : Nat) (s : State) : (relayEval now s).nActive = s.nActive := by
  unfold relayEval; split
  · simp
  · split
    · simp
    · split
      · split <;> simp
      · simp

@[simp] theorem relayEval_ds (now : Nat) (s : State) : (relayEval now s).ds = s.ds := by
  unfold relayEval; split
  · simp
  · split
    · simp
    · split
      · split <;> simp
      · simp

@[simp] theorem relayEval_cfgDirty (now : Nat) (s : State) : (relayEval now s).cfgDirty = s.cfgDirty := by
  unfold relayEval; split
  · simp
  · split
    · simp
    · split
      · split <;> simp
      · simp

@[simp] theorem relayEval_tCfg (now : Nat) (s : State) : (relayEval now s).tCfg = s.tCfg := by
  unfold relayEval; split
  · simp
  · split
    · simp
    · split
      · split <;> simp
      · simp

@[simp] theorem relayEval_clock (now : Nat) (s : State) : (relayEval now s).clock = s.clock := by
  unfold relayEval; split
  · simp
  · split
    · simp
    · split
      · split <;> simp
      · simp

@[simp] theorem relayEval_inputs (now : Nat) (s : State) : (relayEval now s).inputs = s.inputs := by
  unfold relayEval; split
  · simp
  · split
    · simp
    · split
      · split <;> simp
      · simp

@[simp] theorem relayEval_ch (now : Nat) (s : State) (c : Chan) : (relayEval now s).ch c = s.ch c := by
  unfold relayEval; split
  · simp
  · split
    · simp
    · split
      · split <;> simp
      · simp

@[simp] theorem retract_cfg (c : Chan) (s : State) : (retract c s).cfg = s.cfg := by simp only [retract]; split <;> simp

@[simp] theorem retract_nActive (c : Chan) (s : State) : (retract c s).nActive = s.nActive := by simp only [retract]; split <;> simp

@[simp] theorem retract_ds (c : Chan) (s : State) : (retract c s).ds = s.ds := by simp only [retract]; split <;> simp

@[simp] theorem retract_cfgDirty (c : Chan) (s : State) : (retract c s).cfgDirty = s.cfgDirty := by simp only [retract]; split <;> simp

@[simp] theorem retract_tCfg (c : Chan) (s : State) : (retract c s).tCfg = s.tCfg := by simp only [retract]; split <;> simp

@[simp] theorem retract_clock (c : Chan) (s : State) : (retract c s).clock = s.clock := by simp only [retract]; split <;> simp

@[simp] theorem retract_inputs (c : Chan) (s : State) : (retract c s).inputs = s.inputs := by simp only [retract]; split <;> simp

@[simp] theorem retract_events (c : Chan) (s : State) : (retract c s).events = s.events := by simp only [retract]; split <;> simp

@[simp] theorem retract_ch (c : Chan) (s : State) (d : Chan) : (retract c s).ch d = s.ch d := by
  simp only [retract]; split <;> cases d <;> rfl

/-! ### Writes and reads -/

@[simp] theorem writeField_cfg (n : WName) (v : Nat) (c : Chan) (now : Nat) (s : State) : (writeField n v c now s).cfg = s.cfg := by
  unfold writeField relayDrive; split
  · split <;> simp
  · rfl

@[simp] theorem writeField_nActive (n : WName) (v : Nat) (c : Chan) (now : Nat) (s : State) : (writeField n v c now s).nActive = s.nActive := by
  unfold writeField relayDrive; split
  · split <;> simp
  · rfl

@[simp] theorem writeField_ds (n : WName) (v : Nat) (c : Chan) (now : Nat) (s : State) : (writeField n v c now s).ds = storeField s.cfg.delayMaxS n v s.ds := by
  unfold writeField relayDrive; split
  · split <;> simp
  · rfl

@[simp] theorem writeField_cfgDirty (n : WName) (v : Nat) (c : Chan) (now : Nat) (s : State) : (writeField n v c now s).cfgDirty = s.cfgDirty := by
  unfold writeField relayDrive; split
  · split <;> simp
  · rfl

@[simp] theorem writeField_tCfg (n : WName) (v : Nat) (c : Chan) (now : Nat) (s : State) : (writeField n v c now s).tCfg = s.tCfg := by
  unfold writeField relayDrive; split
  · split <;> simp
  · rfl

@[simp] theorem writeField_clock (n : WName) (v : Nat) (c : Chan) (now : Nat) (s : State) : (writeField n v c now s).clock = s.clock := by
  unfold writeField relayDrive; split
  · split <;> simp
  · rfl

@[simp] theorem writeField_inputs (n : WName) (v : Nat) (c : Chan) (now : Nat) (s : State) : (writeField n v c now s).inputs = s.inputs := by
  unfold writeField relayDrive; split
  · split <;> simp
  · rfl

@[simp] theorem writeField_ch (n : WName) (v : Nat) (c : Chan) (now : Nat) (s : State) (d : Chan) :
    (writeField n v c now s).ch d = s.ch d := by
  unfold writeField relayDrive; split
  · split <;> simp
  · simp

/-- A write other than the work intake touches no relay state and emits nothing before its acknowledge. -/
theorem writeField_plain (n : WName) (v : Nat) (c : Chan) (now : Nat) (s : State) (h : n ≠ .workAct) :
    writeField n v c now s = storeDevice n v s := by simp [writeField, h]

theorem tableRead_eq (n : RName) (h : Hdr) (idx : List Byte) (s : State) :
    tableRead n h idx s = reply h.c h.src h.fid h.ctl (idx ++ valueBytes n.vw (valueOf n s.ds)) h.now s := rfl

/-! ### Running a row -/

/-- A write entry's meaning is its instruction's. -/
theorem runWrite_eq_exec (n : WName) (h : Hdr) (idx : List Byte) (v : Nat) (extra : List Byte) (s : State) :
    runWrite n h v s = exec (n.instr h idx v extra) s := by cases n <;> rfl

/-- A read entry's meaning is its instruction's. -/
theorem runRead_eq_exec (n : RName) (h : Hdr) (idx extra : List Byte) (s : State) :
    runRead n h idx s = exec (n.instr h idx extra) s := by cases n <;> rfl

/-- Running a row a frame selects is running its instruction. -/
theorem runFrame_eq_exec (sel : FrameSel) (h : Hdr) (data : List Byte) (s : State) :
    runFrame sel h data s = exec (sel.instr h data) s := by
  rcases sel with _ | _ | _ | _ | (_ | _ | ⟨n, k⟩) | ⟨n, k⟩ | _
  all_goals first
    | rfl
    | exact runWrite_eq_exec n h _ _ _ s
    | exact runRead_eq_exec n h _ _ s

/-- Running a row a byte selects is running its instruction. -/
theorem runByte_eq_exec (sel : ByteSel) (c : Chan) (b : Byte) (now : Nat) (s : State) :
    runByte sel c b now s = exec (sel.instr c b now) s := by cases sel <;> rfl

theorem runWrite_eq (n : WName) (h : Hdr) (v : Nat) (hv : v < 256 ^ n.vw) (s : State) :
    runWrite n h v s = .next (tableWrite n h v s) := by
  cases n <;>
    simp_all [runWrite, WName.vw, execWSuctionLevel, execWSelectFlow, execWWorkAct, execWStandAct, execWWorkDelay,
      execWStandDelay, execWPedalAct, execWPedalMode, execWFilterStatus, execWFilterSat, execWConnectedPedal,
      execWContSuction, execWUsbConnect, execWStationError, Nat.mod_eq_of_lt]

theorem runRead_eq (n : RName) (h : Hdr) (idx : List Byte) (s : State) :
    runRead n h idx s = .next (tableRead n h idx s) := by cases n <;> rfl

/-- The value operand of a frame fits its width. -/
theorem valueAt_lt (n : WName) (k : Nat) (data : List Byte) : valueAt n.vw k data < 256 ^ n.vw := by
  have h0 := (data.getD k 0).isLt
  have h1 := (data.getD (k + 1) 0).isLt
  cases n <;> simp only [valueAt, WName.vw, u16le] <;> simp <;> simp at h0 h1 <;> omega

/-! ### The dispatcher -/

/-- What no frame-level row and no idle touch changes: the sequencer, the decoder, the buffer, the bit-level receiver,
the timestamps of reception and of the SYN, the other channel, and the environment's side. -/
structure DispatchKeeps (c : Chan) (s t : State) : Prop where
  hs : (t.ch c).hs = (s.ch c).hs
  dec : (t.ch c).dec = (s.ch c).dec
  esc : (t.ch c).esc = (s.ch c).esc
  n : (t.ch c).n = (s.ch c).n
  buf : (t.ch c).buf = (s.ch c).buf
  uart : (t.ch c).uart = (s.ch c).uart
  tRx : (t.ch c).tRx = (s.ch c).tRx
  tSyn : (t.ch c).tSyn = (s.ch c).tSyn
  synValid : (t.ch c).synValid = (s.ch c).synValid
  other : ∀ d, d ≠ c → t.ch d = s.ch d
  cfg : t.cfg = s.cfg
  nActive : t.nActive = s.nActive
  clock : t.clock = s.clock
  inputs : t.inputs = s.inputs

theorem DispatchKeeps.refl (c : Chan) (s : State) : DispatchKeeps c s s := by
  constructor <;> intros <;> rfl

theorem DispatchKeeps.trans {c : Chan} {s t u : State} (h : DispatchKeeps c s t) (k : DispatchKeeps c t u) :
    DispatchKeeps c s u where
  hs := k.hs.trans h.hs
  dec := k.dec.trans h.dec
  esc := k.esc.trans h.esc
  n := k.n.trans h.n
  buf := k.buf.trans h.buf
  uart := k.uart.trans h.uart
  tRx := k.tRx.trans h.tRx
  tSyn := k.tSyn.trans h.tSyn
  synValid := k.synValid.trans h.synValid
  other := fun d hd => (k.other d hd).trans (h.other d hd)
  cfg := k.cfg.trans h.cfg
  nActive := k.nActive.trans h.nActive
  clock := k.clock.trans h.clock
  inputs := k.inputs.trans h.inputs

theorem reply_keeps (c : Chan) (dst fid ctl : Byte) (data : List Byte) (now : Nat) (s : State) :
    DispatchKeeps c s (reply c dst fid ctl data now s) := by
  constructor <;> first | exact fun d hd => reply_ch_other _ _ _ _ _ _ _ _ hd | simp

theorem setLink_keeps (c : Chan) (v : Link) (s : State) : DispatchKeeps c s (setLink c v s) := by
  constructor <;> first | exact fun d hd => setLink_ch_other _ _ _ _ hd | simp

theorem storeIdentity_keeps (c : Chan) (data : List Byte) (s : State) : DispatchKeeps c s (storeIdentity c data s) := by
  constructor <;> first | exact fun d hd => storeIdentity_ch_other _ _ _ _ hd | simp

theorem noteHandshake_keeps (c : Chan) (src : Byte) (s : State) : DispatchKeeps c s (noteHandshake c src s) := by
  constructor <;> first | exact fun d hd => noteHandshake_ch_other _ _ _ _ hd | simp

theorem adoptAddress_keeps (c : Chan) (dst : Byte) (s : State) : DispatchKeeps c s (adoptAddress c dst s) := by
  constructor
  all_goals first
    | exact fun d hd => adoptAddress_ch_other _ _ _ _ hd
    | (unfold adoptAddress; split <;> simp)

theorem touchFor_keeps (c : Chan) (f : Frame) (now : Nat) (s : State) : DispatchKeeps c s (touchFor c f now s) := by
  rcases touchFor_cases c f now s with h | h <;> rw [h]
  · exact .refl c s
  · constructor <;> first | exact fun d hd => setCh_ch_other _ _ _ _ hd | simp

theorem tableWrite_keeps (n : WName) (h : Hdr) (v : Nat) (s : State) : DispatchKeeps h.c s (tableWrite n h v s) := by
  constructor <;>
    first
      | exact fun d hd => by simp [tableWrite, ack_eq, reply_ch_other _ _ _ _ _ _ _ _ hd]
      | simp [tableWrite, ack_eq]

/-- A frame-level row always answers a next state, and keeps what `DispatchKeeps` names. -/
theorem runFrame_next (sel : FrameSel) (h : Hdr) (data : List Byte) (s : State) :
    ∃ t, runFrame sel h data s = .next t ∧ DispatchKeeps h.c s t := by
  rcases sel with _ | _ | _ | _ | (_ | _ | ⟨n, k⟩) | ⟨n, k⟩ | _
  · exact ⟨_, rfl, ((adoptAddress_keeps ..).trans (noteHandshake_keeps ..)).trans (reply_keeps ..)⟩
  · exact ⟨_, rfl, .refl ..⟩
  · exact ⟨_, rfl, (reply_keeps ..).trans (setLink_keeps ..)⟩
  · exact ⟨_, rfl, (reply_keeps ..).trans (setLink_keeps ..)⟩
  · exact ⟨_, rfl, (storeIdentity_keeps ..).trans (reply_keeps ..)⟩
  · exact ⟨_, rfl, reply_keeps ..⟩
  · exact ⟨_, runWrite_eq n h _ (valueAt_lt n k data) s, tableWrite_keeps ..⟩
  · exact ⟨_, runRead_eq n h _ s, reply_keeps ..⟩
  · exact ⟨_, rfl, .refl ..⟩

/-- Dispatching a frame always answers a next state, and keeps what `DispatchKeeps` names. -/
theorem dispatch_next (c : Chan) (f : Frame) (now : Nat) (s : State) :
    ∃ t, dispatch c f now s = .next t ∧ DispatchKeeps c s t := by
  obtain ⟨t, h1, h2⟩ := runFrame_next (selectFrame s.cfg (s.ch c).addr f) (f.hdr c now) f.data (touchFor c f now s)
  exact ⟨t, h1, (touchFor_keeps c f now s).trans h2⟩

/-! ### The decoder's two completion paths -/

/-- Everything the completion test can do. -/
theorem checkComplete_cases (c : Chan) (now : Nat) (s : State) :
    (atNeed s c = false ∧ checkComplete c now s = .next s)
    ∨ (atNeed s c = true ∧ verify (bufBytes s c) = true
        ∧ checkComplete c now s = dispatch c (frameOf (bufBytes s c)) now s)
    ∨ (atNeed s c = true ∧ verify (bufBytes s c) = false
        ∧ checkComplete c now s = .next (raise c .checksumMismatch s)) := by
  unfold checkComplete
  cases h1 : atNeed s c <;> cases h2 : verify (bufBytes s c) <;> simp

/-- Everything an append can do. -/
theorem appendByte_cases (c : Chan) (v : Byte) (now : Nat) (s : State) :
    (s.cfg.bufCap ≤ (s.ch c).n ∧ appendByte c v now s = .next (raise c .overflow s))
    ∨ ((s.ch c).n < s.cfg.bufCap ∧ appendByte c v now s = checkComplete c now (pushByte c v s)) := by
  unfold appendByte
  split
  · exact Or.inl ⟨by assumption, rfl⟩
  · exact Or.inr ⟨by omega, rfl⟩

/-- Everything a best-effort flush can do. -/
theorem flushBestEffort_cases (c : Chan) (now : Nat) (s : State) :
    ((complete s c = true ∨ (s.ch c).n < 6) ∧ flushBestEffort c now s = .next s)
    ∨ (complete s c = false ∧ 6 ≤ (s.ch c).n ∧ verify (bufBytes s c) = true
        ∧ flushBestEffort c now s = dispatch c (frameOf (bufBytes s c)) now s)
    ∨ (complete s c = false ∧ 6 ≤ (s.ch c).n ∧ verify (bufBytes s c) = false
        ∧ flushBestEffort c now s = .next (report c .checksumMismatch s)) := by
  unfold flushBestEffort
  cases h1 : complete s c
  · by_cases h2 : 6 ≤ (s.ch c).n
    · cases h3 : verify (bufBytes s c) <;> simp [h2]
    · simp [h2]; omega
  · simp

end Sys2Proof.Machine
end

