-- ==== Sys2Proof/Laws/PerInstr.lean ====
section
/-! SUPPORT. The per-instruction family `EncodedLength`: how many bytes each instruction's encoding has. -/

namespace Sys2Proof

/-- The encoding of a byte-level instruction is one byte (R101, R111), of a frame-level one six bytes and its data
(R104), of a transition without input or a step nothing (R110, R120). -/
def Laws.EncodedLength.Statement (i : Instr) : Prop :=
  ∀ cfg : Cfg, (encode cfg i).length =
    match i.frame? with
    | some f => 6 + f.data.length
    | none => if i.arrival.isSome then 1 else 0

theorem Laws.EncodedLength.hsMarker (c : Chan) :
    Laws.EncodedLength.Statement (.hsMarker c) := fun _ => rfl

theorem Laws.EncodedLength.hsNak (c : Chan) :
    Laws.EncodedLength.Statement (.hsNak c) := fun _ => rfl

theorem Laws.EncodedLength.hsAck (c : Chan) :
    Laws.EncodedLength.Statement (.hsAck c) := fun _ => rfl

theorem Laws.EncodedLength.hsSoh (c : Chan) :
    Laws.EncodedLength.Statement (.hsSoh c) := fun _ => rfl

theorem Laws.EncodedLength.hsNakRestart (c : Chan) :
    Laws.EncodedLength.Statement (.hsNakRestart c) := fun _ => rfl

theorem Laws.EncodedLength.hsOther (c : Chan) (b : Byte) :
    Laws.EncodedLength.Statement (.hsOther c b) := fun _ => rfl

theorem Laws.EncodedLength.hsSyn (c : Chan) (now : Nat) :
    Laws.EncodedLength.Statement (.hsSyn c now) := fun _ => rfl

theorem Laws.EncodedLength.hsAck2 (c : Chan) :
    Laws.EncodedLength.Statement (.hsAck2 c) := fun _ => rfl

theorem Laws.EncodedLength.hsAck3 (c : Chan) :
    Laws.EncodedLength.Statement (.hsAck3 c) := fun _ => rfl

theorem Laws.EncodedLength.decAmMarker (c : Chan) :
    Laws.EncodedLength.Statement (.decAmMarker c) := fun _ => rfl

theorem Laws.EncodedLength.decAmOther (c : Chan) (b : Byte) :
    Laws.EncodedLength.Statement (.decAmOther c b) := fun _ => rfl

theorem Laws.EncodedLength.decAsStart (c : Chan) :
    Laws.EncodedLength.Statement (.decAsStart c) := fun _ => rfl

theorem Laws.EncodedLength.decAsMarker (c : Chan) :
    Laws.EncodedLength.Statement (.decAsMarker c) := fun _ => rfl

theorem Laws.EncodedLength.decAsOther (c : Chan) (b : Byte) :
    Laws.EncodedLength.Statement (.decAsOther c b) := fun _ => rfl

theorem Laws.EncodedLength.decIfMarker (c : Chan) :
    Laws.EncodedLength.Statement (.decIfMarker c) := fun _ => rfl

theorem Laws.EncodedLength.decIfData (c : Chan) (b : Byte) (now : Nat) :
    Laws.EncodedLength.Statement (.decIfData c b now) := fun _ => rfl

theorem Laws.EncodedLength.decEscMarker (c : Chan) (now : Nat) :
    Laws.EncodedLength.Statement (.decEscMarker c now) := fun _ => rfl

theorem Laws.EncodedLength.decEscEnd (c : Chan) (now : Nat) :
    Laws.EncodedLength.Statement (.decEscEnd c now) := fun _ => rfl

theorem Laws.EncodedLength.decEscStart (c : Chan) (now : Nat) :
    Laws.EncodedLength.Statement (.decEscStart c now) := fun _ => rfl

theorem Laws.EncodedLength.decEscOther (c : Chan) (b : Byte) :
    Laws.EncodedLength.Statement (.decEscOther c b) := fun _ => rfl

theorem Laws.EncodedLength.frmHs (h : Hdr) (data : List Byte) :
    Laws.EncodedLength.Statement (.frmHs h data) := fun _ => frameBytes_length ..

theorem Laws.EncodedLength.frmNotForUs (h : Hdr) (data : List Byte) :
    Laws.EncodedLength.Statement (.frmNotForUs h data) := fun _ => frameBytes_length ..

theorem Laws.EncodedLength.frmFwId (h : Hdr) (data : List Byte) :
    Laws.EncodedLength.Statement (.frmFwId h data) := fun _ => frameBytes_length ..

theorem Laws.EncodedLength.frmIdRead (h : Hdr) (data : List Byte) :
    Laws.EncodedLength.Statement (.frmIdRead h data) := fun _ => frameBytes_length ..

theorem Laws.EncodedLength.frmIdWrite (h : Hdr) (data : List Byte) :
    Laws.EncodedLength.Statement (.frmIdWrite h data) := fun _ => frameBytes_length ..

theorem Laws.EncodedLength.frmFwNop (h : Hdr) (data : List Byte) :
    Laws.EncodedLength.Statement (.frmFwNop h data) := fun _ => frameBytes_length ..

theorem Laws.EncodedLength.wSuctionLevel (h : Hdr) (idx : List Byte) (v : Byte) (extra : List Byte) :
    Laws.EncodedLength.Statement (.wSuctionLevel h idx v extra) := fun _ => frameBytes_length ..

theorem Laws.EncodedLength.wSelectFlow (h : Hdr) (idx : List Byte) (v : Word16) (extra : List Byte) :
    Laws.EncodedLength.Statement (.wSelectFlow h idx v extra) := fun _ => frameBytes_length ..

theorem Laws.EncodedLength.wWorkAct (h : Hdr) (idx : List Byte) (v : Byte) (extra : List Byte) :
    Laws.EncodedLength.Statement (.wWorkAct h idx v extra) := fun _ => frameBytes_length ..

theorem Laws.EncodedLength.wStandAct (h : Hdr) (idx : List Byte) (v : Byte) (extra : List Byte) :
    Laws.EncodedLength.Statement (.wStandAct h idx v extra) := fun _ => frameBytes_length ..

theorem Laws.EncodedLength.wWorkDelay (h : Hdr) (idx : List Byte) (v : Word16) (extra : List Byte) :
    Laws.EncodedLength.Statement (.wWorkDelay h idx v extra) := fun _ => frameBytes_length ..

theorem Laws.EncodedLength.wStandDelay (h : Hdr) (idx : List Byte) (v : Word16) (extra : List Byte) :
    Laws.EncodedLength.Statement (.wStandDelay h idx v extra) := fun _ => frameBytes_length ..

theorem Laws.EncodedLength.wPedalAct (h : Hdr) (idx : List Byte) (v : Byte) (extra : List Byte) :
    Laws.EncodedLength.Statement (.wPedalAct h idx v extra) := fun _ => frameBytes_length ..

theorem Laws.EncodedLength.wPedalMode (h : Hdr) (idx : List Byte) (v : Byte) (extra : List Byte) :
    Laws.EncodedLength.Statement (.wPedalMode h idx v extra) := fun _ => frameBytes_length ..

theorem Laws.EncodedLength.wFilterStatus (h : Hdr) (idx : List Byte) (v : Word16) (extra : List Byte) :
    Laws.EncodedLength.Statement (.wFilterStatus h idx v extra) := fun _ => frameBytes_length ..

theorem Laws.EncodedLength.wFilterSat (h : Hdr) (idx : List Byte) (v : Word16) (extra : List Byte) :
    Laws.EncodedLength.Statement (.wFilterSat h idx v extra) := fun _ => frameBytes_length ..

theorem Laws.EncodedLength.wConnectedPedal (h : Hdr) (idx : List Byte) (v : Byte) (extra : List Byte) :
    Laws.EncodedLength.Statement (.wConnectedPedal h idx v extra) := fun _ => frameBytes_length ..

theorem Laws.EncodedLength.wContSuction (h : Hdr) (idx : List Byte) (v : Byte) (extra : List Byte) :
    Laws.EncodedLength.Statement (.wContSuction h idx v extra) := fun _ => frameBytes_length ..

theorem Laws.EncodedLength.wUsbConnect (h : Hdr) (idx : List Byte) (v : Byte) (extra : List Byte) :
    Laws.EncodedLength.Statement (.wUsbConnect h idx v extra) := fun _ => frameBytes_length ..

theorem Laws.EncodedLength.wStationError (h : Hdr) (idx : List Byte) (v : Word16) (extra : List Byte) :
    Laws.EncodedLength.Statement (.wStationError h idx v extra) := fun _ => frameBytes_length ..

theorem Laws.EncodedLength.rSuctionLevel (h : Hdr) (idx : List Byte) (extra : List Byte) :
    Laws.EncodedLength.Statement (.rSuctionLevel h idx extra) := fun _ => frameBytes_length ..

theorem Laws.EncodedLength.rFlow (h : Hdr) (idx : List Byte) (extra : List Byte) :
    Laws.EncodedLength.Statement (.rFlow h idx extra) := fun _ => frameBytes_length ..

theorem Laws.EncodedLength.rSpeed (h : Hdr) (idx : List Byte) (extra : List Byte) :
    Laws.EncodedLength.Statement (.rSpeed h idx extra) := fun _ => frameBytes_length ..

theorem Laws.EncodedLength.rSelectFlow (h : Hdr) (idx : List Byte) (extra : List Byte) :
    Laws.EncodedLength.Statement (.rSelectFlow h idx extra) := fun _ => frameBytes_length ..

theorem Laws.EncodedLength.rWorkAct (h : Hdr) (idx : List Byte) (extra : List Byte) :
    Laws.EncodedLength.Statement (.rWorkAct h idx extra) := fun _ => frameBytes_length ..

theorem Laws.EncodedLength.rStandAct (h : Hdr) (idx : List Byte) (extra : List Byte) :
    Laws.EncodedLength.Statement (.rStandAct h idx extra) := fun _ => frameBytes_length ..

theorem Laws.EncodedLength.rWorkDelay (h : Hdr) (idx : List Byte) (extra : List Byte) :
    Laws.EncodedLength.Statement (.rWorkDelay h idx extra) := fun _ => frameBytes_length ..

theorem Laws.EncodedLength.rStandDelay (h : Hdr) (idx : List Byte) (extra : List Byte) :
    Laws.EncodedLength.Statement (.rStandDelay h idx extra) := fun _ => frameBytes_length ..

theorem Laws.EncodedLength.rWorkAfterrunMs (h : Hdr) (idx : List Byte) (extra : List Byte) :
    Laws.EncodedLength.Statement (.rWorkAfterrunMs h idx extra) := fun _ => frameBytes_length ..

theorem Laws.EncodedLength.rStandAfterrunMs (h : Hdr) (idx : List Byte) (extra : List Byte) :
    Laws.EncodedLength.Statement (.rStandAfterrunMs h idx extra) := fun _ => frameBytes_length ..

theorem Laws.EncodedLength.rPedalAct (h : Hdr) (idx : List Byte) (extra : List Byte) :
    Laws.EncodedLength.Statement (.rPedalAct h idx extra) := fun _ => frameBytes_length ..

theorem Laws.EncodedLength.rPedalMode (h : Hdr) (idx : List Byte) (extra : List Byte) :
    Laws.EncodedLength.Statement (.rPedalMode h idx extra) := fun _ => frameBytes_length ..

theorem Laws.EncodedLength.rFilterStatus (h : Hdr) (idx : List Byte) (extra : List Byte) :
    Laws.EncodedLength.Statement (.rFilterStatus h idx extra) := fun _ => frameBytes_length ..

theorem Laws.EncodedLength.rFilterSat (h : Hdr) (idx : List Byte) (extra : List Byte) :
    Laws.EncodedLength.Statement (.rFilterSat h idx extra) := fun _ => frameBytes_length ..

theorem Laws.EncodedLength.rConnectedPedal (h : Hdr) (idx : List Byte) (extra : List Byte) :
    Laws.EncodedLength.Statement (.rConnectedPedal h idx extra) := fun _ => frameBytes_length ..

theorem Laws.EncodedLength.rContSuction (h : Hdr) (idx : List Byte) (extra : List Byte) :
    Laws.EncodedLength.Statement (.rContSuction h idx extra) := fun _ => frameBytes_length ..

theorem Laws.EncodedLength.rUsbConnect (h : Hdr) (idx : List Byte) (extra : List Byte) :
    Laws.EncodedLength.Statement (.rUsbConnect h idx extra) := fun _ => frameBytes_length ..

theorem Laws.EncodedLength.rStationError (h : Hdr) (idx : List Byte) (extra : List Byte) :
    Laws.EncodedLength.Statement (.rStationError h idx extra) := fun _ => frameBytes_length ..

theorem Laws.EncodedLength.frmUnknown (h : Hdr) (data : List Byte) :
    Laws.EncodedLength.Statement (.frmUnknown h data) := fun _ => frameBytes_length ..

theorem Laws.EncodedLength.reset (t0 : Nat) :
    Laws.EncodedLength.Statement (.reset t0) := fun _ => rfl

theorem Laws.EncodedLength.rx (c : Chan) (b : Byte) (now : Nat) :
    Laws.EncodedLength.Statement (.rx c b now) := fun _ => rfl

theorem Laws.EncodedLength.poll (now : Nat) :
    Laws.EncodedLength.Statement (.poll now) := fun _ => rfl

theorem Laws.EncodedLength.adminWrite (c : Chan) (ctl : Byte) (data : List Byte) (now : Nat) :
    Laws.EncodedLength.Statement (.adminWrite c ctl data now) := fun _ => rfl

theorem Laws.EncodedLength.adminForceErrorMask (v : Word16) (now : Nat) :
    Laws.EncodedLength.Statement (.adminForceErrorMask v now) := fun _ => rfl

theorem Laws.EncodedLength.adminSetActiveCount (k : Nat) (now : Nat) :
    Laws.EncodedLength.Statement (.adminSetActiveCount k now) := fun _ => rfl

theorem Laws.EncodedLength.adminSetTelemetry (field : Telemetry) (v : Word16) (now : Nat) :
    Laws.EncodedLength.Statement (.adminSetTelemetry field v now) := fun _ => rfl

theorem Laws.EncodedLength.adminWipePersistence (now : Nat) :
    Laws.EncodedLength.Statement (.adminWipePersistence now) := fun _ => rfl

end Sys2Proof
end

