-- ==== Sys2Proof/Tests/Slice0.lean ====
section
/-! SUPPORT. Small checks: ill-formed terms that well-formedness refuses, words written out from the encoding tables and
what they decode to, one step of each instruction against the spec's own examples (the rule is named at each), and a
witness for the hypotheses of every statement that has some. -/

open Sys2Proof Sys2Proof.Machine

namespace Sys2Proof.Tests

/-! ### Helpers -/

/-- The state an answer carries; the reset state where it carries none. -/
def after (r : Res) : State :=
  match r with
  | .next s => s
  | .fault _ => State.reset
  | .refused _ => State.reset

/-- A frame header on channel 0 at time 7. -/
def hdr (src dst fid ctl : Byte) : Hdr := ⟨.c0, src, dst, fid, ctl, 7⟩

/-- The header the spec's examples use: peer 05 to address 01 under the application frame-id. -/
def app (ctl : Byte) : Hdr := hdr 0x05#8 0x01#8 0x0A#8 ctl

/-- The reset state with channel 0 changed. -/
def on0 (f : Channel → Channel) : State := State.reset.setCh .c0 (f State.reset.ch0)

/-- Channel 0 in a sequencer state. -/
def inHs (hs : HsState) : State := on0 fun x => { x with hs := hs }

/-- Channel 0 in frame mode with a decoder state. -/
def inDec (dec : DecState) : State := on0 fun x => { x with hs := .frameModeActive, dec := dec }

/-- Channel 0 inside a frame with these bytes buffered. -/
def inFrame (esc : Bool) (x : List Byte) : State :=
  on0 fun r => { r with
    hs := .frameModeActive, dec := .inFrame, esc := esc, buf := Memory.writeBytes [] 0 x, n := x.length }

/-- The reset state with one field of Device State changed. -/
def withDs (f : Device → Device) : State := { State.reset with ds := f State.reset.ds }

/-- The reset state with another relay state. -/
def withRc (rc : RelayState) : State := { State.reset with rc := rc }

/-- The reset state with one input pending. -/
def pending (x : Input) : State := { State.reset with inputs := [x] }

/-- The context of channel 0 in a sequencer and decoder state, under the reference configuration. -/
def ctxAt (hs : HsState) (dec : DecState) (esc : Bool) : Ctx := ⟨refCfg, 2, 0x01#8, hs, dec, esc⟩

/-- A channel outside frame mode. -/
def ctx0 : Ctx := ctxAt .idle .awaitMarker false

/-! ### Well-formedness refuses -/

theorem test_device_range :
    refDevice.inRange 65535 = true
    ∧ Device.inRange 65535 { refDevice with suctionLevel := 4#8 } = false
    ∧ Device.inRange 65535 { refDevice with selectFlow := 1001#16 } = false
    ∧ Device.inRange 10 { refDevice with workDelayS := 11#16 } = false
    ∧ Device.inRange 10 { refDevice with standDelayS := 11#16 } = false
    ∧ Device.inRange 65535 { refDevice with filterLife := 1001#16 } = false
    ∧ Device.inRange 65535 { refDevice with filterSat := 1001#16 } = false := by decide

theorem test_legal_addr :
    legalAddr 0x01#8 = true ∧ legalAddr 0xFE#8 = true ∧ legalAddr 0x00#8 = false ∧ legalAddr 0xFF#8 = false := by decide

theorem test_cfg_accepts_reference : refCfg.wf = true := by decide

theorem test_cfg_refuses_bytes :
    Cfg.wf { refCfg with bNak := 0x16#8 } = false
    ∧ Cfg.wf { refCfg with bAck := 0x01#8 } = false
    ∧ Cfg.wf { refCfg with bSyn := 0x10#8 } = false
    ∧ Cfg.wf { refCfg with fidApp := 0xFD#8 } = false := by decide

theorem test_cfg_refuses_codes :
    Cfg.wf { refCfg with ccFwId := 0x30#8 } = false
    ∧ Cfg.wf { refCfg with fwNopCodes := [0x20#8, 0x20#8] } = false
    ∧ Cfg.wf { refCfg with ccTable := refTable.drop 1 } = false
    ∧ Cfg.wf { refCfg with ccTable := ⟨.r .flow, 0x50#8, 0⟩ :: refTable.drop 1 } = false := by decide

theorem test_cfg_refuses_bounds :
    Cfg.wf { refCfg with bufCap := 5 } = false
    ∧ Cfg.wf { refCfg with tInact := 0 } = false
    ∧ Cfg.wf { refCfg with nActiveInit := 3 } = false
    ∧ Cfg.wf { refCfg with nActiveInit := 0 } = false
    ∧ Cfg.wf { refCfg with addrInit0 := 0xFF#8 } = false
    ∧ Cfg.wf { refCfg with addrInit1 := 0x00#8 } = false
    ∧ Cfg.wf { refCfg with dsInit := { refDevice with suctionLevel := 4#8 } } = false := by decide

theorem test_cfg_refuses_lengths :
    Cfg.wf { refCfg with fwString := List.replicate 65 0#8 } = false
    ∧ Cfg.wf { refCfg with identityInit0 := List.replicate 65 0#8 } = false
    ∧ Cfg.wf { refCfg with identityInit1 := List.replicate 65 0#8 } = false := by decide

theorem test_wellFormed_refuses_handshake :
    WellFormed (ctxAt .frameModeActive .awaitMarker false) (.hsMarker .c0) = false
    ∧ WellFormed (ctxAt .sentSyn .awaitMarker false) (.hsNak .c0) = false
    ∧ WellFormed ctx0 (.hsAck .c0) = false ∧ WellFormed ctx0 (.hsSoh .c0) = false
    ∧ WellFormed (ctxAt .sentSyn .awaitMarker false) (.hsNakRestart .c0) = false
    ∧ WellFormed ctx0 (.hsOther .c0 0x10#8) = false ∧ WellFormed ctx0 (.hsOther .c0 0x15#8) = false
    ∧ WellFormed (ctxAt .sentSyn .awaitMarker false) (.hsOther .c0 0x06#8) = false
    ∧ WellFormed (ctxAt .sentAck2 .awaitMarker false) (.hsOther .c0 0x01#8) = false
    ∧ WellFormed ctx0 (.hsSyn .c0 0) = false ∧ WellFormed ctx0 (.hsAck2 .c0) = false
    ∧ WellFormed ctx0 (.hsAck3 .c0) = false := by decide

theorem test_wellFormed_refuses_decoder :
    WellFormed ctx0 (.decAmMarker .c0) = false
    ∧ WellFormed (ctxAt .frameModeActive .awaitMarker false) (.decAmOther .c0 0x10#8) = false
    ∧ WellFormed (ctxAt .frameModeActive .awaitMarker false) (.decAsStart .c0) = false
    ∧ WellFormed (ctxAt .frameModeActive .inFrame false) (.decAsMarker .c0) = false
    ∧ WellFormed (ctxAt .frameModeActive .awaitStart false) (.decAsOther .c0 0x02#8) = false
    ∧ WellFormed (ctxAt .frameModeActive .inFrame true) (.decIfMarker .c0) = false
    ∧ WellFormed (ctxAt .frameModeActive .inFrame false) (.decIfData .c0 0x10#8 0) = false
    ∧ WellFormed (ctxAt .frameModeActive .inFrame false) (.decEscMarker .c0 0) = false
    ∧ WellFormed (ctxAt .frameModeActive .inFrame false) (.decEscEnd .c0 0) = false
    ∧ WellFormed (ctxAt .frameModeActive .inFrame false) (.decEscStart .c0 0) = false
    ∧ WellFormed (ctxAt .frameModeActive .inFrame true) (.decEscOther .c0 0x03#8) = false := by decide

theorem test_wellFormed_refuses_frames :
    WellFormed ctx0 (.frmHs (app 0x00#8) []) = false
    ∧ WellFormed ctx0 (.frmNotForUs (app 0x21#8) []) = false
    ∧ WellFormed ctx0 (.frmFwId (hdr 0x05#8 0x01#8 0x77#8 0x21#8) []) = false
    ∧ WellFormed ctx0 (.frmIdRead (app 0x21#8) []) = false
    ∧ WellFormed ctx0 (.frmIdWrite (hdr 0x05#8 0x07#8 0x0A#8 0x1F#8) []) = false
    ∧ WellFormed ctx0 (.frmFwNop (app 0x21#8) []) = false
    ∧ WellFormed ctx0 (.frmUnknown (app 0x30#8) []) = false
    ∧ WellFormed ctx0 (.frmUnknown (app 0x21#8) []) = false := by decide

theorem test_wellFormed_refuses_entries :
    WellFormed ctx0 (.wSuctionLevel (app 0x35#8) [] 1#8 []) = false
    ∧ WellFormed ctx0 (.wWorkAct (app 0x37#8) [] 1#8 []) = false
    ∧ WellFormed ctx0 (.rFlow (hdr 0x05#8 0x07#8 0x0A#8 0x32#8) [] []) = false
    ∧ WellFormed ctx0 (.rWorkDelay (app 0x3A#8) [1#8, 2#8] []) = false := by decide

theorem test_wellFormed_refuses_long :
    WellFormed ctx0 (.frmHs (hdr 0x05#8 0x42#8 0xFD#8 0x00#8) (List.replicate 256 0#8)) = false
    ∧ WellFormed ctx0 (.wSelectFlow (app 0x35#8) [] 1#16 (List.replicate 254 0#8)) = false
    ∧ WellFormed ctx0 (.rSpeed (app 0x33#8) [] (List.replicate 256 0#8)) = false := by
  simp only [WellFormed, dataFits, Ctx.selectsEntry, List.length_replicate]
  decide

theorem test_wellFormed_refuses_operator :
    WellFormed { ctx0 with nActive := 1 } (.adminWrite .c1 0x31#8 [1#8] 0) = false
    ∧ WellFormed ctx0 (.adminSetActiveCount 3 0) = false := by decide

/-! ### Decoding words written out from the encoding tables -/

/-- R110, pre-frame bytes. -/
theorem test_decode_preFrame :
    decode ctx0 .c0 7 [0x10#8] = .ok (.hsMarker .c0)
    ∧ decode ctx0 .c0 7 [0x15#8] = .ok (.hsNak .c0)
    ∧ decode (ctxAt .sentSyn .awaitMarker false) .c0 7 [0x06#8] = .ok (.hsAck .c0)
    ∧ decode (ctxAt .sentAck2 .awaitMarker false) .c0 7 [0x01#8] = .ok (.hsSoh .c0)
    ∧ decode { ctxAt .sentSyn .awaitMarker false with cfg := { refCfg with hsNakRestart := true } } .c0 7 [0x15#8]
        = .ok (.hsNakRestart .c0)
    ∧ decode (ctxAt .sentSyn .awaitMarker false) .c0 7 [0x15#8] = .ok (.hsOther .c0 0x15#8) := ⟨rfl, rfl, rfl, rfl, rfl, rfl⟩

/-- R111, bytes in frame mode. -/
theorem test_decode_frameMode :
    decode (ctxAt .frameModeActive .awaitMarker false) .c0 7 [0x10#8] = .ok (.decAmMarker .c0)
    ∧ decode (ctxAt .frameModeActive .awaitMarker false) .c0 7 [0x15#8] = .ok (.decAmOther .c0 0x15#8)
    ∧ decode (ctxAt .frameModeActive .awaitStart false) .c0 7 [0x02#8] = .ok (.decAsStart .c0)
    ∧ decode (ctxAt .frameModeActive .awaitStart false) .c0 7 [0x10#8] = .ok (.decAsMarker .c0)
    ∧ decode (ctxAt .frameModeActive .awaitStart false) .c0 7 [0x03#8] = .ok (.decAsOther .c0 0x03#8) :=
  ⟨rfl, rfl, rfl, rfl, rfl⟩

theorem test_decode_inFrame :
    decode (ctxAt .frameModeActive .inFrame false) .c0 7 [0x10#8] = .ok (.decIfMarker .c0)
    ∧ decode (ctxAt .frameModeActive .inFrame false) .c0 7 [0x02#8] = .ok (.decIfData .c0 0x02#8 7)
    ∧ decode (ctxAt .frameModeActive .inFrame true) .c0 7 [0x10#8] = .ok (.decEscMarker .c0 7)
    ∧ decode (ctxAt .frameModeActive .inFrame true) .c0 7 [0x03#8] = .ok (.decEscEnd .c0 7)
    ∧ decode (ctxAt .frameModeActive .inFrame true) .c0 7 [0x02#8] = .ok (.decEscStart .c0 7)
    ∧ decode (ctxAt .frameModeActive .inFrame true) .c0 7 [0x55#8] = .ok (.decEscOther .c0 0x55#8) :=
  ⟨rfl, rfl, rfl, rfl, rfl, rfl⟩

/-- R114 rows 1 to 6 and 9. -/
theorem test_decode_frames :
    decode ctx0 .c0 7 [0x05#8, 0x42#8, 0xFD#8, 0x00#8, 0x00#8, 0xBB#8]
        = .ok (.frmHs (hdr 0x05#8 0x42#8 0xFD#8 0x00#8) [])
    ∧ decode ctx0 .c0 7 [0x05#8, 0x07#8, 0x0A#8, 0x21#8, 0x00#8, 0x28#8]
        = .ok (.frmNotForUs (hdr 0x05#8 0x07#8 0x0A#8 0x21#8) [])
    ∧ decode ctx0 .c0 7 [0x05#8, 0x01#8, 0x0A#8, 0x21#8, 0x00#8, 0x2E#8]
        = .ok (.frmFwId (app 0x21#8) [])
    ∧ decode ctx0 .c0 7 [0x05#8, 0x01#8, 0x0A#8, 0x1E#8, 0x00#8, 0x11#8]
        = .ok (.frmIdRead (app 0x1E#8) [])
    ∧ decode ctx0 .c0 7 [0x05#8, 0x01#8, 0x0A#8, 0x1F#8, 0x06#8, 0x41#8, 0x42#8, 0x43#8, 0x44#8, 0x45#8, 0x46#8, 0x11#8]
        = .ok (.frmIdWrite (app 0x1F#8) [0x41#8, 0x42#8, 0x43#8, 0x44#8, 0x45#8, 0x46#8])
    ∧ decode ctx0 .c0 7 [0x05#8, 0x01#8, 0x0A#8, 0x20#8, 0x03#8, 0x01#8, 0x02#8, 0x03#8, 0x2C#8]
        = .ok (.frmFwNop (app 0x20#8) [1#8, 2#8, 3#8])
    ∧ decode ctx0 .c0 7 [0x05#8, 0x01#8, 0x0A#8, 0x99#8, 0x02#8, 0x01#8, 0x02#8, 0x97#8]
        = .ok (.frmUnknown (app 0x99#8) [1#8, 2#8])
    ∧ decode ctx0 .c0 7 [0x05#8, 0x01#8, 0x77#8, 0x21#8, 0x00#8, 0x53#8]
        = .ok (.frmUnknown (hdr 0x05#8 0x01#8 0x77#8 0x21#8) []) := ⟨rfl, rfl, rfl, rfl, rfl, rfl, rfl, rfl⟩

/-- R263 to R276, the examples' frames unstuffed. -/
theorem test_decode_writes1 :
    decode ctx0 .c0 7 [0x05#8, 0x01#8, 0x0A#8, 0x31#8, 0x01#8, 0x09#8, 0x36#8]
        = .ok (.wSuctionLevel (app 0x31#8) [] 9#8 [])
    ∧ decode ctx0 .c0 7 [0x05#8, 0x01#8, 0x0A#8, 0x35#8, 0x02#8, 0xDC#8, 0x05#8, 0xE1#8]
        = .ok (.wSelectFlow (app 0x35#8) [] 1500#16 [])
    ∧ decode ctx0 .c0 7 [0x05#8, 0x01#8, 0x0A#8, 0x37#8, 0x02#8, 0x01#8, 0x01#8, 0x3A#8]
        = .ok (.wWorkAct (app 0x37#8) [1#8] 1#8 [])
    ∧ decode ctx0 .c0 7 [0x05#8, 0x01#8, 0x0A#8, 0x39#8, 0x02#8, 0x02#8, 0x01#8, 0x37#8]
        = .ok (.wStandAct (app 0x39#8) [2#8] 1#8 [])
    ∧ decode ctx0 .c0 7 [0x05#8, 0x01#8, 0x0A#8, 0x3B#8, 0x03#8, 0x01#8, 0x1E#8, 0x00#8, 0x28#8]
        = .ok (.wWorkDelay (app 0x3B#8) [1#8] 30#16 [])
    ∧ decode ctx0 .c0 7 [0x05#8, 0x01#8, 0x0A#8, 0x3D#8, 0x03#8, 0x02#8, 0x2C#8, 0x01#8, 0x1E#8]
        = .ok (.wStandDelay (app 0x3D#8) [2#8] 300#16 [])
    ∧ decode ctx0 .c0 7 [0x05#8, 0x01#8, 0x0A#8, 0x41#8, 0x02#8, 0x01#8, 0x05#8, 0x48#8]
        = .ok (.wPedalAct (app 0x41#8) [1#8] 5#8 []) := ⟨rfl, rfl, rfl, rfl, rfl, rfl, rfl⟩

/-- R263 to R276, the examples' frames unstuffed. -/
theorem test_decode_writes2 :
    decode ctx0 .c0 7 [0x05#8, 0x01#8, 0x0A#8, 0x43#8, 0x02#8, 0x01#8, 0xC8#8, 0x87#8]
        = .ok (.wPedalMode (app 0x43#8) [1#8] 200#8 [])
    ∧ decode ctx0 .c0 7 [0x05#8, 0x01#8, 0x0A#8, 0x45#8, 0x02#8, 0xE9#8, 0x03#8, 0xA2#8]
        = .ok (.wFilterStatus (app 0x45#8) [] 1001#16 [])
    ∧ decode ctx0 .c0 7 [0x05#8, 0x01#8, 0x0A#8, 0x47#8, 0x02#8, 0xFF#8, 0xFF#8, 0x4A#8]
        = .ok (.wFilterSat (app 0x47#8) [] 65535#16 [])
    ∧ decode ctx0 .c0 7 [0x05#8, 0x01#8, 0x0A#8, 0x49#8, 0x01#8, 0x01#8, 0x46#8]
        = .ok (.wConnectedPedal (app 0x49#8) [] 1#8 [])
    ∧ decode ctx0 .c0 7 [0x05#8, 0x01#8, 0x0A#8, 0x4B#8, 0x01#8, 0x01#8, 0x44#8]
        = .ok (.wContSuction (app 0x4B#8) [] 1#8 [])
    ∧ decode ctx0 .c0 7 [0x05#8, 0x01#8, 0x0A#8, 0x4D#8, 0x01#8, 0xFF#8, 0xBC#8]
        = .ok (.wUsbConnect (app 0x4D#8) [] 255#8 [])
    ∧ decode ctx0 .c0 7 [0x05#8, 0x01#8, 0x0A#8, 0x4F#8, 0x02#8, 0x34#8, 0x12#8, 0x64#8]
        = .ok (.wStationError (app 0x4F#8) [] 0x1234#16 []) := ⟨rfl, rfl, rfl, rfl, rfl, rfl, rfl⟩

/-- R301 to R318, the examples' frames unstuffed; the last byte before the checksum is an index byte where there is one. -/
theorem test_decode_reads1 :
    decode ctx0 .c0 7 [0x05#8, 0x01#8, 0x0A#8, 0x30#8, 0x00#8, 0x3F#8]
        = .ok (.rSuctionLevel (app 0x30#8) [] [])
    ∧ decode ctx0 .c0 7 [0x05#8, 0x01#8, 0x0A#8, 0x32#8, 0x00#8, 0x3D#8]
        = .ok (.rFlow (app 0x32#8) [] [])
    ∧ decode ctx0 .c0 7 [0x05#8, 0x01#8, 0x0A#8, 0x33#8, 0x00#8, 0x3C#8]
        = .ok (.rSpeed (app 0x33#8) [] [])
    ∧ decode ctx0 .c0 7 [0x05#8, 0x01#8, 0x0A#8, 0x34#8, 0x00#8, 0x3B#8]
        = .ok (.rSelectFlow (app 0x34#8) [] [])
    ∧ decode ctx0 .c0 7 [0x05#8, 0x01#8, 0x0A#8, 0x36#8, 0x01#8, 0x01#8, 0x39#8]
        = .ok (.rWorkAct (app 0x36#8) [1#8] [])
    ∧ decode ctx0 .c0 7 [0x05#8, 0x01#8, 0x0A#8, 0x38#8, 0x01#8, 0x02#8, 0x34#8]
        = .ok (.rStandAct (app 0x38#8) [2#8] [])
    ∧ decode ctx0 .c0 7 [0x05#8, 0x01#8, 0x0A#8, 0x3A#8, 0x01#8, 0x01#8, 0x35#8]
        = .ok (.rWorkDelay (app 0x3A#8) [1#8] [])
    ∧ decode ctx0 .c0 7 [0x05#8, 0x01#8, 0x0A#8, 0x3C#8, 0x01#8, 0x02#8, 0x30#8]
        = .ok (.rStandDelay (app 0x3C#8) [2#8] [])
    ∧ decode ctx0 .c0 7 [0x05#8, 0x01#8, 0x0A#8, 0x3E#8, 0x01#8, 0x01#8, 0x31#8]
        = .ok (.rWorkAfterrunMs (app 0x3E#8) [1#8] []) := ⟨rfl, rfl, rfl, rfl, rfl, rfl, rfl, rfl, rfl⟩

/-- R301 to R318, the examples' frames unstuffed; the last byte before the checksum is an index byte where there is one. -/
theorem test_decode_reads2 :
    decode ctx0 .c0 7 [0x05#8, 0x01#8, 0x0A#8, 0x3F#8, 0x01#8, 0x02#8, 0x33#8]
        = .ok (.rStandAfterrunMs (app 0x3F#8) [2#8] [])
    ∧ decode ctx0 .c0 7 [0x05#8, 0x01#8, 0x0A#8, 0x40#8, 0x01#8, 0x01#8, 0x4F#8]
        = .ok (.rPedalAct (app 0x40#8) [1#8] [])
    ∧ decode ctx0 .c0 7 [0x05#8, 0x01#8, 0x0A#8, 0x42#8, 0x01#8, 0x01#8, 0x4D#8]
        = .ok (.rPedalMode (app 0x42#8) [1#8] [])
    ∧ decode ctx0 .c0 7 [0x05#8, 0x01#8, 0x0A#8, 0x44#8, 0x00#8, 0x4B#8]
        = .ok (.rFilterStatus (app 0x44#8) [] [])
    ∧ decode ctx0 .c0 7 [0x05#8, 0x01#8, 0x0A#8, 0x46#8, 0x00#8, 0x49#8]
        = .ok (.rFilterSat (app 0x46#8) [] [])
    ∧ decode ctx0 .c0 7 [0x05#8, 0x01#8, 0x0A#8, 0x48#8, 0x00#8, 0x47#8]
        = .ok (.rConnectedPedal (app 0x48#8) [] [])
    ∧ decode ctx0 .c0 7 [0x05#8, 0x01#8, 0x0A#8, 0x4A#8, 0x00#8, 0x45#8]
        = .ok (.rContSuction (app 0x4A#8) [] [])
    ∧ decode ctx0 .c0 7 [0x05#8, 0x01#8, 0x0A#8, 0x4C#8, 0x00#8, 0x43#8]
        = .ok (.rUsbConnect (app 0x4C#8) [] [])
    ∧ decode ctx0 .c0 7 [0x05#8, 0x01#8, 0x0A#8, 0x4E#8, 0x00#8, 0x41#8]
        = .ok (.rStationError (app 0x4E#8) [] []) := ⟨rfl, rfl, rfl, rfl, rfl, rfl, rfl, rfl, rfl⟩

/-- R319: bytes beyond the index bytes are operands without effect. R260: a write with too little data is unknown. -/
theorem test_decode_lengths :
    decode ctx0 .c0 7 [0x05#8, 0x01#8, 0x0A#8, 0x30#8, 0x03#8, 0x07#8, 0x08#8, 0x09#8, 0x3A#8]
      = .ok (.rSuctionLevel (app 0x30#8) [] [7#8, 8#8, 9#8])
    ∧ decode ctx0 .c0 7 [0x05#8, 0x01#8, 0x0A#8, 0x35#8, 0x01#8, 0x03#8, 0x38#8]
      = .ok (.frmUnknown (app 0x35#8) [3#8]) := ⟨rfl, rfl⟩

/-- R103 to R105: what is no frame is rejected by name. -/
theorem test_decode_rejects :
    decode ctx0 .c0 7 [] = .error .empty
    ∧ decode ctx0 .c0 7 [0x05#8, 0x01#8, 0x0A#8] = .error .tooShort
    ∧ decode ctx0 .c0 7 [0x05#8, 0x01#8, 0x0A#8, 0x30#8, 0x01#8, 0x3F#8] = .error .badLength
    ∧ decode ctx0 .c0 7 [0x05#8, 0x01#8, 0x0A#8, 0x30#8, 0x00#8, 0x3E#8] = .error .badChecksum := ⟨rfl, rfl, rfl, rfl⟩

/-- R155's example, on the wire. -/
theorem test_encode_wire :
    encodeFrame 0x42#8 0x05#8 0xFD#8 0x00#8 [0x06#8]
      = [0x10#8, 0x02#8, 0x42#8, 0x05#8, 0xFD#8, 0x00#8, 0x01#8, 0x06#8, 0xBC#8, 0x10#8, 0x03#8]
    ∧ stuff [0x01#8, 0x10#8, 0x02#8] = [0x01#8, 0x10#8, 0x10#8, 0x02#8]
    ∧ checksum [0x05#8, 0x42#8, 0xFD#8, 0x00#8, 0x00#8] = 0xBB#8 := by decide

theorem test_decode_inputs :
    decodeInput (.reset 3) = some (.reset 3) ∧ decodeInput (.rx .c1 0x15#8 3) = some (.rx .c1 0x15#8 3)
    ∧ decodeInput (.poll 3) = some (.poll 3)
    ∧ decodeInput (.admin (.write .c0 0x35#8 [0xE8#8, 0x03#8]) 3) = some (.adminWrite .c0 0x35#8 [0xE8#8, 0x03#8] 3)
    ∧ decodeInput (.admin (.forceErrorMask 1#16) 3) = some (.adminForceErrorMask 1#16 3)
    ∧ decodeInput (.admin (.setActiveCount 1) 3) = some (.adminSetActiveCount 1 3)
    ∧ decodeInput (.admin (.setTelemetry .flow 1#16) 3) = some (.adminSetTelemetry .flow 1#16 3)
    ∧ decodeInput (.admin .wipePersistence 3) = some (.adminWipePersistence 3) := by decide

/-! ### One step of each instruction, against the spec's examples -/

/-- R170. -/
theorem test_hsMarker :
    (after (exec (.hsMarker .c0) State.reset)).ch0.hs = .frameModeActive
    ∧ (after (exec (.hsMarker .c0) State.reset)).ch0.dec = .awaitStart
    ∧ (after (exec (.hsMarker .c0) State.reset)).ch0.link = .down := by decide

/-- R171. -/
theorem test_hsNak :
    (after (exec (.hsNak .c0) State.reset)).ch0.hs = .seenNak := by decide

/-- R173. -/
theorem test_hsAck :
    (after (exec (.hsAck .c0) (inHs .sentSyn))).ch0.hs = .gotAck1 := by decide

/-- R174. -/
theorem test_hsSoh :
    (after (exec (.hsSoh .c0) (inHs .sentAck2))).ch0.hs = .gotSoh := by decide

/-- R181. -/
theorem test_hsNakRestart :
    (after (exec (.hsNakRestart .c0) (inHs .sentAck2))).ch0.hs = .seenNak := by decide

/-- R177. -/
theorem test_hsOther :
    (after (exec (.hsOther .c0 0x15#8) (inHs .sentSyn))) = inHs .sentSyn := by decide

/-- R172. -/
theorem test_hsSyn :
    (after (exec (.hsSyn .c0 100) (inHs .seenNak))).ch0.hs = .sentSyn
    ∧ (after (exec (.hsSyn .c0 100) (inHs .seenNak))).ch0.tSyn = 100
    ∧ (after (exec (.hsSyn .c0 100) (inHs .seenNak))).events = [.tx .c0 [0x16#8]] := by decide

/-- R172: 1499 ms after the last one the SYN is held back, at 1500 it goes. -/
theorem test_hsSyn_held :
    (after (exec (.hsSyn .c0 1599) (on0 fun x => { x with hs := .seenNak, synValid := true, tSyn := 100 }))).ch0.hs = .seenNak
    ∧ (after (exec (.hsSyn .c0 1600) (on0 fun x => { x with hs := .seenNak, synValid := true, tSyn := 100 }))).ch0.hs = .sentSyn := by decide

/-- R178. -/
theorem test_hsAck2 :
    (after (exec (.hsAck2 .c0) (inHs .gotAck1))).ch0.hs = .sentAck2
    ∧ (after (exec (.hsAck2 .c0) (inHs .gotAck1))).events = [.tx .c0 [0x06#8]] := by decide

/-- R175. -/
theorem test_hsAck3 :
    (after (exec (.hsAck3 .c0) (inHs .gotSoh))).ch0.hs = .frameModeActive
    ∧ (after (exec (.hsAck3 .c0) (inHs .gotSoh))).ch0.link = .connecting
    ∧ (after (exec (.hsAck3 .c0) (inHs .gotSoh))).events = [.tx .c0 [0x06#8]] := by decide

/-- R191. -/
theorem test_decAmMarker :
    (after (exec (.decAmMarker .c0) (inDec .awaitMarker))).ch0.dec = .awaitStart := by decide

/-- R192. -/
theorem test_decAmOther :
    (after (exec (.decAmOther .c0 0x15#8) (inDec .awaitMarker))) = inDec .awaitMarker := by decide

/-- R193. -/
theorem test_decAsStart :
    (after (exec (.decAsStart .c0) (inDec .awaitStart))).ch0.dec = .inFrame
    ∧ (after (exec (.decAsStart .c0) (inDec .awaitStart))).ch0.n = 0 := by decide

/-- R194. -/
theorem test_decAsMarker :
    (after (exec (.decAsMarker .c0) (inDec .awaitStart))) = inDec .awaitStart := by decide

/-- R195. -/
theorem test_decAsOther :
    (after (exec (.decAsOther .c0 0x03#8) (inDec .awaitStart))).ch0.dec = .awaitMarker := by decide

/-- R196. -/
theorem test_decIfMarker :
    (after (exec (.decIfMarker .c0) (inFrame false [1#8, 2#8, 3#8]))).ch0.esc = true
    ∧ (after (exec (.decIfMarker .c0) (inFrame false [1#8, 2#8, 3#8]))).ch0.n = 3 := by decide

/-- R204. -/
theorem test_decIfData :
    (after (exec (.decIfData .c0 0x05#8 7) (inFrame false []))).ch0.n = 1
    ∧ bufByte (after (exec (.decIfData .c0 0x05#8 7) (inFrame false []))) .c0 0 = 0x05#8 := by decide

/-- R200: the 81st byte of an 80-byte buffer. -/
theorem test_decIfData_overflow :
    (after (exec (.decIfData .c0 0x55#8 7) (inFrame false (List.replicate 80 0xFF#8)))).events = [.report .c0 .overflow]
    ∧ (after (exec (.decIfData .c0 0x55#8 7) (inFrame false (List.replicate 80 0xFF#8)))).ch0.dec = .awaitMarker
    ∧ (after (exec (.decIfData .c0 0x55#8 7) (inFrame false (List.replicate 80 0xFF#8)))).ch0.n = 0 := by decide

/-- R197. -/
theorem test_decEscMarker :
    (after (exec (.decEscMarker .c0 7) (inFrame true [5#8, 1#8, 0x0A#8, 0x30#8, 3#8]))).ch0.n = 6
    ∧ bufByte (after (exec (.decEscMarker .c0 7) (inFrame true [5#8, 1#8, 0x0A#8, 0x30#8, 3#8]))) .c0 5 = 0x10#8
    ∧ (after (exec (.decEscMarker .c0 7) (inFrame true [5#8, 1#8, 0x0A#8, 0x30#8, 3#8]))).ch0.esc = false := by decide

/-- R203: two data bytes declared, none sent, the checksum matches: a read of the suction level. -/
theorem test_decEscEnd :
    (after (exec (.decEscEnd .c0 7) (inFrame true [0x05#8, 0x01#8, 0x0A#8, 0x30#8, 0x02#8, 0x3D#8]))).events = [.tx .c0 [0x10#8, 0x02#8, 0x01#8, 0x05#8, 0x0A#8, 0x30#8, 0x01#8, 0x00#8, 0x3E#8, 0x10#8, 0x03#8]]
    ∧ (after (exec (.decEscEnd .c0 7) (inFrame true [0x05#8, 0x01#8, 0x0A#8, 0x30#8, 0x02#8, 0x3D#8]))).ch0.dec = .awaitMarker := by decide

/-- R199. -/
theorem test_decEscStart :
    (after (exec (.decEscStart .c0 7) (inFrame true [1#8, 2#8, 3#8]))).ch0.n = 0
    ∧ (after (exec (.decEscStart .c0 7) (inFrame true [1#8, 2#8, 3#8]))).ch0.dec = .inFrame
    ∧ (after (exec (.decEscStart .c0 7) (inFrame true [1#8, 2#8, 3#8]))).ch0.esc = false
    ∧ (after (exec (.decEscStart .c0 7) (inFrame true [1#8, 2#8, 3#8]))).events = [] := by decide

/-- R201. -/
theorem test_decEscOther :
    (after (exec (.decEscOther .c0 0x55#8) (inFrame true [1#8]))).events = [.report .c0 .invalidEscape]
    ∧ (after (exec (.decEscOther .c0 0x55#8) (inFrame true [1#8]))).ch0.dec = .awaitMarker
    ∧ (after (exec (.decEscOther .c0 0x55#8) (inFrame true [1#8]))).ch0.n = 0 := by decide

/-- R233 with R155's example frame. -/
theorem test_frmHs :
    (after (exec (.frmHs (hdr 0x05#8 0x42#8 0xFD#8 0x00#8) []) State.reset)).ch0.addr = 0x42#8
    ∧ (after (exec (.frmHs (hdr 0x05#8 0x42#8 0xFD#8 0x00#8) []) State.reset)).ch0.locked = true
    ∧ (after (exec (.frmHs (hdr 0x05#8 0x42#8 0xFD#8 0x00#8) []) State.reset)).ch0.peer = 0x05#8
    ∧ (after (exec (.frmHs (hdr 0x05#8 0x42#8 0xFD#8 0x00#8) []) State.reset)).events = [.persist (.saveAddress .c0 0x42#8), .tx .c0 [0x10#8, 0x02#8, 0x42#8, 0x05#8, 0xFD#8, 0x00#8, 0x01#8, 0x06#8, 0xBC#8, 0x10#8, 0x03#8]] := by decide

/-- R232. -/
theorem test_frmNotForUs :
    (after (exec (.frmNotForUs (hdr 0x05#8 0x07#8 0x0A#8 0x21#8) []) State.reset)) = State.reset := by decide

/-- R237. -/
theorem test_frmFwId :
    (after (exec (.frmFwId (app 0x21#8) []) State.reset)).ch0.link = .up
    ∧ (after (exec (.frmFwId (app 0x21#8) []) State.reset)).ch0.tReply = 7 := by decide

/-- R238's example, from address 42. -/
theorem test_frmIdRead :
    (after (exec (.frmIdRead (hdr 0x05#8 0x42#8 0x0A#8 0x1E#8) []) (on0 fun x => { x with addr := 0x42#8 }))).ch0.link = .up
    ∧ (after (exec (.frmIdRead (hdr 0x05#8 0x42#8 0x0A#8 0x1E#8) []) (on0 fun x => { x with addr := 0x42#8 }))).events = [.tx .c0 [0x10#8, 0x02#8, 0x42#8, 0x05#8, 0x0A#8, 0x1E#8, 0x20#8, 0x30#8, 0x31#8, 0x32#8, 0x33#8, 0x34#8, 0x35#8, 0x36#8, 0x37#8, 0x38#8, 0x39#8, 0x41#8, 0x42#8, 0x43#8, 0x44#8, 0x45#8, 0x46#8, 0x30#8, 0x31#8, 0x32#8, 0x33#8, 0x34#8, 0x35#8, 0x36#8, 0x37#8, 0x38#8, 0x39#8, 0x41#8, 0x42#8, 0x43#8, 0x44#8, 0x45#8, 0x46#8, 0x72#8, 0x10#8, 0x03#8]] := by decide

/-- R281. -/
theorem test_frmIdWrite :
    (after (exec (.frmIdWrite (app 0x1F#8) [0x41#8, 0x42#8, 0x43#8, 0x44#8, 0x45#8, 0x46#8]) State.reset)).ch0.idLen = 6
    ∧ identityBytes (after (exec (.frmIdWrite (app 0x1F#8) [0x41#8, 0x42#8, 0x43#8, 0x44#8, 0x45#8, 0x46#8]) State.reset)) .c0 = [0x41#8, 0x42#8, 0x43#8, 0x44#8, 0x45#8, 0x46#8]
    ∧ (after (exec (.frmIdWrite (app 0x1F#8) [0x41#8, 0x42#8, 0x43#8, 0x44#8, 0x45#8, 0x46#8]) State.reset)).events = [.persist (.saveIdentity .c0 [0x41#8, 0x42#8, 0x43#8, 0x44#8, 0x45#8, 0x46#8]),
        .tx .c0 [0x10#8, 0x02#8, 0x01#8, 0x05#8, 0x0A#8, 0x1F#8, 0x01#8, 0x06#8, 0x17#8, 0x10#8, 0x03#8]] := by decide

/-- R283. -/
theorem test_frmFwNop :
    (after (exec (.frmFwNop (app 0x20#8) [1#8, 2#8, 3#8]) State.reset)).events = [.tx .c0 [0x10#8, 0x02#8, 0x01#8, 0x05#8, 0x0A#8, 0x20#8, 0x01#8, 0x06#8, 0x28#8, 0x10#8, 0x03#8]]
    ∧ (after (exec (.frmFwNop (app 0x20#8) [1#8, 2#8, 3#8]) State.reset)).cfgDirty = false := by decide

/-- R320. -/
theorem test_frmUnknown :
    (after (exec (.frmUnknown (app 0x99#8) [1#8, 2#8]) State.reset)) = State.reset := by decide

/-- R263. -/
theorem test_wSuctionLevel :
    (after (exec (.wSuctionLevel (app 0x31#8) [] 9#8 []) State.reset)).ds.suctionLevel = 3#8
    ∧ (after (exec (.wSuctionLevel (app 0x31#8) [] 9#8 []) State.reset)).events = [.tx .c0 [0x10#8, 0x02#8, 0x01#8, 0x05#8, 0x0A#8, 0x31#8, 0x01#8, 0x06#8, 0x39#8, 0x10#8, 0x03#8]]
    ∧ (after (exec (.wSuctionLevel (app 0x31#8) [] 9#8 []) State.reset)).cfgDirty = true := by decide

/-- R264. -/
theorem test_wSelectFlow :
    (after (exec (.wSelectFlow (app 0x35#8) [] 1500#16 []) State.reset)).ds.selectFlow = 1000#16
    ∧ (after (exec (.wSelectFlow (app 0x35#8) [] 1500#16 []) State.reset)).events = [.tx .c0 [0x10#8, 0x02#8, 0x01#8, 0x05#8, 0x0A#8, 0x35#8, 0x01#8, 0x06#8, 0x3D#8, 0x10#8, 0x03#8]]
    ∧ (after (exec (.wSelectFlow (app 0x35#8) [] 1500#16 []) State.reset)).cfgDirty = true := by decide

/-- R265's example: the relay event precedes the acknowledge. -/
theorem test_wWorkAct :
    (after (exec (.wWorkAct (app 0x37#8) [1#8] 1#8 []) State.reset)).ds.workAct = true
    ∧ (after (exec (.wWorkAct (app 0x37#8) [1#8] 1#8 []) State.reset)).rc.workMask = 1#2
    ∧ (after (exec (.wWorkAct (app 0x37#8) [1#8] 1#8 []) State.reset)).events = [.relay true, .tx .c0 [0x10#8, 0x02#8, 0x01#8, 0x05#8, 0x0A#8, 0x37#8, 0x01#8, 0x06#8, 0x3F#8, 0x10#8, 0x03#8]] := by decide

/-- R343: the deadline is five seconds after the write. -/
theorem test_wWorkAct_off :
    (after (exec (.wWorkAct (app 0x37#8) [1#8] 0#8 []) (withRc ⟨1#2, none, none, true⟩))).rc = ⟨0#2, some .c0, some 5007, true⟩ := by decide

/-- R266. -/
theorem test_wStandAct :
    (after (exec (.wStandAct (app 0x39#8) [2#8] 1#8 []) State.reset)).ds.standAct = true
    ∧ (after (exec (.wStandAct (app 0x39#8) [2#8] 1#8 []) State.reset)).events = [.tx .c0 [0x10#8, 0x02#8, 0x01#8, 0x05#8, 0x0A#8, 0x39#8, 0x01#8, 0x06#8, 0x31#8, 0x10#8, 0x03#8]]
    ∧ (after (exec (.wStandAct (app 0x39#8) [2#8] 1#8 []) State.reset)).cfgDirty = true := by decide

/-- R267. -/
theorem test_wWorkDelay :
    (after (exec (.wWorkDelay (app 0x3B#8) [1#8] 30#16 []) State.reset)).ds.workDelayS = 30#16
    ∧ (after (exec (.wWorkDelay (app 0x3B#8) [1#8] 30#16 []) State.reset)).events = [.tx .c0 [0x10#8, 0x02#8, 0x01#8, 0x05#8, 0x0A#8, 0x3B#8, 0x01#8, 0x06#8, 0x33#8, 0x10#8, 0x03#8]]
    ∧ (after (exec (.wWorkDelay (app 0x3B#8) [1#8] 30#16 []) State.reset)).cfgDirty = true := by decide

/-- R268. -/
theorem test_wStandDelay :
    (after (exec (.wStandDelay (app 0x3D#8) [2#8] 300#16 []) State.reset)).ds.standDelayS = 300#16
    ∧ (after (exec (.wStandDelay (app 0x3D#8) [2#8] 300#16 []) State.reset)).events = [.tx .c0 [0x10#8, 0x02#8, 0x01#8, 0x05#8, 0x0A#8, 0x3D#8, 0x01#8, 0x06#8, 0x35#8, 0x10#8, 0x03#8]]
    ∧ (after (exec (.wStandDelay (app 0x3D#8) [2#8] 300#16 []) State.reset)).cfgDirty = true := by decide

/-- R269. -/
theorem test_wPedalAct :
    (after (exec (.wPedalAct (app 0x41#8) [1#8] 5#8 []) State.reset)).ds.pedalAct = true
    ∧ (after (exec (.wPedalAct (app 0x41#8) [1#8] 5#8 []) State.reset)).events = [.tx .c0 [0x10#8, 0x02#8, 0x01#8, 0x05#8, 0x0A#8, 0x41#8, 0x01#8, 0x06#8, 0x49#8, 0x10#8, 0x03#8]]
    ∧ (after (exec (.wPedalAct (app 0x41#8) [1#8] 5#8 []) State.reset)).cfgDirty = true := by decide

/-- R270. -/
theorem test_wPedalMode :
    (after (exec (.wPedalMode (app 0x43#8) [1#8] 200#8 []) State.reset)).ds.pedalMode = 200#8
    ∧ (after (exec (.wPedalMode (app 0x43#8) [1#8] 200#8 []) State.reset)).events = [.tx .c0 [0x10#8, 0x02#8, 0x01#8, 0x05#8, 0x0A#8, 0x43#8, 0x01#8, 0x06#8, 0x4B#8, 0x10#8, 0x03#8]]
    ∧ (after (exec (.wPedalMode (app 0x43#8) [1#8] 200#8 []) State.reset)).cfgDirty = true := by decide

/-- R271. -/
theorem test_wFilterStatus :
    (after (exec (.wFilterStatus (app 0x45#8) [] 1001#16 []) State.reset)).ds.filterLife = 1000#16
    ∧ (after (exec (.wFilterStatus (app 0x45#8) [] 1001#16 []) State.reset)).events = [.tx .c0 [0x10#8, 0x02#8, 0x01#8, 0x05#8, 0x0A#8, 0x45#8, 0x01#8, 0x06#8, 0x4D#8, 0x10#8, 0x03#8]]
    ∧ (after (exec (.wFilterStatus (app 0x45#8) [] 1001#16 []) State.reset)).cfgDirty = true := by decide

/-- R272. -/
theorem test_wFilterSat :
    (after (exec (.wFilterSat (app 0x47#8) [] 65535#16 []) State.reset)).ds.filterSat = 1000#16
    ∧ (after (exec (.wFilterSat (app 0x47#8) [] 65535#16 []) State.reset)).events = [.tx .c0 [0x10#8, 0x02#8, 0x01#8, 0x05#8, 0x0A#8, 0x47#8, 0x01#8, 0x06#8, 0x4F#8, 0x10#8, 0x03#8]]
    ∧ (after (exec (.wFilterSat (app 0x47#8) [] 65535#16 []) State.reset)).cfgDirty = true := by decide

/-- R273. -/
theorem test_wConnectedPedal :
    (after (exec (.wConnectedPedal (app 0x49#8) [] 1#8 []) State.reset)).ds.connectedPedal = true
    ∧ (after (exec (.wConnectedPedal (app 0x49#8) [] 1#8 []) State.reset)).events = [.tx .c0 [0x10#8, 0x02#8, 0x01#8, 0x05#8, 0x0A#8, 0x49#8, 0x01#8, 0x06#8, 0x41#8, 0x10#8, 0x03#8]]
    ∧ (after (exec (.wConnectedPedal (app 0x49#8) [] 1#8 []) State.reset)).cfgDirty = true := by decide

/-- R274. -/
theorem test_wContSuction :
    (after (exec (.wContSuction (app 0x4B#8) [] 1#8 []) State.reset)).ds.contSuction = true
    ∧ (after (exec (.wContSuction (app 0x4B#8) [] 1#8 []) State.reset)).events = [.tx .c0 [0x10#8, 0x02#8, 0x01#8, 0x05#8, 0x0A#8, 0x4B#8, 0x01#8, 0x06#8, 0x43#8, 0x10#8, 0x03#8]]
    ∧ (after (exec (.wContSuction (app 0x4B#8) [] 1#8 []) State.reset)).cfgDirty = true := by decide

/-- R275. -/
theorem test_wUsbConnect :
    (after (exec (.wUsbConnect (app 0x4D#8) [] 255#8 []) State.reset)).ds.usbConnect = true
    ∧ (after (exec (.wUsbConnect (app 0x4D#8) [] 255#8 []) State.reset)).events = [.tx .c0 [0x10#8, 0x02#8, 0x01#8, 0x05#8, 0x0A#8, 0x4D#8, 0x01#8, 0x06#8, 0x45#8, 0x10#8, 0x03#8]]
    ∧ (after (exec (.wUsbConnect (app 0x4D#8) [] 255#8 []) State.reset)).cfgDirty = true := by decide

/-- R276. -/
theorem test_wStationError :
    (after (exec (.wStationError (app 0x4F#8) [] 0x1234#16 []) State.reset)).ds.stationError = 0x1234#16
    ∧ (after (exec (.wStationError (app 0x4F#8) [] 0x1234#16 []) State.reset)).events = [.tx .c0 [0x10#8, 0x02#8, 0x01#8, 0x05#8, 0x0A#8, 0x4F#8, 0x01#8, 0x06#8, 0x47#8, 0x10#8, 0x03#8]]
    ∧ (after (exec (.wStationError (app 0x4F#8) [] 0x1234#16 []) State.reset)).cfgDirty = true := by decide

/-- R301. -/
theorem test_rSuctionLevel :
    (after (exec (.rSuctionLevel (app 0x30#8) [] []) State.reset)).events = [.tx .c0 [0x10#8, 0x02#8, 0x01#8, 0x05#8, 0x0A#8, 0x30#8, 0x01#8, 0x00#8, 0x3E#8, 0x10#8, 0x03#8]]
    ∧ (after (exec (.rSuctionLevel (app 0x30#8) [] []) State.reset)).ds = State.reset.ds := by decide

/-- R302. -/
theorem test_rFlow :
    (after (exec (.rFlow (app 0x32#8) [] []) State.reset)).events = [.tx .c0 [0x10#8, 0x02#8, 0x01#8, 0x05#8, 0x0A#8, 0x32#8, 0x02#8, 0x00#8, 0x00#8, 0x3F#8, 0x10#8, 0x03#8]]
    ∧ (after (exec (.rFlow (app 0x32#8) [] []) State.reset)).ds = State.reset.ds := by decide

/-- R303. -/
theorem test_rSpeed :
    (after (exec (.rSpeed (app 0x33#8) [] []) State.reset)).events = [.tx .c0 [0x10#8, 0x02#8, 0x01#8, 0x05#8, 0x0A#8, 0x33#8, 0x02#8, 0x00#8, 0x00#8, 0x3E#8, 0x10#8, 0x03#8]]
    ∧ (after (exec (.rSpeed (app 0x33#8) [] []) State.reset)).ds = State.reset.ds := by decide

/-- R304. -/
theorem test_rSelectFlow :
    (after (exec (.rSelectFlow (app 0x34#8) [] []) (withDs fun d => { d with selectFlow := 16#16 }))).events = [.tx .c0 [0x10#8, 0x02#8, 0x01#8, 0x05#8, 0x0A#8, 0x34#8, 0x02#8, 0x10#8, 0x10#8, 0x00#8, 0x29#8, 0x10#8, 0x03#8]]
    ∧ (after (exec (.rSelectFlow (app 0x34#8) [] []) (withDs fun d => { d with selectFlow := 16#16 }))).ds = (withDs fun d => { d with selectFlow := 16#16 }).ds := by decide

/-- R305. -/
theorem test_rWorkAct :
    (after (exec (.rWorkAct (app 0x36#8) [1#8] []) State.reset)).events = [.tx .c0 [0x10#8, 0x02#8, 0x01#8, 0x05#8, 0x0A#8, 0x36#8, 0x02#8, 0x01#8, 0x00#8, 0x3A#8, 0x10#8, 0x03#8]]
    ∧ (after (exec (.rWorkAct (app 0x36#8) [1#8] []) State.reset)).ds = State.reset.ds := by decide

/-- R306. -/
theorem test_rStandAct :
    (after (exec (.rStandAct (app 0x38#8) [2#8] []) State.reset)).events = [.tx .c0 [0x10#8, 0x02#8, 0x01#8, 0x05#8, 0x0A#8, 0x38#8, 0x02#8, 0x02#8, 0x00#8, 0x37#8, 0x10#8, 0x03#8]]
    ∧ (after (exec (.rStandAct (app 0x38#8) [2#8] []) State.reset)).ds = State.reset.ds := by decide

/-- R307. -/
theorem test_rWorkDelay :
    (after (exec (.rWorkDelay (app 0x3A#8) [1#8] []) State.reset)).events = [.tx .c0 [0x10#8, 0x02#8, 0x01#8, 0x05#8, 0x0A#8, 0x3A#8, 0x03#8, 0x01#8, 0x05#8, 0x00#8, 0x32#8, 0x10#8, 0x03#8]]
    ∧ (after (exec (.rWorkDelay (app 0x3A#8) [1#8] []) State.reset)).ds = State.reset.ds := by decide

/-- R308. -/
theorem test_rStandDelay :
    (after (exec (.rStandDelay (app 0x3C#8) [2#8] []) State.reset)).events = [.tx .c0 [0x10#8, 0x02#8, 0x01#8, 0x05#8, 0x0A#8, 0x3C#8, 0x03#8, 0x02#8, 0x05#8, 0x00#8, 0x37#8, 0x10#8, 0x03#8]]
    ∧ (after (exec (.rStandDelay (app 0x3C#8) [2#8] []) State.reset)).ds = State.reset.ds := by decide

/-- R309. -/
theorem test_rWorkAfterrunMs :
    (after (exec (.rWorkAfterrunMs (app 0x3E#8) [1#8] []) (withDs fun d => { d with workDelayS := 66#16 }))).events = [.tx .c0 [0x10#8, 0x02#8, 0x01#8, 0x05#8, 0x0A#8, 0x3E#8, 0x03#8, 0x01#8, 0xFF#8, 0xFF#8, 0x33#8, 0x10#8, 0x03#8]]
    ∧ (after (exec (.rWorkAfterrunMs (app 0x3E#8) [1#8] []) (withDs fun d => { d with workDelayS := 66#16 }))).ds = (withDs fun d => { d with workDelayS := 66#16 }).ds := by decide

/-- R310. -/
theorem test_rStandAfterrunMs :
    (after (exec (.rStandAfterrunMs (app 0x3F#8) [2#8] []) State.reset)).events = [.tx .c0 [0x10#8, 0x02#8, 0x01#8, 0x05#8, 0x0A#8, 0x3F#8, 0x03#8, 0x02#8, 0x88#8, 0x13#8, 0xAA#8, 0x10#8, 0x03#8]]
    ∧ (after (exec (.rStandAfterrunMs (app 0x3F#8) [2#8] []) State.reset)).ds = State.reset.ds := by decide

/-- R311. -/
theorem test_rPedalAct :
    (after (exec (.rPedalAct (app 0x40#8) [1#8] []) State.reset)).events = [.tx .c0 [0x10#8, 0x02#8, 0x01#8, 0x05#8, 0x0A#8, 0x40#8, 0x02#8, 0x01#8, 0x00#8, 0x4C#8, 0x10#8, 0x03#8]]
    ∧ (after (exec (.rPedalAct (app 0x40#8) [1#8] []) State.reset)).ds = State.reset.ds := by decide

/-- R312. -/
theorem test_rPedalMode :
    (after (exec (.rPedalMode (app 0x42#8) [1#8] []) State.reset)).events = [.tx .c0 [0x10#8, 0x02#8, 0x01#8, 0x05#8, 0x0A#8, 0x42#8, 0x02#8, 0x01#8, 0x00#8, 0x4E#8, 0x10#8, 0x03#8]]
    ∧ (after (exec (.rPedalMode (app 0x42#8) [1#8] []) State.reset)).ds = State.reset.ds := by decide

/-- R313. -/
theorem test_rFilterStatus :
    (after (exec (.rFilterStatus (app 0x44#8) [] []) State.reset)).events = [.tx .c0 [0x10#8, 0x02#8, 0x01#8, 0x05#8, 0x0A#8, 0x44#8, 0x02#8, 0xE8#8, 0x03#8, 0xA2#8, 0x10#8, 0x03#8]]
    ∧ (after (exec (.rFilterStatus (app 0x44#8) [] []) State.reset)).ds = State.reset.ds := by decide

/-- R314. -/
theorem test_rFilterSat :
    (after (exec (.rFilterSat (app 0x46#8) [] []) State.reset)).events = [.tx .c0 [0x10#8, 0x02#8, 0x01#8, 0x05#8, 0x0A#8, 0x46#8, 0x02#8, 0x00#8, 0x00#8, 0x4B#8, 0x10#8, 0x03#8]]
    ∧ (after (exec (.rFilterSat (app 0x46#8) [] []) State.reset)).ds = State.reset.ds := by decide

/-- R315. -/
theorem test_rConnectedPedal :
    (after (exec (.rConnectedPedal (app 0x48#8) [] []) State.reset)).events = [.tx .c0 [0x10#8, 0x02#8, 0x01#8, 0x05#8, 0x0A#8, 0x48#8, 0x01#8, 0x00#8, 0x46#8, 0x10#8, 0x03#8]]
    ∧ (after (exec (.rConnectedPedal (app 0x48#8) [] []) State.reset)).ds = State.reset.ds := by decide

/-- R316. -/
theorem test_rContSuction :
    (after (exec (.rContSuction (app 0x4A#8) [] []) State.reset)).events = [.tx .c0 [0x10#8, 0x02#8, 0x01#8, 0x05#8, 0x0A#8, 0x4A#8, 0x01#8, 0x00#8, 0x44#8, 0x10#8, 0x03#8]]
    ∧ (after (exec (.rContSuction (app 0x4A#8) [] []) State.reset)).ds = State.reset.ds := by decide

/-- R317. -/
theorem test_rUsbConnect :
    (after (exec (.rUsbConnect (app 0x4C#8) [] []) State.reset)).events = [.tx .c0 [0x10#8, 0x02#8, 0x01#8, 0x05#8, 0x0A#8, 0x4C#8, 0x01#8, 0x00#8, 0x42#8, 0x10#8, 0x03#8]]
    ∧ (after (exec (.rUsbConnect (app 0x4C#8) [] []) State.reset)).ds = State.reset.ds := by decide

/-- R318. -/
theorem test_rStationError :
    (after (exec (.rStationError (app 0x4E#8) [] []) (withDs fun d => { d with stationError := 0x1010#16 }))).events = [.tx .c0 [0x10#8, 0x02#8, 0x01#8, 0x05#8, 0x0A#8, 0x4E#8, 0x02#8, 0x10#8, 0x10#8, 0x10#8, 0x10#8, 0x43#8, 0x10#8, 0x03#8]]
    ∧ (after (exec (.rStationError (app 0x4E#8) [] []) (withDs fun d => { d with stationError := 0x1010#16 }))).ds = (withDs fun d => { d with stationError := 0x1010#16 }).ds := by decide

/-- R54. -/
theorem test_reset :
    (after (exec (.reset 9) (inFrame true [1#8]))).ch0.hs = .idle
    ∧ (after (exec (.reset 9) (inFrame true [1#8]))).ch0.tRx = 9
    ∧ (after (exec (.reset 9) (inFrame true [1#8]))).ch0.n = 0
    ∧ (after (exec (.reset 9) (inFrame true [1#8]))).ch0.addr = 0x01#8 := by decide

/-- R141's example. -/
theorem test_rx :
    (after (exec (.rx .c0 0x15#8 100) State.reset)).ch0.tRx = 100
    ∧ (after (exec (.rx .c0 0x15#8 100) State.reset)).ch0.hs = .sentSyn
    ∧ (after (exec (.rx .c0 0x15#8 100) State.reset)).events = [.tx .c0 [0x16#8]] := by decide

/-- R347's example: the deadline 8000 fires at 8000, not at 7999. -/
theorem test_poll :
    (after (exec (.poll 8000) (withRc ⟨0#2, some .c1, some 8000, true⟩))).rc = ⟨0#2, none, none, false⟩
    ∧ (after (exec (.poll 8000) (withRc ⟨0#2, some .c1, some 8000, true⟩))).events = [.relay false]
    ∧ (after (exec (.poll 7999) (withRc ⟨0#2, some .c1, some 8000, true⟩))).rc.relay = true := by decide

/-- R373's example. -/
theorem test_adminWrite :
    (after (exec (.adminWrite .c0 0x35#8 [0xE8#8, 0x03#8] 500) State.reset)).ds.selectFlow = 1000#16
    ∧ (after (exec (.adminWrite .c0 0x35#8 [0xE8#8, 0x03#8] 500) State.reset)).cfgDirty = true
    ∧ (after (exec (.adminWrite .c0 0x35#8 [0xE8#8, 0x03#8] 500) State.reset)).tCfg = 500
    ∧ (after (exec (.adminWrite .c0 0x35#8 [0xE8#8, 0x03#8] 500) State.reset)).events = [] := by decide

/-- R371. -/
theorem test_adminForceErrorMask :
    (after (exec (.adminForceErrorMask 0x8001#16 100) State.reset)).ds.stationError = 0x8001#16
    ∧ (after (exec (.adminForceErrorMask 0x8001#16 100) State.reset)).cfgDirty = true := by decide

/-- R372's example. -/
theorem test_adminSetActiveCount :
    (after (exec (.adminSetActiveCount 1 5000) (withRc ⟨3#2, none, none, true⟩))).rc.workMask = 1#2
    ∧ (after (exec (.adminSetActiveCount 1 5000) (withRc ⟨3#2, none, none, true⟩))).nActive = 1
    ∧ (after (exec (.adminSetActiveCount 1 5000) (withRc ⟨3#2, none, none, true⟩))).ch1.hs = .idle := by decide

/-- R374. -/
theorem test_adminSetTelemetry :
    (after (exec (.adminSetTelemetry .flow 300#16 100) State.reset)).ds.flow = 300#16
    ∧ (after (exec (.adminSetTelemetry .flow 300#16 100) State.reset)).cfgDirty = false := by decide

/-- R375. -/
theorem test_adminWipePersistence :
    (after (exec (.adminWipePersistence 100) State.reset)) = State.reset := by decide

/-! ### Witnesses: the hypotheses of the statements can be met -/

/-- The channel records after reset. -/
theorem witness_channels (c : Chan) : ChannelInv refCfg 0 (State.reset.ch c) := by
  cases c <;> exact ⟨by decide, by decide, by decide, by decide, by decide, by decide, by decide, by decide, by decide,
    by decide, fun _ h => nomatch h⟩

/-- The reset state with an input pending meets the invariant. -/
theorem witness_inv (x : Input) : Inv (pending x) where
  cfgWf := (by decide : refCfg.wf = true)
  count := Or.inr rfl
  channels := fun c => by
    cases c
    · exact witness_channels .c0
    · exact witness_channels .c1
  inactive := fun c h => by cases c <;> exact absurd (show true = false from h) (by decide)
  ranges := (by decide : refDevice.inRange 65535 = true)
  relay := (⟨by decide, by decide, by decide, by decide⟩ : RelayInv ⟨0#2, none, none, false⟩)
  dirtyTime := (by decide : false = true → 0 ≤ 0)

theorem witness_DecodeEncodeRoundTrip :
    refCfg.wf = true
    ∧ WellFormed ctx0 (.wWorkDelay (app 0x3B#8) [1#8] 0xFFFF#16 [9#8]) = true
    ∧ (Instr.wWorkDelay (app 0x3B#8) [1#8] 0xFFFF#16 [9#8]).arrivesAt .c0 7
    ∧ WellFormed (ctxAt .frameModeActive .inFrame true) (.decEscEnd .c0 7) = true
    ∧ (Instr.decEscEnd .c0 7).arrivesAt .c0 7 := ⟨by decide, by decide, Or.inr rfl, by decide, Or.inr rfl⟩

theorem witness_DecodedIsWellFormed :
    ctx0.cfg.wf = true ∧ decode ctx0 .c0 7 [0x05#8, 0x01#8, 0x0A#8, 0x30#8, 0x00#8, 0x3F#8]
      = .ok (.rSuctionLevel (app 0x30#8) [] []) := ⟨by decide, rfl⟩

theorem witness_ChecksumLaws :
    List.Perm [1#8, 2#8] [2#8, 1#8] ∧ (0x80#8 : Byte) ≠ 0#8 ∧ checksum ([] ++ [checksum []]) = 0x00#8
    ∧ xorBytes ([] ++ [checksum []]) = 0x01#8 ∧ verifyBySeed [] = false ∧ verifyBySeed [0x01#8] = true
    ∧ verify ([5#8] ++ [0x42#8] ++ [0xFD#8, 0#8, 0#8] ++ [0xBB#8]) = true := by decide

theorem witness_StuffLaws : stuff [0x10#8] = stuff [0x10#8] := rfl

/-- No SYN yet; the last exactly 1500 ms ago; the last 1499 ms ago. -/
theorem witness_SynRateLimited :
    (inHs .seenNak).ch0.hs = .seenNak ∧ (inHs .seenNak).ch0.synValid = false
    ∧ (on0 fun x => { x with hs := .seenNak, synValid := true, tSyn := 100 }).ch0.tSyn + 1500 ≤ 1600
    ∧ ¬ (on0 fun x => { x with hs := .seenNak, synValid := true, tSyn := 100 }).ch0.tSyn + 1500 ≤ 1599 := by decide

theorem witness_HandshakeAcknowledges :
    ((inHs .gotAck1).ch .c0).hs = .gotAck1 ∧ ((inHs .gotSoh).ch .c0).hs = .gotSoh := by decide

theorem witness_IgnoredRowsChangeNothing :
    State.reset.active .c0 = true ∧ State.reset.ch0.hs = .idle ∧ (0x06#8 : Byte) ≠ refCfg.bNak
    ∧ (inHs .sentSyn).ch0.hs = .sentSyn ∧ (0x01#8 : Byte) ≠ refCfg.bAck ∧ refCfg.hsNakRestart = false
    ∧ (inHs .sentAck2).ch0.hs = .sentAck2 ∧ (0x06#8 : Byte) ≠ 0x01#8 ∧ (0x06#8 : Byte) ≠ 0x10#8 := by decide

/-- A step that sends a SYN, and one that does not. -/
theorem witness_SynSpacing :
    Inv (pending (.rx .c0 0x15#8 100)) ∧ Inv (pending (.poll 0))
    ∧ (∃ t, step (pending (.rx .c0 0x15#8 100)) = .next t ∧ t.events = [] ++ [.tx .c0 [refCfg.bSyn]])
    ∧ (∃ t, step (pending (.poll 0)) = .next t ∧ t.events = [] ++ []) :=
  ⟨witness_inv _, witness_inv _, ⟨_, rfl, by decide⟩, ⟨_, rfl, by decide⟩⟩

/-- An empty buffer, the fifth byte, a byte before the last, and one behind a complete frame at the last free index. -/
theorem witness_AppendStoresByte :
    Memory.wf (inFrame false []).ch0.buf = true ∧ (inFrame false []).ch0.n < 5
    ∧ (inFrame true [5#8, 1#8, 0x0A#8, 0x30#8]).ch0.n = 4
    ∧ (inFrame true [5#8, 1#8, 0x0A#8, 0x30#8, 1#8]).ch0.n
        ≠ 5 + (bufByte (inFrame true [5#8, 1#8, 0x0A#8, 0x30#8, 1#8]) .c0 4).toNat
    ∧ (inFrame false (List.replicate 79 1#8)).ch0.n < refCfg.bufCap
    ∧ (inFrame false (List.replicate 79 1#8)).ch0.n
        ≠ 5 + (bufByte (inFrame false (List.replicate 79 1#8)) .c0 4).toNat := by decide

theorem witness_FullBufferOverflows :
    (inFrame false (List.replicate 80 1#8)).cfg.bufCap ≤ ((inFrame false (List.replicate 80 1#8)).ch .c0).n := by decide

theorem witness_BadChecksumDiscards :
    let s := inFrame false [0x05#8, 0x01#8, 0x0A#8, 0x30#8, 0x00#8]
    Memory.wf s.ch0.buf = true ∧ s.ch0.n < s.cfg.bufCap ∧ 5 ≤ s.ch0.n
    ∧ s.ch0.n = 5 + (bufByte s .c0 4).toNat ∧ checksum (bufBytes s .c0) ≠ 0x3E#8
    ∧ checksum (bufBytes s .c0) ≠ 0x10#8 := by decide

/-- The checksum byte as it stands, and a checksum of 0x10 that arrives stuffed (R240's example). -/
theorem witness_GoodFrameDispatches :
    let s := inFrame false [0x05#8, 0x01#8, 0x0A#8, 0x30#8, 0x00#8]
    let s' := inFrame true [0x05#8, 0x42#8, 0x77#8, 0x21#8, 0x00#8]
    Memory.wf s.ch0.buf = true ∧ s.ch0.dec = .inFrame ∧ s.ch0.n = 5 + (bufByte s .c0 4).toNat
    ∧ checksum (bufBytes s .c0) = 0x3F#8
    ∧ Memory.wf s'.ch0.buf = true ∧ s'.ch0.dec = .inFrame ∧ s'.ch0.n = 5 + (bufByte s' .c0 4).toNat
    ∧ checksum (bufBytes s' .c0) = 0x10#8 := by decide

/-- A complete frame, five bytes, six that do not verify, six that do (R203's example). The start byte inside a frame
has the same cases. -/
theorem witness_EndDelimiter :
    complete (inFrame true [0x05#8, 0x01#8, 0x0A#8, 0x30#8, 0x00#8, 0x3F#8]) .c0 = true
    ∧ (inFrame true [1#8, 2#8, 3#8, 4#8, 5#8]).ch0.n < 6
    ∧ complete (inFrame true [0x05#8, 0x01#8, 0x0A#8, 0x30#8, 0x02#8, 0x3E#8]) .c0 = false
    ∧ verify (bufBytes (inFrame true [0x05#8, 0x01#8, 0x0A#8, 0x30#8, 0x02#8, 0x3E#8]) .c0) = false
    ∧ complete (inFrame true [0x05#8, 0x01#8, 0x0A#8, 0x30#8, 0x02#8, 0x3D#8]) .c0 = false
    ∧ verify (bufBytes (inFrame true [0x05#8, 0x01#8, 0x0A#8, 0x30#8, 0x02#8, 0x3D#8]) .c0) = true := by decide

theorem witness_StartInsideFrame :
    complete (inFrame true [0x05#8, 0x01#8, 0x0A#8, 0x30#8, 0x00#8, 0x3F#8]) .c0 = true
    ∧ (inFrame true []).ch0.n < 6
    ∧ 6 ≤ (inFrame true [0x05#8, 0x01#8, 0x0A#8, 0x30#8, 0x02#8, 0x3E#8]).ch0.n
    ∧ verify (bufBytes (inFrame true [0x05#8, 0x01#8, 0x0A#8, 0x30#8, 0x02#8, 0x3E#8]) .c0) = false
    ∧ verify (bufBytes (inFrame true [0x05#8, 0x01#8, 0x0A#8, 0x30#8, 0x02#8, 0x3D#8]) .c0) = true := by decide

set_option maxRecDepth 8000 in
/-- A frame that fills the buffer: 74 data bytes. -/
theorem witness_WireRoundTrip :
    let s := inDec .awaitMarker
    let data := List.replicate 74 0x11#8
    let wire := encodeFrame 0x05#8 0x01#8 0x0A#8 0x20#8 data
    let y := (wire.take 82).map fun b => (b, 3)
    s.active .c0 = true ∧ s.ch0.hs = .frameModeActive ∧ s.ch0.dec = .awaitMarker ∧ Memory.wf s.ch0.buf = true
    ∧ data.length ≤ 255 ∧ 6 + data.length ≤ s.cfg.bufCap
    ∧ y.map (·.1) ++ [0x10#8, 0x03#8] = wire ∧ y.getLast?.map (·.2) = some 3 := by decide

theorem witness_ResyncLiveness :
    (inFrame true [1#8]).active .c0 = true ∧ ((inFrame true [1#8]).ch .c0).hs = .frameModeActive := by decide

/-- Unlocked: the least and the greatest address adopted, 0x00 and 0xFF not. Locked: nothing adopted. Each is acknowledged
from the address in force (R233, conflict C2). -/
theorem witness_HandshakeFrame :
    let run (locked : Bool) (dst : Byte) :=
      let t := after (exec (.frmHs (hdr 0x05#8 dst 0xFD#8 0x00#8) []) (on0 fun x => { x with addr := 0x42#8, locked := locked }))
      (t.ch0.addr, t.ch0.locked, t.events.length)
    run false 0x01#8 = (0x01#8, true, 2) ∧ run false 0xFE#8 = (0xFE#8, true, 2)
    ∧ run false 0x00#8 = (0x42#8, false, 1) ∧ run false 0xFF#8 = (0x42#8, false, 1)
    ∧ run true 0x43#8 = (0x42#8, true, 1) := by decide

theorem witness_IdentityWrite :
    Memory.wf (State.reset.ch .c0).identity = true ∧ (State.reset.ch .c0).idLen = 32 := by decide

theorem witness_WorkOnWrite : (0xFF#8 : Byte) ≠ 0#8 := by decide

theorem witness_ReadAfterWrite :
    255 < 256 ^ WName.suctionLevel.vw ∧ 65535 < 256 ^ WName.selectFlow.vw ∧ 0 < 256 ^ WName.workAct.vw := by decide

/-- Continuous suction, a working channel, a deadline reached exactly and one missed by 1 ms, no deadline. -/
theorem witness_RelayEvaluation :
    (withDs fun d => { d with contSuction := true }).ds.contSuction = true
    ∧ (withRc ⟨1#2, none, none, true⟩).rc.workMask ≠ 0#2
    ∧ (withRc ⟨0#2, some .c1, some 8000, true⟩).rc.deadline = some 8000 ∧ (8000 : Nat) ≤ 8000 ∧ (7999 : Nat) < 8000
    ∧ (withRc ⟨0#2, some .c1, some 8000, true⟩).ds.contSuction = false
    ∧ (withRc ⟨0#2, none, none, true⟩).rc.deadline = none := by decide

theorem witness_RelayFollowsDemand :
    RelayInv (withRc ⟨0#2, some .c1, some 8000, true⟩).rc ∧ RelayInv (withRc ⟨3#2, none, none, true⟩).rc := by
  constructor <;> constructor <;> decide

theorem witness_PollTurnsRelayOff :
    (withRc ⟨0#2, some .c1, some 8000, true⟩).ds.contSuction = false
    ∧ (withRc ⟨0#2, some .c1, some 8000, true⟩).rc.workMask = 0#2
    ∧ (∀ d, (withRc ⟨0#2, some .c1, some 8000, true⟩).rc.deadline = some d → d ≤ 8000)
    ∧ (withRc ⟨0#2, some .c1, some 8000, true⟩).rc.relay = true :=
  ⟨by decide, by decide, fun _ h => by injection h; omega, by decide⟩

theorem witness_PollEmitsInOrder (c : Chan) :
    ((inHs .seenNak).ch c).hs ≠ .gotAck1 ∧ ((inHs .seenNak).ch c).hs ≠ .gotSoh := by cases c <;> decide

/-- Silent for exactly the window, and one millisecond less; a due save and one not yet due. -/
theorem witness_PollRegisters (c : Chan) :
    (((inDec .awaitStart).ch c).hs ≠ .gotAck1 ∧ ((inDec .awaitStart).ch c).hs ≠ .gotSoh)
    ∧ refCfg.tInact ≤ 5000 - ((inDec .awaitStart).ch c).tRx ∧ ¬ refCfg.tInact ≤ 4999 - ((inDec .awaitStart).ch c).tRx
    ∧ refCfg.tDebounce ≤ 3500 - 1500 ∧ ¬ refCfg.tDebounce ≤ 3499 - 1500 := by cases c <;> decide

theorem witness_PollRetractsSilent :
    (relayEval 5000 (withRc ⟨0#2, some .c1, some 8000, true⟩)).rc.owner = some .c1
    ∧ (withRc ⟨0#2, some .c1, some 8000, true⟩).active .c1 = true
    ∧ (relayEval 8000 (withRc ⟨0#2, some .c1, some 8000, true⟩)).rc.owner = none
    ∧ (relayEval 5000 (withRc ⟨1#2, none, none, true⟩)).rc.owner = none := by decide

/-- Each selection of the write handler, at the shortest data it takes; and an inactive channel. -/
theorem witness_OperatorWrite :
    State.reset.active .c0 = true ∧ { State.reset with nActive := 1 }.active .c1 = false
    ∧ selectWrite refCfg 0x37#8 2 = some (.entry .workAct 1) ∧ selectWrite refCfg 0x37#8 1 = none
    ∧ selectWrite refCfg 0x1F#8 0 = some .identity ∧ selectWrite refCfg 0x20#8 0 = some .fwNop := by decide

theorem witness_ForceErrorMask :
    State.reset.cfg.wf = true ∧ State.reset.active .c1 = true
    ∧ (⟨.w .stationError, 0x4F#8, 0⟩ : CcRow) ∈ State.reset.cfg.ccTable := by decide

theorem witness_SetActiveCount :
    State.reset.nActive = 2 ∧ { State.reset with nActive := 1 }.nActive = 1 := by decide

/-- The least and the greatest legal address, the two reserved ones; a field at its bound and one above. -/
theorem witness_LoadsKeepConfiguration :
    refCfg.wf = true
    ∧ (withLoads refCfg ⟨some 0x01#8, some 0xFE#8, none, none, none⟩).addrInit0 = 0x01#8
    ∧ (withLoads refCfg ⟨some 0x01#8, some 0xFE#8, none, none, none⟩).addrInit1 = 0xFE#8
    ∧ (withLoads refCfg ⟨some 0xFF#8, some 0x00#8, none, none, none⟩).addrInit0 = 0x01#8
    ∧ (withLoads refCfg ⟨some 0xFF#8, some 0x00#8, none, none, none⟩).addrInit1 = 0x02#8
    ∧ (withLoads refCfg ⟨none, none, some (List.replicate 65 7#8), some [9#8], none⟩).identityInit0
        = List.replicate 64 7#8
    ∧ (withLoads refCfg ⟨none, none, none, none,
        some { refDevice with suctionLevel := 4#8, selectFlow := 1000#16, filterSat := 1001#16 }⟩).dsInit
        = { refDevice with suctionLevel := 3#8, selectFlow := 1000#16, filterSat := 1000#16 } := by decide

theorem witness_InactiveChannelDiscards :
    { State.reset with nActive := 1 }.nActive ≤ Chan.c1.idx ∧ { State.reset with nActive := 0 }.nActive ≤ Chan.c0.idx := by
  decide

theorem witness_RxRunsDecodedByte :
    State.reset.active .c0 = true ∧ State.reset.ch0.hs ≠ .frameModeActive
    ∧ (inDec .awaitStart).active .c0 = true ∧ ((inDec .awaitStart).ch .c0).hs = .frameModeActive := by decide

set_option maxRecDepth 8000 in
theorem witness_UartDeliversCharacter :
    3 ≤ 16 ∧ Uart.reset.phase = .idle ∧ Uart.reset.sync1 = true ∧ Uart.reset.sync2 = true
    ∧ (uartRun 3 (charLevels 3 0x35#8 true) Uart.reset).2 = [0x35#8]
    ∧ (uartRun 4 (charLevels 4 0x80#8 true) Uart.reset).2 = [0x80#8] := by decide

theorem witness_StepKeepsInvariant :
    Inv (pending (.rx .c1 0x10#8 1)) ∧ ∃ t, step (pending (.rx .c1 0x10#8 1)) = .next t ∧ t.ch1.dec = .awaitStart :=
  ⟨witness_inv _, _, rfl, by decide⟩

/-- No input; an instruction at exactly the clock's time; a line sample. -/
theorem witness_StepRunsDecodedInput :
    State.reset.inputs = []
    ∧ (pending (.poll 0)).inputs = [.poll 0] ∧ timeOk (pending (.poll 0)).clock (.poll 0) = true
    ∧ decodeInput (.poll 0) = some (.poll 0)
    ∧ (pending (.line .c0 false 0)).inputs = [.line .c0 false 0] ∧ (pending (.line .c0 false 0)).clock ≤ 0 := by decide

/-- Time one millisecond back is refused, the same time is not. -/
theorem witness_OnlyTimeIsRefused :
    { pending (.poll 9) with clock := 10 }.inputs = [.poll 9] ∧ inputTime (.poll 9) = some 9 ∧ (9 : Nat) < 10
    ∧ (∀ x rest now, { pending (.poll 9) with clock := 9 }.inputs = x :: rest → inputTime x = some now →
        { pending (.poll 9) with clock := 9 }.clock ≤ now) :=
  ⟨rfl, rfl, by decide, fun x rest now h h' => by
    have : x = .poll 9 := by injection h with h1 h2; exact h1.symm
    subst this; injection h' with h'; subst h'; decide⟩

/-- Each way out of frame mode: RESET; a POLL at exactly the inactivity window; channel 1 disabled. -/
theorem witness_FrameModeIsTerminal :
    (∃ t, step { inDec .awaitMarker with inputs := [.reset 0] } = .next t ∧ t.ch0.hs = .idle)
    ∧ (∃ t, step { inDec .awaitMarker with inputs := [.poll 5000] } = .next t ∧ t.ch0.hs = .idle)
    ∧ (∃ t, step { State.reset with
          ch1 := { State.reset.ch1 with hs := .frameModeActive }, inputs := [.admin (.setActiveCount 1) 0] } = .next t
        ∧ t.ch1.hs = .idle) := ⟨⟨_, rfl, by decide⟩, ⟨_, rfl, by decide⟩, ⟨_, rfl, by decide⟩⟩

/-- The checksum byte of an adoption frame, as an `RX` and as the last line sample of its character. -/
theorem witness_AddressOnlyAdopted :
    let s := inFrame false [0x05#8, 0x42#8, 0xFD#8, 0x00#8, 0x00#8]
    (∃ t, step { s with inputs := [.rx .c0 0xBB#8 3] } = .next t
      ∧ t.ch0.addr = 0x42#8 ∧ s.ch0.addr = 0x01#8 ∧ t.events.head? = some (.persist (.saveAddress .c0 0x42#8)))
    ∧ ∃ t, step { s.setCh .c0 { s.ch .c0 with uart := ⟨true, true, .stop, 1, 0xBB#8⟩ } with
          inputs := [.line .c0 true 3] } = .next t
      ∧ t.ch0.addr = 0x42#8 := ⟨⟨_, rfl, by decide⟩, ⟨_, rfl, by decide⟩⟩

theorem witness_ChannelIsolation :
    (∃ t, exec (.rx .c0 0x3F#8 3) (inFrame false [0x05#8, 0x01#8, 0x0A#8, 0x30#8, 0x00#8]) = .next t)
    ∧ (∃ t, exec (.rx .c0 0x15#8 3) State.reset = .next t) := ⟨⟨_, rfl⟩, ⟨_, rfl⟩⟩

theorem witness_OneReportOrReply :
    ∃ t, exec (.rx .c0 0x3F#8 3) (inFrame false [0x05#8, 0x01#8, 0x0A#8, 0x30#8, 0x00#8]) = .next t
      ∧ t.events.length = 1 := ⟨_, rfl, by decide⟩

theorem witness_StatusReads :
    (withRc ⟨0#2, some .c1, some 8000, true⟩).rc.deadline = some 8000
    ∧ (status (withRc ⟨0#2, some .c1, some 8000, true⟩) 7999).afterRun = 1
    ∧ (status (withRc ⟨0#2, some .c1, some 8000, true⟩) 8000).afterRun = 0
    ∧ (withRc ⟨0#2, none, none, true⟩).rc.deadline = none := by decide

end Sys2Proof.Tests
end

