-- ==== Sys2Proof/Proofs/Fetch.lean ====
section
/-! The fetch of a step (R6, R7, R143): what `fetch` answers in each case of the oldest input, what `step` makes of each
answer, and from these the statement that a step runs the instruction its input decodes to. -/

namespace Sys2Proof.Machine

variable {s s1 : State} {x : Input} {rest : List Input}

/-! ### What `fetch` answers -/

theorem fetch_of_no_input (hin : s.inputs = []) : fetch s = .idle := by
  simp only [fetch, hin]

theorem fetch_of_time_backwards (hin : s.inputs = x :: rest) (htime : timeOk s.clock x = false) :
    fetch s = .refuse .timeBackwards := by
  simp only [fetch, hin, htime, if_true]

/-- Every input but a line sample is an instruction, run once the input is taken. -/
theorem fetch_of_decodeInput {i : Instr} (hin : s.inputs = x :: rest) (htime : timeOk s.clock x = true)
    (hdec : decodeInput x = some i) : fetch s = .run i (popInput x rest s) := by
  cases x with
  | line c level now => cases hdec
  | reset t0 => cases hdec; simp [fetch, hin, htime]
  | rx c b now => cases hdec; simp [fetch, hin, htime]
  | poll now => cases hdec; simp [fetch, hin, htime]
  | admin op now => cases hdec; simp [fetch, hin, htime]

theorem timeOk_line_iff (clock : Nat) (c : Chan) (level : Bool) (now : Nat) :
    timeOk clock (.line c level now) = true ↔ clock ≤ now := decide_eq_true_iff

section LineSample
variable {c : Chan} {level : Bool} {now : Nat}

theorem fetch_of_line_completing {b : Byte} (hin : s.inputs = .line c level now :: rest) (hnow : s.clock ≤ now)
    (hsample : lineSample c level (popInput (.line c level now) rest s) = (s1, some b)) :
    fetch s = .run (.rx c b now) s1 := by
  simp [fetch, hin, (timeOk_line_iff _ c level _).2 hnow, hsample]

theorem fetch_of_line_quiet (hin : s.inputs = .line c level now :: rest) (hnow : s.clock ≤ now)
    (hsample : lineSample c level (popInput (.line c level now) rest s) = (s1, none)) :
    fetch s = .quiet s1 := by
  simp [fetch, hin, (timeOk_line_iff _ c level _).2 hnow, hsample]

/-- Taking the input leaves the receiver and the configuration alone, so the sample is the tick of `s`'s own receiver. -/
theorem lineSample_popInput {u : Uart} {ob : Option Byte} (htick : uartTick s.cfg.osr level (s.ch c).uart = (u, ob)) :
    lineSample c level (popInput x rest s) =
      ((popInput x rest s).setCh c { s.ch c with uart := u }, ob) := by
  have hch : (popInput x rest s).ch c = s.ch c := by cases c <;> rfl
  have hcfg : (popInput x rest s).cfg = s.cfg := rfl
  simp only [lineSample, hch, hcfg, htick]

end LineSample

/-! ### What `step` makes of each answer -/

theorem step_of_fetch_idle (h : fetch s = .idle) : step s = .next s := by simp only [step, h]

theorem step_of_fetch_refuse {r : Refusal} (h : fetch s = .refuse r) : step s = .refused r := by simp only [step, h]

theorem step_of_fetch_quiet (h : fetch s = .quiet s1) : step s = .next s1 := by simp only [step, h]

theorem step_of_fetch_run {i : Instr} (h : fetch s = .run i s1) : step s = exec i s1 := by simp only [step, h]

/-! ### The statement -/

/-- Settles O54, by the three cases of the oldest input: none, one that decodes, a line sample. -/
theorem stepRunsDecodedInput : Obligations.StepRunsDecodedInput := by
  intro s
  refine ⟨fun hin => step_of_fetch_idle (fetch_of_no_input hin), ?_, ?_⟩
  · intro x rest i hin htime hdec
    exact step_of_fetch_run (fetch_of_decodeInput hin htime hdec)
  · intro c level now rest hin hnow
    rcases htick : uartTick s.cfg.osr level (s.ch c).uart with ⟨u, ob⟩
    have hsample := lineSample_popInput (x := .line c level now) (rest := rest) htick
    cases ob with
    | none => exact step_of_fetch_quiet (fetch_of_line_quiet hin hnow hsample)
    | some b => exact step_of_fetch_run (fetch_of_line_completing hin hnow hsample)

end Sys2Proof.Machine
end

