-- ==== Sys2Proof/Proofs/StepCases.lean ====
section
/-! What a step can do, said once: the answers an operation ensures, the cases of a step by its oldest input, of the
sequencer's byte and of its transition without input. -/

namespace Sys2Proof.Machine

/-! ### The answers of an operation -/

/-- The operation answers a next state, and that state satisfies `P`. -/
def Ensures (r : Res) (P : State → Prop) : Prop := ∃ t, r = .next t ∧ P t

section Ensures
variable {r : Res} {f : State → Res} {P Q : State → Prop} {s t : State}

@[simp] theorem ensures_next : Ensures (.next s) P ↔ P s :=
  ⟨fun ⟨_, h, hP⟩ => by cases h; exact hP, fun h => ⟨s, rfl, h⟩⟩

theorem Ensures.of_eq_next (h : Ensures r P) (ht : r = .next t) : P t := by
  subst ht; exact ensures_next.1 h

theorem Ensures.mono (h : Ensures r P) (hPQ : ∀ t, P t → Q t) : Ensures r Q := by
  obtain ⟨t, ht, hP⟩ := h
  exact ⟨t, ht, hPQ t hP⟩

theorem Ensures.and (h : Ensures r P) (k : Ensures r Q) : Ensures r fun t => P t ∧ Q t := by
  obtain ⟨t, ht, hP⟩ := h
  exact ⟨t, ht, hP, k.of_eq_next ht⟩

theorem Ensures.andThen (h : Ensures r P) (hf : ∀ t, P t → Ensures (f t) Q) : Ensures (andThen r f) Q := by
  obtain ⟨t, rfl, hP⟩ := h
  exact hf t hP

/-- What every channel's turn keeps, a round over the active channels keeps (R360). -/
theorem forActive_ensures {f : Chan → State → Res} (hs : P s)
    (hf : ∀ c u, u.active c = true → P u → Ensures (f c u) P) : Ensures (forActive f s) P := by
  have hturn : ∀ c u, P u → Ensures (if u.active c then f c u else .next u) P := by
    intro c u hu
    split
    · exact hf c u ‹_› hu
    · exact ensures_next.2 hu
  exact (hturn .c0 s hs).andThen (hturn .c1)

end Ensures

/-! ### The cases of a step -/

/-- `s` after the line sample `level` on channel `c`, taken as the oldest input: its receiver has moved on (R143). -/
def sampled (c : Chan) (level : Bool) (now : Nat) (rest : List Input) (s : State) : State :=
  State.setCh (popInput (.line c level now) rest s) c
    { s.ch c with uart := (uartTick s.cfg.osr level (s.ch c).uart).1 }

/-- Everything a step that answers a next state can have done: nothing, for want of an input; run the instruction of its
input; take a line sample, and run the byte it completes, if any. -/
theorem step_cases {s t : State} (h : step s = .next t) :
    (s.inputs = [] ∧ t = s)
    ∨ (∃ x rest i, s.inputs = x :: rest ∧ timeOk s.clock x = true ∧ decodeInput x = some i
        ∧ exec i (popInput x rest s) = .next t)
    ∨ (∃ c level now rest, s.inputs = .line c level now :: rest ∧ s.clock ≤ now
        ∧ (t = sampled c level now rest s
          ∨ ∃ b, (uartTick s.cfg.osr level (s.ch c).uart).2 = some b
              ∧ execRx c b now (sampled c level now rest s) = .next t)) := by
  obtain ⟨hidle, hrun, hline⟩ := stepRunsDecodedInput s
  cases hin : s.inputs with
  | nil =>
    rw [hidle hin] at h
    cases h
    exact .inl ⟨rfl, rfl⟩
  | cons x rest =>
    by_cases htime : timeOk s.clock x = true
    · cases hdec : decodeInput x with
      | some i =>
        rw [hrun x rest i hin htime hdec] at h
        exact .inr (.inl ⟨x, rest, i, rfl, htime, hdec, h⟩)
      | none =>
        cases x with
        | line c level now =>
          have hnow := (timeOk_line_iff _ c level _).1 htime
          have hstep := (hline c level now rest hin hnow).symm.trans h
          refine .inr (.inr ⟨c, level, now, rest, rfl, hnow, ?_⟩)
          cases htick : (uartTick s.cfg.osr level (s.ch c).uart).2 with
          | none =>
            simp only [htick] at hstep
            cases hstep
            exact .inl rfl
          | some b =>
            simp only [htick] at hstep
            exact .inr ⟨b, rfl, hstep⟩
        | reset t0 => cases hdec
        | rx c b now => cases hdec
        | poll now => cases hdec
        | admin op now => cases hdec
    · rw [step_of_fetch_refuse (fetch_of_time_backwards hin (Bool.not_eq_true _ ▸ htime))] at h
      cases h

/-! ### The cases of the sequencer -/

/-- Everything a pre-frame byte can do (R167): enter frame mode, move to a state that is not frame mode, nothing. -/
theorem handshakeByte_cases (c : Chan) (b : Byte) (now : Nat) (s : State) :
    handshakeByte c b now s = .next (setDec c .awaitStart (setHs c .frameModeActive s))
    ∨ (∃ v, v ≠ .frameModeActive ∧ handshakeByte c b now s = .next (setHs c v s))
    ∨ handshakeByte c b now s = .next s := by
  unfold handshakeByte selectPreFrame
  split_ifs
  · exact .inl rfl
  · exact .inr (.inl ⟨.seenNak, nofun, rfl⟩)
  · exact .inr (.inl ⟨.gotAck1, nofun, rfl⟩)
  · exact .inr (.inl ⟨.gotSoh, nofun, rfl⟩)
  · exact .inr (.inl ⟨.seenNak, nofun, rfl⟩)
  · exact .inr (.inr rfl)

/-- `s` after the SYN (R172). -/
def synSent (c : Chan) (now : Nat) (s : State) : State :=
  (emit (.tx c [s.cfg.bSyn]) s).setCh c { s.ch c with tSyn := now, synValid := true, hs := .sentSyn }

/-- `s` after the first acknowledge (R178). -/
def ack2Sent (c : Chan) (s : State) : State := setHs c .sentAck2 (emit (.tx c [s.cfg.bAck]) s)

/-- `s` after the second acknowledge, in frame mode (R175). -/
def ack3Sent (c : Chan) (s : State) : State :=
  setLink c .connecting (setHs c .frameModeActive (emit (.tx c [s.cfg.bAck]) s))

/-- Everything the transition without input can do (R179), each with the sequencer state it starts from. -/
theorem settle_cases (c : Chan) (now : Nat) (s : State) :
    ((s.ch c).hs ≠ .gotAck1 ∧ (s.ch c).hs ≠ .gotSoh ∧ settle c now s = .next s)
    ∨ ((s.ch c).hs = .seenNak ∧ settle c now s = .next (synSent c now s))
    ∨ ((s.ch c).hs = .gotAck1 ∧ settle c now s = .next (ack2Sent c s))
    ∨ ((s.ch c).hs = .gotSoh ∧ settle c now s = .next (ack3Sent c s)) := by
  cases hhs : (s.ch c).hs with
  | seenNak =>
    by_cases hsyn : synAllowed s c now = true
    · exact .inr (.inl ⟨rfl, by simp [settle, hhs, execHsSyn, hsyn, synSent]⟩)
    · exact .inl ⟨nofun, nofun, by simp [settle, hhs, execHsSyn, hsyn]⟩
  | gotAck1 => exact .inr (.inr (.inl ⟨rfl, by simp [settle, hhs, execHsAck2, ack2Sent]⟩))
  | gotSoh => exact .inr (.inr (.inr ⟨rfl, by simp [settle, hhs, execHsAck3, ack3Sent]⟩))
  | idle => exact .inl ⟨nofun, nofun, by simp only [settle, hhs]⟩
  | sentSyn => exact .inl ⟨nofun, nofun, by simp only [settle, hhs]⟩
  | sentAck2 => exact .inl ⟨nofun, nofun, by simp only [settle, hhs]⟩
  | frameModeActive => exact .inl ⟨nofun, nofun, by simp only [settle, hhs]⟩

end Sys2Proof.Machine
end

