-- ==== Sys2Proof/Proofs/Invariant.lean ====
section
/-! The invariant (R32, R50, R349): the reset state meets it, every step keeps it. The channel clauses are kept update by
update (`ChannelInv.*`), the relay clauses likewise (`RelayInv.*`); `Inv.setCh` and `Inv.withRelay` lift them to the state,
and the operations are composed from those. -/

namespace Sys2Proof.Machine

/-! ### Channel records -/

section Channel
variable {cfg : Cfg} {clock now : Nat} {x : Channel}

theorem ChannelInv.of_clock_le {clock' : Nat} (h : ChannelInv cfg clock x) (hle : clock ≤ clock') :
    ChannelInv cfg clock' x :=
  { h with
    times := by
      obtain ⟨hrx, hreply, hidle, hsyn⟩ := h.times
      exact ⟨hrx.trans hle, hreply.trans hle, hidle.trans hle, fun hv => (hsyn hv).trans hle⟩ }

/-- A channel record right after reset (R54). -/
theorem ChannelInv.reset {a : Byte} {idn : List Byte} (t0 : Nat) (haddr : legalAddr a = true)
    (hid : idn.length ≤ idMax) : ChannelInv cfg t0 (Channel.reset a idn t0) where
  preFrame := fun _ => ⟨rfl, rfl, rfl, rfl, rfl⟩
  outside := fun _ => ⟨rfl, rfl⟩
  fill := Nat.zero_le _
  good := fun h => absurd h (by simp [Channel.reset])
  addrLegal := haddr
  idFits := hid
  settled := ⟨nofun, nofun⟩
  bufForm := ⟨rfl, rfl⟩
  identityForm := ⟨Memory.wf_writeBytes idn [] 0 rfl, Memory.below_writeBytes idMax idn [] 0 rfl (by omega)⟩
  times := ⟨le_rfl, le_rfl, le_rfl, nofun⟩
  uartBits := nofun

/-- A resynchronisation, whatever canonical buffer it throws away (R206). -/
theorem ChannelInv.discard (h : ChannelInv cfg clock x) {m : Memory}
    (hm : Memory.wf m = true ∧ Memory.below cfg.bufCap m = true) :
    ChannelInv cfg clock { x with buf := m, dec := .awaitMarker, esc := false, n := 0 } :=
  { h with
    preFrame := fun hx => ⟨rfl, rfl, rfl, (h.preFrame hx).2.2.2⟩
    outside := fun _ => ⟨rfl, rfl⟩
    fill := Nat.zero_le _
    good := fun h5 => absurd h5 (by simp)
    bufForm := hm }

theorem ChannelInv.resync (h : ChannelInv cfg clock x) :
    ChannelInv cfg clock { x with dec := .awaitMarker, esc := false, n := 0 } := h.discard h.bufForm

theorem Channel.atRest_channelReset (x : Channel) : Channel.atRest
    { x with hs := .idle, dec := .awaitMarker, esc := false, n := 0, link := .down, locked := false } :=
  ⟨rfl, rfl, rfl, rfl, rfl, rfl⟩

theorem ChannelInv.channelReset (h : ChannelInv cfg clock x) :
    ChannelInv cfg clock
      { x with hs := .idle, dec := .awaitMarker, esc := false, n := 0, link := .down, locked := false } :=
  { h.resync with
    preFrame := fun _ => ⟨rfl, rfl, rfl, rfl, rfl⟩
    settled := ⟨nofun, nofun⟩ }

theorem ChannelInv.freshFrame (h : ChannelInv cfg clock x) (hhs : x.hs = .frameModeActive) :
    ChannelInv cfg clock { x with dec := .inFrame, n := 0, esc := false } :=
  { h with
    preFrame := fun hx => absurd hhs hx
    outside := fun hx => absurd rfl hx
    fill := Nat.zero_le _
    good := fun h5 => absurd h5 (by simp) }

/-- Between frames the decoder may move on: nothing is buffered there. -/
theorem ChannelInv.setDec (h : ChannelInv cfg clock x) (hhs : x.hs = .frameModeActive) (hdec : x.dec ≠ .inFrame)
    (v : DecState) : ChannelInv cfg clock { x with dec := v } :=
  { h with
    preFrame := fun hx => absurd hhs hx
    outside := fun _ => h.outside hdec }

theorem ChannelInv.setEsc (h : ChannelInv cfg clock x) (hhs : x.hs = .frameModeActive) (hdec : x.dec = .inFrame)
    (v : Bool) : ChannelInv cfg clock { x with esc := v } :=
  { h with
    preFrame := fun hx => absurd hhs hx
    outside := fun hx => absurd hdec hx }

/-- The sequencer moves before frame mode (R165): what holds there goes on holding, in frame mode too. -/
theorem ChannelInv.setHs (h : ChannelInv cfg clock x) (hhs : x.hs ≠ .frameModeActive) {v : HsState}
    (hv : v ≠ .gotAck1 ∧ v ≠ .gotSoh) : ChannelInv cfg clock { x with hs := v } :=
  { h with
    preFrame := fun _ => h.preFrame hhs
    settled := hv }

theorem ChannelInv.synSent (h : ChannelInv cfg clock x) (hhs : x.hs ≠ .frameModeActive) (hnow : now ≤ clock) :
    ChannelInv cfg clock { x with tSyn := now, synValid := true, hs := .sentSyn } :=
  { h with
    preFrame := fun _ => h.preFrame hhs
    settled := ⟨nofun, nofun⟩
    times := by
      obtain ⟨hrx, hreply, hidle, _⟩ := h.times
      exact ⟨hrx, hreply, hidle, fun _ => hnow⟩ }

theorem ChannelInv.setLink (h : ChannelInv cfg clock x) (hhs : x.hs = .frameModeActive) (v : Link) :
    ChannelInv cfg clock { x with link := v } :=
  { h with preFrame := fun hx => absurd hhs hx }

theorem ChannelInv.noteHandshake (h : ChannelInv cfg clock x) (hhs : x.hs = .frameModeActive) (p : Byte) (v : Link) :
    ChannelInv cfg clock { x with peer := p, link := v } :=
  { h with preFrame := fun hx => absurd hhs hx }

theorem ChannelInv.adopt (h : ChannelInv cfg clock x) (hhs : x.hs = .frameModeActive) {a : Byte}
    (ha : legalAddr a = true) : ChannelInv cfg clock { x with addr := a, locked := true } :=
  { h with
    preFrame := fun hx => absurd hhs hx
    addrLegal := ha }

theorem ChannelInv.touchRx (h : ChannelInv cfg clock x) (hnow : now ≤ clock) :
    ChannelInv cfg clock { x with tRx := now } :=
  { h with times := ⟨hnow, h.times.2⟩ }

theorem ChannelInv.replied (h : ChannelInv cfg clock x) (hnow : now ≤ clock) :
    ChannelInv cfg clock { x with tReply := now } :=
  { h with
    times := by
      obtain ⟨hrx, _, hidle, hsyn⟩ := h.times
      exact ⟨hrx, hnow, hidle, hsyn⟩ }

theorem ChannelInv.idleTouched (h : ChannelInv cfg clock x) (hnow : now ≤ clock) :
    ChannelInv cfg clock { x with tIdle := now } :=
  { h with
    times := by
      obtain ⟨hrx, hreply, _, hsyn⟩ := h.times
      exact ⟨hrx, hreply, hnow, hsyn⟩ }

/-- An identity is cut to what its memory holds (R281). -/
theorem ChannelInv.storeIdentity (h : ChannelInv cfg clock x) (data : List Byte) :
    ChannelInv cfg clock
      { x with
        identity := Memory.writeBytes x.identity 0 (data.take idMax), idLen := (data.take idMax).length } := by
  have hlen : (data.take idMax).length ≤ idMax := List.length_take_le ..
  obtain ⟨hwf, hbelow⟩ := h.identityForm
  exact { h with
    idFits := hlen
    identityForm := ⟨Memory.wf_writeBytes _ _ 0 hwf, Memory.below_writeBytes _ _ _ 0 hbelow (by omega)⟩ }

theorem ChannelInv.bufForm_write (h : ChannelInv cfg clock x) (hn : x.n < cfg.bufCap) (b : Byte) :
    Memory.wf (Memory.write x.buf x.n b) = true ∧ Memory.below cfg.bufCap (Memory.write x.buf x.n b) = true :=
  ⟨Memory.wf_write _ _ _ h.bufForm.1, Memory.below_write _ _ _ _ h.bufForm.2 hn⟩

/-- A byte is buffered (R200). If it completes no frame, the frame the buffer starts with, if any, is the old one: the
new byte lies behind it. -/
theorem ChannelInv.push (h : ChannelInv cfg clock x) (hhs : x.hs = .frameModeActive) (hdec : x.dec = .inFrame)
    (hn : x.n < cfg.bufCap) {b : Byte}
    (hgood : 5 ≤ x.n + 1 → x.n + 1 = 5 + (Memory.read (Memory.write x.buf x.n b) 4).toNat + 1 →
      verify (Memory.readBytes (Memory.write x.buf x.n b) 0 (x.n + 1)) = true) :
    ChannelInv cfg clock { x with buf := Memory.write x.buf x.n b, n := x.n + 1 } := by
  have hread (a : Nat) (ha : a < x.n) : Memory.read (Memory.write x.buf x.n b) a = Memory.read x.buf a := by
    rw [Memory.read_write _ _ _ _ h.bufForm.1, if_neg (by omega)]
  refine { h with
    preFrame := fun hx => absurd hhs hx
    outside := fun hx => absurd hdec hx
    fill := hn
    good := ?_
    bufForm := h.bufForm_write hn b }
  intro h5 hle
  dsimp only at h5 hle ⊢
  rcases Nat.lt_or_eq_of_le hle with hlt | heq
  · rw [hread 4 (by omega)] at hlt ⊢
    rw [Memory.readBytes_congr _ _ x.buf 0 (fun a _ ha => hread a (by omega))]
    exact h.good (by omega) (by omega)
  · rw [heq]
    exact hgood h5 heq.symm

end Channel

/-! ### The bit-level receiver -/

/-- A sample leaves the receiver in one of its eight data bits, if in any (R143). -/
theorem uartTick_data_lt (osr : Nat) (level : Bool) (u : Uart) (hu : ∀ k, u.phase = .data k → k < 8) :
    ∀ k, (uartTick osr level u).1.phase = .data k → k < 8 := by
  intro k
  unfold uartTick uartSample
  cases hphase : u.phase with
  | idle => dsimp only; split <;> simp
  | start =>
    dsimp only
    split
    · simp
    · split
      · simp
      · simp only [UartPhase.data.injEq]; omega
  | data j =>
    have hj := hu j hphase
    dsimp only
    split
    · simp only [UartPhase.data.injEq]; omega
    · split
      · simp only [UartPhase.data.injEq]; omega
      · simp
  | stop => dsimp only; split <;> simp

/-! ### The relay coordinator -/

/-- Clearing one channel's work bit clears no other (R343, R348). -/
theorem clearMask_and_eq_zero {m : BitVec 2} (c d : Chan) (h : m &&& maskBit d = 0#2) :
    m &&& ~~~ maskBit c &&& maskBit d = 0#2 := by
  rw [BitVec.and_assoc, BitVec.and_comm (~~~ maskBit c), ← BitVec.and_assoc, h, BitVec.zero_and]

theorem clearMask_and_self (m : BitVec 2) (c : Chan) : m &&& ~~~ maskBit c &&& maskBit c = 0#2 := by
  rw [BitVec.and_assoc, BitVec.and_comm (~~~ maskBit c), BitVec.and_not_self]
  exact BitVec.and_zero

theorem maskBit_and_of_ne {c d : Chan} (hne : d ≠ c) : maskBit c &&& maskBit d = 0#2 := by
  cases c <;> cases d
  · exact absurd rfl hne
  · rfl
  · rfl
  · exact absurd rfl hne

theorem setMask_and_of_ne {m : BitVec 2} {c d : Chan} (hne : d ≠ c) (h : m &&& maskBit d = 0#2) :
    (m ||| maskBit c) &&& maskBit d = 0#2 := by
  rw [BitVec.and_comm, BitVec.and_or_distrib_left, BitVec.and_comm _ m, BitVec.and_comm _ (maskBit c), h,
    maskBit_and_of_ne hne, BitVec.or_zero]

section Relay
variable {rc : RelayState}

/-- Without a pending after-run, the relay has to be on only while a work bit is set. -/
theorem RelayInv.of_no_afterRun (howner : rc.owner = none) (hdeadline : rc.deadline = none)
    (hon : rc.workMask ≠ 0#2 → rc.relay = true) : RelayInv rc where
  paired := iff_of_true howner hdeadline
  afterRun := fun h => absurd hdeadline h
  working := hon
  running := fun h => absurd hdeadline h

/-- Clearing work bits leaves a pending after-run pending. -/
theorem RelayInv.clearMask (h : RelayInv rc) (k : BitVec 2) : RelayInv { rc with workMask := rc.workMask &&& k } := by
  have hzero : rc.workMask = 0#2 → rc.workMask &&& k = 0#2 := by
    intro h0; rw [h0, BitVec.zero_and]
  exact { h with
    afterRun := fun hd => hzero (h.afterRun hd)
    working := fun hm => h.working (fun h0 => hm (hzero h0)) }

/-- The last work bit is cleared: an after-run starts, under a relay that is on (R343). -/
theorem RelayInv.startAfterRun (h : RelayInv rc) (hmask : rc.workMask ≠ 0#2) {m : BitVec 2} (hm : m = 0#2) (c : Chan)
    (d : Nat) : RelayInv { rc with workMask := m, owner := some c, deadline := some d } where
  paired := iff_of_false nofun nofun
  afterRun := fun _ => hm
  working := fun hm' => absurd hm hm'
  running := fun _ => h.working hmask

end Relay

/-- `t` has the registers of `s` outside the relay coordinator. -/
structure RelayOnly (s t : State) : Prop where
  cfg : t.cfg = s.cfg
  nActive : t.nActive = s.nActive
  ch : ∀ c, t.ch c = s.ch c
  ds : t.ds = s.ds
  cfgDirty : t.cfgDirty = s.cfgDirty
  tCfg : t.tCfg = s.tCfg
  clock : t.clock = s.clock

theorem emit_relayOnly (e : Event) (s : State) : RelayOnly s (emit e s) := by constructor <;> simp

theorem workOn_relayOnly (c : Chan) (s : State) : RelayOnly s (workOn c s) := by constructor <;> simp

theorem workOff_relayOnly (c : Chan) (now : Nat) (s : State) : RelayOnly s (workOff c now s) := by constructor <;> simp

theorem relayEval_relayOnly (now : Nat) (s : State) : RelayOnly s (relayEval now s) := by constructor <;> simp

theorem retract_relayOnly (c : Chan) (s : State) : RelayOnly s (retract c s) := by constructor <;> simp

/-- What retracting a channel leaves of the relay coordinator (R348). -/
theorem retract_rc (c : Chan) (s : State) :
    (retract c s).rc =
      if s.rc.owner = some c then
        { s.rc with workMask := s.rc.workMask &&& ~~~ maskBit c, owner := none, deadline := none }
      else { s.rc with workMask := s.rc.workMask &&& ~~~ maskBit c } := by
  simp only [retract]; split <;> rfl

theorem RelayInv.retract {s : State} (h : RelayInv s.rc) (c : Chan) : RelayInv (retract c s).rc := by
  have hclear := h.clearMask (~~~ maskBit c)
  rw [retract_rc]
  split
  · exact .of_no_afterRun rfl rfl hclear.working
  · exact hclear

/-- What an evaluation leaves of the relay coordinator (R342, R345 to R347). -/
theorem relayEval_rc_cases (now : Nat) (s : State) :
    (relayEval now s).rc = { s.rc with owner := none, deadline := none, relay := true }
    ∨ s.rc.workMask = 0#2 ∧ (relayEval now s).rc = { s.rc with owner := none, deadline := none, relay := false }
    ∨ s.rc.workMask = 0#2 ∧ s.rc.deadline = none ∧ (relayEval now s).rc = { s.rc with relay := false }
    ∨ (relayEval now s).rc = s.rc := by
  unfold relayEval
  split
  · exact .inl (by simp)
  · split
    · exact .inl (by simp)
    · have hmask : s.rc.workMask = 0#2 := not_not.1 ‹_›
      split
      · split
        · exact .inr (.inl ⟨hmask, by simp⟩)
        · exact .inr (.inr (.inr rfl))
      · exact .inr (.inr (.inl ⟨hmask, ‹_›, by simp⟩))

theorem RelayInv.relayEval {s : State} (h : RelayInv s.rc) (now : Nat) : RelayInv (relayEval now s).rc := by
  rcases relayEval_rc_cases now s with hrc | ⟨hmask, hrc⟩ | ⟨hmask, hdeadline, hrc⟩ | hrc <;> rw [hrc]
  · exact .of_no_afterRun rfl rfl fun _ => rfl
  · exact .of_no_afterRun rfl rfl fun hm => absurd hmask hm
  · exact .of_no_afterRun (h.paired.2 hdeadline) hdeadline fun hm => absurd hmask hm
  · exact h

/-! ### Device State -/

theorem clamp_zero_le (v hi : Nat) : clamp v 0 hi ≤ hi := by
  unfold clamp; split_ifs <;> omega

theorem clamped_toNat_le (w v hi : Nat) : (BitVec.ofNat w (clamp v 0 hi)).toNat ≤ hi := by
  rw [BitVec.toNat_ofNat]
  exact (Nat.mod_le ..).trans (clamp_zero_le v hi)

theorem Device.inRange_iff (delayMax : Nat) (ds : Device) :
    ds.inRange delayMax = true ↔
      ds.suctionLevel.toNat ≤ suctionMax ∧ ds.selectFlow.toNat ≤ flowMax ∧ ds.workDelayS.toNat ≤ delayMax
      ∧ ds.standDelayS.toNat ≤ delayMax ∧ ds.filterLife.toNat ≤ filterMax ∧ ds.filterSat.toNat ≤ filterMax := by
  simp only [Device.inRange, Bool.and_eq_true, decide_eq_true_eq, and_assoc]

/-- A write entry stores its field clamped to the field's range (R277, R278). -/
theorem storeField_inRange {delayMax : Nat} {ds : Device} (h : ds.inRange delayMax = true) (n : WName) (v : Nat) :
    (storeField delayMax n v ds).inRange delayMax = true := by
  rw [Device.inRange_iff] at h ⊢
  obtain ⟨hsuction, hflow, hwork, hstand, hlife, hsat⟩ := h
  cases n with
  | suctionLevel => exact ⟨clamped_toNat_le .., hflow, hwork, hstand, hlife, hsat⟩
  | selectFlow => exact ⟨hsuction, clamped_toNat_le .., hwork, hstand, hlife, hsat⟩
  | workDelay => exact ⟨hsuction, hflow, clamped_toNat_le .., hstand, hlife, hsat⟩
  | standDelay => exact ⟨hsuction, hflow, hwork, clamped_toNat_le .., hlife, hsat⟩
  | filterStatus => exact ⟨hsuction, hflow, hwork, hstand, clamped_toNat_le .., hsat⟩
  | filterSat => exact ⟨hsuction, hflow, hwork, hstand, hlife, clamped_toNat_le ..⟩
  | workAct | standAct | pedalAct | pedalMode | connectedPedal | contSuction | usbConnect | stationError =>
    exact ⟨hsuction, hflow, hwork, hstand, hlife, hsat⟩

/-! ### The state -/

section State
variable {s t : State} {c : Chan} {now : Nat}

/-- The invariant at another time and with other pending inputs. -/
theorem Inv.popInput (h : Inv s) {x : Input} (htime : timeOk s.clock x = true) (rest : List Input) :
    Inv (Machine.popInput x rest s) := by
  have hle : s.clock ≤ (Machine.popInput x rest s).clock := by
    cases x with
    | reset t0 => exact le_rfl
    | rx c b now | poll now | admin op now | line c level now => exact of_decide_eq_true htime
  exact { h with
    channels := fun c => match c with
      | .c0 => (h.channels .c0).of_clock_le hle
      | .c1 => (h.channels .c1).of_clock_le hle
    inactive := fun c => match c with
      | .c0 => h.inactive .c0
      | .c1 => h.inactive .c1
    dirtyTime := fun hd => (h.dirtyTime hd).trans hle }

/-- The state after `RESET` under a well-formed configuration (R54). -/
theorem Inv.resetWith {cfg : Cfg} (hwf : cfg.wf = true) (t0 : Nat) : Inv (State.resetWith cfg t0) := by
  have hparts := hwf
  simp only [Cfg.wf, Bool.and_eq_true, decide_eq_true_eq, Bool.or_eq_true, beq_iff_eq] at hparts
  obtain ⟨⟨⟨⟨⟨⟨-, hid0⟩, hid1⟩, haddr0⟩, haddr1⟩, hds⟩, hcount⟩ := hparts
  exact {
    cfgWf := hwf
    count := hcount
    channels := fun c => match c with
      | .c0 => .reset t0 haddr0 hid0
      | .c1 => .reset t0 haddr1 hid1
    inactive := fun c _ => by cases c <;> exact ⟨⟨rfl, rfl, rfl, rfl, rfl, rfl⟩, BitVec.zero_and, nofun⟩
    ranges := hds
    relay := .of_no_afterRun rfl rfl fun hm => absurd rfl hm
    dirtyTime := nofun }

/-- A channel in frame mode is active: an inactive one is at rest (R32 viii). -/
theorem Inv.active_of_frameMode (h : Inv s) (hhs : (s.ch c).hs = .frameModeActive) : s.active c = true := by
  by_contra hact
  obtain ⟨⟨hidle, _⟩, _⟩ := h.inactive c (Bool.eq_false_iff.2 hact)
  rw [hhs] at hidle
  cases hidle

/-- One channel record may be replaced by any that meets the channel clauses, if the channel is active or the new record
at rest. -/
theorem Inv.setCh (h : Inv s) {x : Channel} (hx : ChannelInv s.cfg s.clock x)
    (hrest : s.active c = true ∨ x.atRest) : Inv (s.setCh c x) where
  cfgWf := by simpa using h.cfgWf
  count := by simpa using h.count
  channels := fun d => by
    rw [setCh_cfg, setCh_clock]
    by_cases hdc : d = c
    · rwa [hdc, setCh_ch_self]
    · rw [setCh_ch_other _ _ _ _ hdc]
      exact h.channels d
  inactive := fun d hd => by
    rw [setCh_active] at hd
    obtain ⟨hat, hrc⟩ := h.inactive d hd
    refine ⟨?_, by simpa using hrc⟩
    by_cases hdc : d = c
    · subst hdc
      rw [setCh_ch_self]
      exact hrest.resolve_left (by simp [hd])
    · rwa [setCh_ch_other _ _ _ _ hdc]
  ranges := by simpa using h.ranges
  relay := by simpa using h.relay
  dirtyTime := by simpa using h.dirtyTime

/-- The relay coordinator may be replaced by one that meets the relay clauses and holds nothing of an inactive channel. -/
theorem Inv.withRelay (h : Inv s) (k : RelayOnly s t) (hrelay : RelayInv t.rc)
    (hinactive : ∀ c, s.active c = false → t.rc.workMask &&& maskBit c = 0#2 ∧ t.rc.owner ≠ some c) : Inv t where
  cfgWf := k.cfg ▸ h.cfgWf
  count := k.nActive ▸ h.count
  channels := fun c => by rw [k.cfg, k.clock, k.ch]; exact h.channels c
  inactive := fun c hc => by
    have hc' : s.active c = false := by rwa [State.active, k.nActive] at hc
    rw [k.ch]
    exact ⟨(h.inactive c hc').1, hinactive c hc'⟩
  ranges := by rw [k.ds, k.cfg]; exact h.ranges
  relay := hrelay
  dirtyTime := by rw [k.cfgDirty, k.tCfg, k.clock]; exact h.dirtyTime

theorem Inv.withDevice (h : Inv s) {ds : Device} (hds : ds.inRange s.cfg.delayMaxS = true) : Inv { s with ds := ds } :=
  { h with
    channels := fun c => match c with
      | .c0 => h.channels .c0
      | .c1 => h.channels .c1
    inactive := fun c => match c with
      | .c0 => h.inactive .c0
      | .c1 => h.inactive .c1
    ranges := hds }

theorem Inv.withDirty (h : Inv s) {dirty : Bool} {tCfg : Nat} (ht : dirty = true → tCfg ≤ s.clock) :
    Inv { s with cfgDirty := dirty, tCfg := tCfg } :=
  { h with
    channels := fun c => match c with
      | .c0 => h.channels .c0
      | .c1 => h.channels .c1
    inactive := fun c => match c with
      | .c0 => h.inactive .c0
      | .c1 => h.inactive .c1
    dirtyTime := ht }

theorem Inv.emit (h : Inv s) (e : Event) : Inv (emit e s) :=
  h.withRelay (emit_relayOnly e s) h.relay fun c hc => (h.inactive c hc).2

theorem Inv.markConfigDirty (h : Inv s) (hnow : now ≤ s.clock) : Inv (markConfigDirty now s) :=
  h.withDirty fun _ => hnow

/-! ### The relay operations -/

theorem Inv.workOn (h : Inv s) (hact : s.active c = true) : Inv (workOn c s) := by
  refine h.withRelay (workOn_relayOnly c s) ?_ fun d hd => ?_ <;> rw [workOn_rc]
  · exact .of_no_afterRun rfl rfl fun _ => rfl
  · have hne : d ≠ c := by rintro rfl; simp [hact] at hd
    exact ⟨setMask_and_of_ne hne (h.inactive d hd).2.1, nofun⟩

theorem Inv.workOff (h : Inv s) (hact : s.active c = true) (now : Nat) : Inv (workOff c now s) := by
  refine h.withRelay (workOff_relayOnly c now s) ?_ fun d hd => ?_ <;> rw [workOff_rc]
  · split
    next hlast => exact h.relay.startAfterRun hlast.1 hlast.2.1 c _
    next => exact h.relay.clearMask _
  · have hne : d ≠ c := by rintro rfl; simp [hact] at hd
    obtain ⟨_, hmask, howner⟩ := h.inactive d hd
    have hcleared := clearMask_and_eq_zero c d hmask
    split
    · exact ⟨hcleared, fun ho => hne (Option.some.inj ho).symm⟩
    · exact ⟨hcleared, howner⟩

theorem Inv.relayEval (h : Inv s) (now : Nat) : Inv (relayEval now s) := by
  refine h.withRelay (relayEval_relayOnly now s) (h.relay.relayEval now) fun d hd => ?_
  obtain ⟨_, hmask, howner⟩ := h.inactive d hd
  rcases relayEval_rc_cases now s with hrc | ⟨_, hrc⟩ | ⟨_, _, hrc⟩ | hrc <;> rw [hrc]
  · exact ⟨hmask, nofun⟩
  · exact ⟨hmask, nofun⟩
  · exact ⟨hmask, howner⟩
  · exact ⟨hmask, howner⟩

/-- What a retracted channel holds of the relay coordinator: nothing (R348). -/
theorem retract_holds_nothing (c : Chan) (s : State) :
    (retract c s).rc.workMask &&& maskBit c = 0#2 ∧ (retract c s).rc.owner ≠ some c := by
  rw [retract_rc]
  split
  · exact ⟨clearMask_and_self .., nofun⟩
  · exact ⟨clearMask_and_self .., ‹_›⟩

/-- Retracting gives no channel anything. -/
theorem retract_holds_no_more {d : Chan} (c : Chan)
    (hd : s.rc.workMask &&& maskBit d = 0#2 ∧ s.rc.owner ≠ some d) :
    (retract c s).rc.workMask &&& maskBit d = 0#2 ∧ (retract c s).rc.owner ≠ some d := by
  have hcleared := clearMask_and_eq_zero c d hd.1
  rw [retract_rc]
  split
  · exact ⟨hcleared, nofun⟩
  · exact ⟨hcleared, hd.2⟩

theorem Inv.retract (h : Inv s) (c : Chan) : Inv (retract c s) :=
  h.withRelay (retract_relayOnly c s) (h.relay.retract c) fun d hd => retract_holds_no_more c (h.inactive d hd).2

theorem Inv.writeField (h : Inv s) (hact : s.active c = true) (n : WName) (v now : Nat) :
    Inv (writeField n v c now s) := by
  have hstore : Inv (storeDevice n v s) := h.withDevice (storeField_inRange h.ranges n v)
  unfold Machine.writeField relayDrive
  split
  · split
    · exact hstore.workOn hact
    · exact hstore.workOff hact now
  · exact hstore

theorem Inv.storeIdentity (h : Inv s) (hact : s.active c = true) (data : List Byte) : Inv (storeIdentity c data s) :=
  (h.setCh ((h.channels c).storeIdentity data) (.inl hact)).emit _

theorem Inv.resync (h : Inv s) (hact : s.active c = true) : Inv (resync c s) :=
  h.setCh (h.channels c).resync (.inl hact)

theorem Inv.channelReset (h : Inv s) (c : Chan) : Inv (channelReset c s) :=
  h.setCh (h.channels c).channelReset (.inr (Channel.atRest_channelReset _))

theorem Inv.touchRx (h : Inv s) (hact : s.active c = true) (hnow : now ≤ s.clock) : Inv (touchRx c now s) :=
  h.setCh ((h.channels c).touchRx hnow) (.inl hact)

theorem Inv.reply (h : Inv s) (hact : s.active c = true) (hnow : now ≤ s.clock) (dst fid ctl : Byte)
    (data : List Byte) : Inv (reply c dst fid ctl data now s) :=
  (h.emit _).setCh (by simpa using (h.channels c).replied hnow) (.inl hact)

/-! ### The frame-level rows -/

section FrameMode
variable (h : Inv s) (hhs : (s.ch c).hs = .frameModeActive)
include h hhs

theorem Inv.setFrameMode {x : Channel} (hx : ChannelInv s.cfg s.clock x) : Inv (s.setCh c x) :=
  h.setCh hx (.inl (h.active_of_frameMode hhs))

theorem Inv.adoptAddress (dst : Byte) : Inv (adoptAddress c dst s) := by
  unfold Machine.adoptAddress
  split
  next hnew =>
    obtain ⟨_, hbroadcast, hreserved⟩ := hnew
    have hlegal : legalAddr dst = true := by simp [legalAddr, hbroadcast, hreserved]
    exact (h.setFrameMode hhs ((h.channels c).adopt hhs hlegal)).emit _
  next => exact h

theorem Inv.touchFor (hnow : now ≤ s.clock) (f : Frame) : Inv (touchFor c f now s) := by
  rcases touchFor_cases c f now s with hsame | htouch
  · rwa [hsame]
  · rw [htouch]
    exact h.setFrameMode hhs ((h.channels c).idleTouched hnow)

end FrameMode

/-- A reply that brings the link up (R237, R238). -/
theorem Inv.replyUp (h : Inv s) (hhs : (s.ch c).hs = .frameModeActive) (hnow : now ≤ s.clock) (dst fid ctl : Byte)
    (data : List Byte) : Inv (setLink c .up (Machine.reply c dst fid ctl data now s)) := by
  have hreplied := h.reply (h.active_of_frameMode hhs) hnow dst fid ctl data
  have hhs' : ((Machine.reply c dst fid ctl data now s).ch c).hs = .frameModeActive := by simpa using hhs
  exact hreplied.setFrameMode hhs' ((hreplied.channels c).setLink hhs' .up)

theorem execFrmHs_inv (h : Inv s) {hd : Hdr} (hhs : (s.ch hd.c).hs = .frameModeActive) (hnow : hd.now ≤ s.clock)
    (data : List Byte) : Ensures (execFrmHs hd data s) Inv := by
  have hadopted := h.adoptAddress hhs hd.dst
  have hhs' : ((adoptAddress hd.c hd.dst s).ch hd.c).hs = .frameModeActive :=
    (adoptAddress_keeps hd.c hd.dst s).hs.trans hhs
  have hnoted : Inv (noteHandshake hd.c hd.src (adoptAddress hd.c hd.dst s)) :=
    hadopted.setFrameMode hhs' ((hadopted.channels hd.c).noteHandshake hhs' _ _)
  have hact : (noteHandshake hd.c hd.src (adoptAddress hd.c hd.dst s)).active hd.c = true :=
    hnoted.active_of_frameMode (by simpa using hhs')
  exact ensures_next.2 (hnoted.reply hact (by simpa using hnow) _ _ _ _)

theorem tableWrite_inv (h : Inv s) {hd : Hdr} (hact : s.active hd.c = true) (hnow : hd.now ≤ s.clock) (n : WName)
    (v : Nat) : Inv (tableWrite n hd v s) := by
  have hwritten := h.writeField hact n v hd.now
  have hact' : (writeField n v hd.c hd.now s).active hd.c = true := by simpa [State.active] using hact
  exact (hwritten.reply hact' (by simpa using hnow) _ _ _ _).markConfigDirty (by simpa using hnow)

theorem runFrame_inv (h : Inv s) {hd : Hdr} (hhs : (s.ch hd.c).hs = .frameModeActive) (hnow : hd.now ≤ s.clock)
    (sel : FrameSel) (data : List Byte) : Ensures (runFrame sel hd data s) Inv := by
  have hact := h.active_of_frameMode hhs
  cases sel with
  | hs => exact execFrmHs_inv h hhs hnow data
  | notForUs => exact ensures_next.2 h
  | fwId => exact ensures_next.2 (h.replyUp hhs hnow _ _ _ _)
  | idRead => exact ensures_next.2 (h.replyUp hhs hnow _ _ _ _)
  | write w =>
    cases w with
    | identity =>
      have hact' : (storeIdentity hd.c data s).active hd.c = true := by simpa [State.active] using hact
      exact ensures_next.2 ((h.storeIdentity hact data).reply hact' (by simpa using hnow) _ _ _ _)
    | fwNop => exact ensures_next.2 (h.reply hact hnow _ _ _ _)
    | entry n k =>
      refine ⟨_, runWrite_eq n hd _ (valueAt_lt n k data) s, ?_⟩
      exact tableWrite_inv h hact hnow n _
  | read n k => exact ⟨_, runRead_eq n hd _ s, h.reply hact hnow _ _ _ _⟩
  | unknown => exact ensures_next.2 h

/-- A dispatched frame keeps the invariant and leaves the channel in frame mode. -/
theorem dispatch_inv (h : Inv s) (hhs : (s.ch c).hs = .frameModeActive) (hnow : now ≤ s.clock) (f : Frame) :
    Ensures (dispatch c f now s) fun t => Inv t ∧ (t.ch c).hs = .frameModeActive := by
  have hkeeps : Ensures (dispatch c f now s) (DispatchKeeps c s) := dispatch_next c f now s
  have htouched := touchFor_keeps c f now s
  have hinv : Ensures (dispatch c f now s) Inv :=
    runFrame_inv (h.touchFor hhs hnow f) (htouched.hs.trans hhs) (hnow.trans_eq htouched.clock.symm) _ _
  exact (hinv.and hkeeps).mono fun t ⟨ht, hk⟩ => ⟨ht, hk.hs.trans hhs⟩

/-! ### The decoder -/

theorem Inv.raise (h : Inv s) (hact : s.active c = true) (k : ErrKind) : Inv (raise c k s) :=
  Inv.resync (h.emit _) hact

/-- Throwing away a byte just buffered is throwing away the buffer (R384). -/
theorem Inv.raise_pushByte (h : Inv s) (hact : s.active c = true) (hn : (s.ch c).n < s.cfg.bufCap) (b : Byte)
    (k : ErrKind) : Inv (Machine.raise c k (pushByte c b s)) := by
  have hdiscard := (h.channels c).discard ((h.channels c).bufForm_write hn b)
  have hinv : Inv (Machine.emit (.report c k) (s.setCh c _)) := (h.setCh hdiscard (.inl hact)).emit _
  convert hinv using 1
  cases c <;> rfl

theorem checkComplete_pushByte_inv (h : Inv s) (hhs : (s.ch c).hs = .frameModeActive)
    (hdec : (s.ch c).dec = .inFrame) (hn : (s.ch c).n < s.cfg.bufCap) (hnow : now ≤ s.clock) (b : Byte) :
    Ensures (checkComplete c now (pushByte c b s)) Inv := by
  have hact := h.active_of_frameMode hhs
  have hpush (hgood : atNeed (pushByte c b s) c = true → verify (bufBytes (pushByte c b s) c) = true) :
      Inv (pushByte c b s) := by
    refine h.setFrameMode hhs ((h.channels c).push hhs hdec hn fun h5 hneed => ?_)
    have hat : atNeed (pushByte c b s) c = true := by
      simp only [atNeed, need, bufByte, pushByte_ch_self, Bool.and_eq_true, decide_eq_true_eq]
      exact ⟨h5, hneed⟩
    simpa [bufBytes] using hgood hat
  rcases checkComplete_cases c now (pushByte c b s) with ⟨hfalse, hres⟩ | ⟨_, hverify, hres⟩ | ⟨_, _, hres⟩ <;> rw [hres]
  · exact ensures_next.2 (hpush (by simp [hfalse]))
  · exact (dispatch_inv (hpush fun _ => hverify) (by simpa using hhs) (by simpa using hnow) _).mono fun _ => And.left
  · exact ensures_next.2 (h.raise_pushByte hact hn b _)

theorem appendByte_inv (h : Inv s) (hhs : (s.ch c).hs = .frameModeActive) (hdec : (s.ch c).dec = .inFrame)
    (hnow : now ≤ s.clock) (b : Byte) : Ensures (appendByte c b now s) Inv := by
  rcases appendByte_cases c b now s with ⟨_, hres⟩ | ⟨hn, hres⟩ <;> rw [hres]
  · exact ensures_next.2 (h.raise (h.active_of_frameMode hhs) _)
  · exact checkComplete_pushByte_inv h hhs hdec hn hnow b

theorem flushBestEffort_inv (h : Inv s) (hhs : (s.ch c).hs = .frameModeActive) (hnow : now ≤ s.clock) :
    Ensures (flushBestEffort c now s) fun t => Inv t ∧ (t.ch c).hs = .frameModeActive := by
  rcases flushBestEffort_cases c now s with ⟨_, hres⟩ | ⟨_, _, _, hres⟩ | ⟨_, _, _, hres⟩ <;> rw [hres]
  · exact ensures_next.2 ⟨h, hhs⟩
  · exact dispatch_inv h hhs hnow _
  · exact ensures_next.2 ⟨h.emit _, by simpa using hhs⟩

theorem decoderByte_inv (h : Inv s) (hhs : (s.ch c).hs = .frameModeActive) (hnow : now ≤ s.clock) (b : Byte) :
    Ensures (decoderByte c b now s) Inv := by
  have hx := h.channels c
  have hflush := flushBestEffort_inv h hhs hnow
  unfold decoderByte selectDecoder
  cases hdec : (s.ch c).dec with
  | awaitMarker =>
    have hset (v : DecState) := h.setFrameMode hhs (hx.setDec hhs (by simp [hdec]) v)
    dsimp only
    split_ifs
    · exact ensures_next.2 (hset _)
    · exact ensures_next.2 h
  | awaitStart =>
    have hset (v : DecState) := h.setFrameMode hhs (hx.setDec hhs (by simp [hdec]) v)
    dsimp only
    split_ifs
    · exact ensures_next.2 (h.setFrameMode hhs (hx.freshFrame hhs))
    · exact ensures_next.2 h
    · exact ensures_next.2 (hset _)
  | inFrame =>
    have hesc (v : Bool) := h.setFrameMode hhs (hx.setEsc hhs hdec v)
    cases (s.ch c).esc with
    | false =>
      dsimp only
      split_ifs
      · exact ensures_next.2 (hesc true)
      · exact appendByte_inv h hhs hdec hnow b
    | true =>
      dsimp only
      split_ifs
      · exact appendByte_inv (hesc false) (by simpa using hhs) (by simpa using hdec) (by simpa using hnow) markerByte
      · exact hflush.andThen fun t ⟨ht, hhs'⟩ => ensures_next.2 (ht.resync (ht.active_of_frameMode hhs'))
      · exact hflush.andThen fun t ⟨ht, hhs'⟩ =>
          ensures_next.2 (ht.setFrameMode hhs' ((ht.channels c).freshFrame hhs'))
      · exact ensures_next.2 (h.raise (h.active_of_frameMode hhs) _)

/-! ### The sequencer -/

theorem Inv.setHs (h : Inv s) (hact : s.active c = true) (hhs : (s.ch c).hs ≠ .frameModeActive) {v : HsState}
    (hv : v ≠ .gotAck1 ∧ v ≠ .gotSoh) : Inv (setHs c v s) :=
  h.setCh ((h.channels c).setHs hhs hv) (.inl hact)

theorem Inv.synSent (h : Inv s) (hact : s.active c = true) (hhs : (s.ch c).hs ≠ .frameModeActive)
    (hnow : now ≤ s.clock) : Inv (synSent c now s) :=
  (h.emit _).setCh ((h.channels c).synSent hhs hnow) (.inl hact)

theorem Inv.ack2Sent (h : Inv s) (hact : s.active c = true) (hhs : (s.ch c).hs ≠ .frameModeActive) :
    Inv (ack2Sent c s) :=
  (h.emit _).setHs hact (by simpa using hhs) ⟨nofun, nofun⟩

theorem Inv.ack3Sent (h : Inv s) (hact : s.active c = true) (hhs : (s.ch c).hs ≠ .frameModeActive) :
    Inv (ack3Sent c s) := by
  have hframe := (h.emit (.tx c [s.cfg.bAck])).setHs (v := .frameModeActive) hact (by simpa using hhs) ⟨nofun, nofun⟩
  exact hframe.setFrameMode (by simp) ((hframe.channels c).setLink (by simp) .connecting)

/-- `HS.MARKER` (R170): before frame mode the decoder waits for a marker, so it may move on to the start byte. -/
theorem Inv.enterFrameMode (h : Inv s) (hact : s.active c = true) (hhs : (s.ch c).hs ≠ .frameModeActive) :
    Inv (setDec c .awaitStart (Machine.setHs c .frameModeActive s)) := by
  have hframe := h.setHs (v := .frameModeActive) hact hhs ⟨nofun, nofun⟩
  have hdec : ((Machine.setHs c .frameModeActive s).ch c).dec ≠ .inFrame := by
    simp [((h.channels c).preFrame hhs).1]
  exact hframe.setFrameMode (by simp) ((hframe.channels c).setDec (by simp) hdec _)

/-- The transition without input in a settled state (R360). -/
theorem settle_inv (h : Inv s) (hact : s.active c = true) (hnow : now ≤ s.clock) :
    Ensures (settle c now s) fun t => Inv t ∧ t.clock = s.clock := by
  obtain ⟨hack1, hsoh⟩ := (h.channels c).settled
  rcases settle_cases c now s with ⟨_, _, hres⟩ | ⟨hhs, hres⟩ | ⟨hhs, _⟩ | ⟨hhs, _⟩
  · exact hres ▸ ensures_next.2 ⟨h, rfl⟩
  · exact hres ▸ ensures_next.2 ⟨h.synSent hact (by simp [hhs]) hnow, by simp [Machine.synSent]⟩
  · exact absurd hhs hack1
  · exact absurd hhs hsoh

theorem synSent_setHs (c : Chan) (now : Nat) (v : HsState) (s : State) :
    synSent c now (setHs c v s) = synSent c now s := by cases c <;> rfl

theorem ack2Sent_setHs (c : Chan) (v : HsState) (s : State) : ack2Sent c (setHs c v s) = ack2Sent c s := by
  cases c <;> rfl

theorem ack3Sent_setHs (c : Chan) (v : HsState) (s : State) : ack3Sent c (setHs c v s) = ack3Sent c s := by
  cases c <;> rfl

/-- A byte's move of the sequencer and the transition without input after it (R179): `gotAck1` and `gotSoh` are left
within the step. -/
theorem settle_setHs_inv (h : Inv s) (hact : s.active c = true) (hhs : (s.ch c).hs ≠ .frameModeActive)
    (hnow : now ≤ s.clock) (v : HsState) : Ensures (settle c now (setHs c v s)) Inv := by
  rcases settle_cases c now (setHs c v s) with ⟨hack1, hsoh, hres⟩ | ⟨_, hres⟩ | ⟨_, hres⟩ | ⟨_, hres⟩ <;> rw [hres]
  · rw [setHs_ch_self] at hack1 hsoh
    exact ensures_next.2 (h.setHs hact hhs ⟨hack1, hsoh⟩)
  · exact ensures_next.2 (synSent_setHs c now v s ▸ h.synSent hact hhs hnow)
  · exact ensures_next.2 (ack2Sent_setHs c v s ▸ h.ack2Sent hact hhs)
  · exact ensures_next.2 (ack3Sent_setHs c v s ▸ h.ack3Sent hact hhs)

/-! ### The step inputs -/

theorem execRx_inv (h : Inv s) (hnow : now ≤ s.clock) (c : Chan) (b : Byte) : Ensures (execRx c b now s) Inv := by
  unfold execRx
  split_ifs with hinactive hhs
  · exact ensures_next.2 h
  all_goals
    have hact : s.active c = true := Bool.not_eq_false _ ▸ hinactive
    have htouched := h.touchRx hact hnow
    have hact' : (touchRx c now s).active c = true := by simpa [State.active] using hact
    have hnow' : now ≤ (touchRx c now s).clock := by simpa using hnow
  · exact decoderByte_inv htouched (by simpa using hhs) hnow' b
  · have hhs' : ((touchRx c now s).ch c).hs ≠ .frameModeActive := by simpa using hhs
    rcases handshakeByte_cases c b now (touchRx c now s) with hres | ⟨v, _, hres⟩ | hres <;> rw [hres, andThen_next]
    · have hentered := htouched.enterFrameMode hact' hhs'
      exact (settle_inv hentered (hentered.active_of_frameMode (by simp)) (by simpa using hnow)).mono fun _ => And.left
    · exact settle_setHs_inv htouched hact' hhs' hnow' v
    · exact (settle_inv htouched hact' hnow').mono fun _ => And.left

theorem Inv.debounceFlush (h : Inv s) (now : Nat) : Inv (debounceFlush now s) := by
  unfold Machine.debounceFlush
  split
  · exact (h.emit _).withDirty nofun
  · exact h

theorem Inv.inactivityCheck (h : Inv s) (c : Chan) (now : Nat) : Inv (inactivityCheck c now s) := by
  unfold Machine.inactivityCheck
  split
  · exact (h.channelReset c).retract c
  · exact h

theorem execPoll_inv (h : Inv s) (hnow : now ≤ s.clock) : Ensures (execPoll now s) Inv := by
  have hsettled : Ensures (forActive (fun c u => settle c now u) s) fun u => Inv u ∧ now ≤ u.clock :=
    forActive_ensures ⟨h, hnow⟩ fun c u hact ⟨hu, hnow'⟩ =>
      (settle_inv hu hact hnow').mono fun t ⟨ht, hclock⟩ => ⟨ht, hclock ▸ hnow'⟩
  exact hsettled.andThen fun u ⟨hu, _⟩ =>
    forActive_ensures ((hu.relayEval now).debounceFlush now) fun c t _ ht => ensures_next.2 (ht.inactivityCheck c now)

theorem execAdminWrite_inv (h : Inv s) (hnow : now ≤ s.clock) (c : Chan) (ctl : Byte) (data : List Byte) :
    Ensures (execAdminWrite c ctl data now s) Inv := by
  unfold execAdminWrite
  split
  · exact ensures_next.2 h
  · have hact : s.active c = true := Bool.not_eq_false _ ▸ ‹_›
    split
    · exact ensures_next.2 (h.storeIdentity hact data)
    · exact ensures_next.2 h
    · exact ensures_next.2 ((h.writeField hact _ _ now).markConfigDirty (by simpa using hnow))
    · exact ensures_next.2 h

/-- The active count may become one under which every inactive channel is at rest and holds nothing. -/
theorem Inv.withCount (h : Inv s) {k : Nat} (hk : k = 1 ∨ k = 2)
    (hrest : ∀ c, k ≤ c.idx → (s.ch c).atRest ∧ s.rc.workMask &&& maskBit c = 0#2 ∧ s.rc.owner ≠ some c) :
    Inv { s with nActive := k } :=
  { h with
    count := hk
    channels := fun c => match c with
      | .c0 => h.channels .c0
      | .c1 => h.channels .c1
    inactive := fun c hc => match c with
      | .c0 => hrest .c0 (Nat.not_lt.1 (of_decide_eq_false hc))
      | .c1 => hrest .c1 (Nat.not_lt.1 (of_decide_eq_false hc)) }

theorem retract_channelReset_withCount (c : Chan) (k : Nat) (s : State) :
    retract c (channelReset c { s with nActive := k }) = { retract c (channelReset c s) with nActive := k } := by
  simp only [retract, channelReset_rc]
  split <;> cases c <;> rfl

/-- Counting a channel out (R372): it is reset and retracted, so it is at rest and holds nothing. -/
theorem Inv.disable (h : Inv s) : Inv (Machine.retract .c1 (Machine.channelReset .c1 { s with nActive := 1 })) := by
  rw [retract_channelReset_withCount]
  refine ((h.channelReset .c1).retract .c1).withCount (.inl rfl) fun c hc => ?_
  cases c with
  | c0 => exact absurd hc (by decide)
  | c1 =>
    rw [retract_ch, channelReset_ch_self]
    exact ⟨Channel.atRest_channelReset _, retract_holds_nothing ..⟩

theorem execAdminSetActiveCount_inv (h : Inv s) (hnow : now ≤ s.clock) (k : Nat) :
    Ensures (execAdminSetActiveCount k now s) Inv := by
  have hsame : ∀ k, s.nActive = k → Inv { s with nActive := k } := by rintro _ rfl; exact h
  have hboth : Inv { s with nActive := 2 } :=
    h.withCount (.inr rfl) fun c hc => by cases c <;> exact absurd hc (by decide)
  unfold execAdminSetActiveCount
  split
  next hk =>
    refine ensures_next.2 ?_
    rcases h.count with hold | hold <;> rcases hk with rfl | rfl <;> simp only [recount, Chan.idx, hold]
    · exact hsame 1 hold
    · exact hboth.touchRx (c := .c1) rfl hnow
    · exact h.disable
    · exact hsame 2 hold
  next => exact ensures_next.2 h

theorem execReset_inv (h : Inv s) (t0 : Nat) : Ensures (execReset t0 s) Inv := by
  have hreset := Inv.resetWith h.cfgWf t0
  refine ensures_next.2 (hreset.withRelay ?_ hreset.relay fun c hc => (hreset.inactive c hc).2)
  exact ⟨rfl, rfl, fun c => by cases c <;> rfl, rfl, rfl, rfl, rfl⟩

theorem adminOp_inv (h : Inv s) (hnow : now ≤ s.clock) (op : AdminOp) : Ensures (exec (op.instr now) s) Inv := by
  cases op with
  | write c ctl data => exact execAdminWrite_inv h hnow c ctl data
  | forceErrorMask v =>
    have hstored : Inv { s with ds := { s.ds with stationError := v } } := h.withDevice h.ranges
    exact ensures_next.2 (hstored.markConfigDirty hnow)
  | setActiveCount k => exact execAdminSetActiveCount_inv h hnow k
  | setTelemetry field v =>
    cases field with
    | flow => exact ensures_next.2 (h.withDevice h.ranges)
    | speed => exact ensures_next.2 (h.withDevice h.ranges)
  | wipePersistence => exact ensures_next.2 h

/-- The instruction of an input, run at the input's time. -/
theorem exec_decodeInput_inv (h : Inv s) {x : Input} {i : Instr} (hdec : decodeInput x = some i)
    (hnow : ∀ now, inputTime x = some now → now ≤ s.clock) : Ensures (exec i s) Inv := by
  cases x with
  | reset t0 => cases hdec; exact execReset_inv h t0
  | rx c b now => cases hdec; exact execRx_inv h (hnow now rfl) c b
  | poll now => cases hdec; exact execPoll_inv h (hnow now rfl)
  | admin op now => cases hdec; exact adminOp_inv h (hnow now rfl) op
  | line c level now => cases hdec

/-- A line sample moves a bit-level receiver on, which an inactive channel may do too (R143). -/
theorem Inv.sampled (h : Inv s) (hnow : s.clock ≤ now) (c : Chan) (level : Bool) (rest : List Input) :
    Inv (sampled c level now rest s) := by
  have hpop := h.popInput ((timeOk_line_iff _ c level now).2 hnow) rest
  have hx : ChannelInv s.cfg now (s.ch c) := (h.channels c).of_clock_le hnow
  refine hpop.setCh { hx with uartBits := uartTick_data_lt _ _ _ hx.uartBits } ?_
  cases hact : s.active c with
  | true => exact .inl hact
  | false => exact .inr (h.inactive c hact).1

end State

/-! ### The statements -/

/-- Settles O53, by the cases of the step: no input, an instruction run at its input's time, a line sample. -/
theorem stepKeepsInvariant : Obligations.StepKeepsInvariant := by
  intro s t h hstep
  rcases step_cases hstep with ⟨_, rfl⟩ | ⟨x, rest, i, _, htime, hdec, hexec⟩ | ⟨c, level, now, rest, _, hnow, hline⟩
  · exact h
  · have hpop := h.popInput htime rest
    have hclock : ∀ now, inputTime x = some now → now ≤ (popInput x rest s).clock := by
      intro now hx
      simp [popInput, hx]
    exact (exec_decodeInput_inv hpop hdec hclock).of_eq_next hexec
  · have hsampled := h.sampled hnow c level rest
    rcases hline with rfl | ⟨b, _, hrx⟩
    · exact hsampled
    · have hclock : now ≤ (sampled c level now rest s).clock := by simp [sampled, popInput, inputTime]
      exact (execRx_inv hsampled hclock c b).of_eq_next hrx

/-- Settles O52: the reference configuration is well-formed. -/
theorem invariantAtReset : Obligations.InvariantAtReset := Inv.resetWith (by decide) 0

/-- Settles O47: the identities read back as written into empty memories. -/
theorem resetValues : Obligations.ResetValues := by
  intro t0 s
  have hidentity (x : List Byte) : Memory.readBytes (Memory.writeBytes [] 0 x) 0 x.length = x :=
    Memory.readBytes_writeBytes x [] 0 Memory.wf_nil
  refine ⟨_, rfl, rfl, rfl, rfl, fun c => ?_, hidentity _, rfl, hidentity _, rfl, rfl, rfl, rfl, rfl, rfl, rfl,
    (List.append_nil _).symm⟩
  cases c <;> exact ⟨⟨rfl, rfl, rfl, rfl, rfl, rfl⟩, rfl, rfl, rfl, rfl, rfl⟩

end Sys2Proof.Machine
end

