-- ==== Sys2Proof/Proofs/Address.lean ====
section
/-! The channel addresses (R21, R22, R376): every step but a frame received in frame mode keeps them all
(`SameAddresses`), and such a frame changes its own channel's address only by adoption (`AddressStep`). -/

namespace Sys2Proof.Machine

variable {s t u : State} {c : Chan} {now : Nat}

/-! ### What keeps every address -/

/-- No channel changed its address. -/
def SameAddresses (s t : State) : Prop := ∀ d, (t.ch d).addr = (s.ch d).addr

theorem SameAddresses.refl (s : State) : SameAddresses s s := fun _ => rfl

theorem SameAddresses.trans (h : SameAddresses s t) (k : SameAddresses t u) : SameAddresses s u :=
  fun d => (k d).trans (h d)

theorem SameAddresses.of_ch_eq (h : ∀ d, t.ch d = s.ch d) : SameAddresses s t := fun d => by rw [h d]

theorem emit_sameAddresses (e : Event) (s : State) : SameAddresses s (emit e s) := .of_ch_eq (emit_ch e s)

theorem setCh_sameAddresses {x : Channel} (hx : x.addr = (s.ch c).addr := by rfl) :
    SameAddresses s (s.setCh c x) := by
  intro d
  by_cases hd : d = c
  · rw [hd, setCh_ch_self, hx]
  · rw [setCh_ch_other _ _ _ _ hd]

theorem settle_sameAddresses (c : Chan) (now : Nat) (s : State) : Ensures (settle c now s) (SameAddresses s) := by
  rcases settle_cases c now s with ⟨_, _, hres⟩ | ⟨_, hres⟩ | ⟨_, hres⟩ | ⟨_, hres⟩ <;> rw [hres, ensures_next]
  · exact .refl s
  · exact (emit_sameAddresses _ s).trans setCh_sameAddresses
  · exact (emit_sameAddresses _ s).trans setCh_sameAddresses
  · exact ((emit_sameAddresses _ s).trans setCh_sameAddresses).trans setCh_sameAddresses

theorem handshakeByte_sameAddresses (c : Chan) (b : Byte) (now : Nat) (s : State) :
    Ensures (handshakeByte c b now s) (SameAddresses s) := by
  rcases handshakeByte_cases c b now s with hres | ⟨v, _, hres⟩ | hres <;> rw [hres, ensures_next]
  · exact SameAddresses.trans setCh_sameAddresses setCh_sameAddresses
  · exact setCh_sameAddresses
  · exact .refl s

theorem inactivityCheck_sameAddresses (c : Chan) (now : Nat) (s : State) :
    SameAddresses s (inactivityCheck c now s) := by
  unfold inactivityCheck
  split
  · exact SameAddresses.trans setCh_sameAddresses (.of_ch_eq (retract_ch c _))
  · exact .refl s

theorem debounceFlush_sameAddresses (now : Nat) (s : State) : SameAddresses s (debounceFlush now s) := by
  unfold debounceFlush
  split
  · exact .of_ch_eq fun d => by cases d <;> rfl
  · exact .refl s

theorem execPoll_sameAddresses (now : Nat) (s : State) : Ensures (execPoll now s) (SameAddresses s) := by
  have hsettled : Ensures (forActive (fun c u => settle c now u) s) (SameAddresses s) :=
    forActive_ensures (.refl s) fun c u _ hu => (settle_sameAddresses c now u).mono fun t ht => hu.trans ht
  refine hsettled.andThen fun u hu => forActive_ensures ?_ fun c t _ ht => ensures_next.2 ?_
  · exact (hu.trans (.of_ch_eq (relayEval_ch now u))).trans (debounceFlush_sameAddresses now _)
  · exact ht.trans (inactivityCheck_sameAddresses c now t)

theorem storeIdentity_sameAddresses (c : Chan) (data : List Byte) (s : State) :
    SameAddresses s (storeIdentity c data s) :=
  SameAddresses.trans setCh_sameAddresses (emit_sameAddresses _ _)

theorem execAdminWrite_sameAddresses (c : Chan) (ctl : Byte) (data : List Byte) (now : Nat) (s : State) :
    Ensures (execAdminWrite c ctl data now s) (SameAddresses s) := by
  unfold execAdminWrite
  split
  · exact ensures_next.2 (.refl s)
  · split
    · exact ensures_next.2 (storeIdentity_sameAddresses c data s)
    · exact ensures_next.2 (.refl s)
    · exact ensures_next.2 (.of_ch_eq fun d => by simp)
    · exact ensures_next.2 (.refl s)

theorem recount_sameAddresses (old k : Nat) (c : Chan) (now : Nat) (s : State) :
    SameAddresses s (recount old k c now s) := by
  unfold recount
  split
  · exact SameAddresses.trans setCh_sameAddresses (.of_ch_eq (retract_ch c _))
  · split
    · exact setCh_sameAddresses
    · exact .refl s

theorem execAdminSetActiveCount_sameAddresses (k now : Nat) (s : State) :
    Ensures (execAdminSetActiveCount k now s) (SameAddresses s) := by
  unfold execAdminSetActiveCount
  split
  · have hcount : SameAddresses s { s with nActive := k } := .of_ch_eq fun d => by cases d <;> rfl
    exact ensures_next.2 ((hcount.trans (recount_sameAddresses _ _ _ _ _)).trans (recount_sameAddresses _ _ _ _ _))
  · exact ensures_next.2 (.refl s)

theorem adminOp_sameAddresses (op : AdminOp) (now : Nat) (s : State) :
    Ensures (exec (op.instr now) s) (SameAddresses s) := by
  cases op with
  | write c ctl data => exact execAdminWrite_sameAddresses c ctl data now s
  | forceErrorMask v => exact ensures_next.2 (.of_ch_eq fun d => by cases d <;> rfl)
  | setActiveCount k => exact execAdminSetActiveCount_sameAddresses k now s
  | setTelemetry field v => cases field <;> exact ensures_next.2 (.of_ch_eq fun d => by cases d <;> rfl)
  | wipePersistence => exact ensures_next.2 (.refl s)

/-! ### What a frame may do to its channel's address -/

/-- Channel `c` adopted an address (R233): it was unlocked, is locked at a legal one, and the save of that address is
among the events since. -/
structure Adopted (c : Chan) (s t : State) : Prop where
  unlocked : (s.ch c).locked = false
  locked : (t.ch c).locked = true
  legal : legalAddr (t.ch c).addr = true
  saved : ∃ evs, t.events = s.events ++ evs ∧ Event.persist (.saveAddress c (t.ch c).addr) ∈ evs

/-- What frames on channel `c` may do to the addresses: nothing, or one adoption on `c`. The lock is part of it: it is what
makes the relation transitive. -/
structure AddressStep (c : Chan) (s t : State) : Prop where
  others : ∀ d, d ≠ c → (t.ch d).addr = (s.ch d).addr
  events : s.events <+: t.events
  own : ((t.ch c).addr = (s.ch c).addr ∧ (t.ch c).locked = (s.ch c).locked) ∨ Adopted c s t

theorem AddressStep.refl (c : Chan) (s : State) : AddressStep c s s where
  others := fun _ _ => rfl
  events := ⟨[], List.append_nil _⟩
  own := .inl ⟨rfl, rfl⟩

/-- A locked channel adopts nothing, so of two steps at most one is an adoption. -/
theorem AddressStep.trans (h : AddressStep c s t) (k : AddressStep c t u) : AddressStep c s u where
  others := fun d hd => (k.others d hd).trans (h.others d hd)
  events := h.events.trans k.events
  own := by
    obtain ⟨before, hbefore⟩ := h.events
    obtain ⟨later, hlater⟩ := k.events
    rcases h.own with ⟨haddr, hlocked⟩ | hadopted <;> rcases k.own with ⟨haddr', hlocked'⟩ | hadopted'
    · exact .inl ⟨haddr'.trans haddr, hlocked'.trans hlocked⟩
    · obtain ⟨evs, hevs, hsave⟩ := hadopted'.saved
      exact .inr { hadopted' with
        unlocked := hlocked ▸ hadopted'.unlocked
        saved := ⟨before ++ evs, by rw [hevs, ← hbefore, List.append_assoc], List.mem_append_right _ hsave⟩ }
    · obtain ⟨evs, hevs, hsave⟩ := hadopted.saved
      exact .inr {
        unlocked := hadopted.unlocked
        locked := hlocked' ▸ hadopted.locked
        legal := haddr' ▸ hadopted.legal
        saved := ⟨evs ++ later, by rw [← hlater, hevs, List.append_assoc], haddr' ▸ List.mem_append_left _ hsave⟩ }
    · exact absurd hadopted.locked (by simp [hadopted'.unlocked])

theorem emit_addressStep (c : Chan) (e : Event) (s : State) : AddressStep c s (emit e s) where
  others := fun d _ => by rw [emit_ch]
  events := ⟨[e], rfl⟩
  own := .inl (by simp)

theorem setCh_addressStep {x : Channel} (haddr : x.addr = (s.ch c).addr := by rfl)
    (hlocked : x.locked = (s.ch c).locked := by rfl) : AddressStep c s (s.setCh c x) where
  others := fun d hd => by rw [setCh_ch_other _ _ _ _ hd]
  events := by rw [setCh_events]
  own := .inl (by simpa using ⟨haddr, hlocked⟩)

theorem reply_addressStep (c : Chan) (dst fid ctl : Byte) (data : List Byte) (now : Nat) (s : State) :
    AddressStep c s (reply c dst fid ctl data now s) :=
  (emit_addressStep c _ s).trans setCh_addressStep

theorem adoptAddress_addressStep (c : Chan) (dst : Byte) (s : State) : AddressStep c s (adoptAddress c dst s) := by
  unfold adoptAddress
  split
  next hnew =>
    obtain ⟨hunlocked, hbroadcast, hreserved⟩ := hnew
    exact {
      others := fun d hd => by rw [emit_ch, setCh_ch_other _ _ _ _ hd]
      events := by simp
      own := .inr {
        unlocked := hunlocked
        locked := by simp
        legal := by simp [legalAddr, hbroadcast, hreserved]
        saved := ⟨[.persist (.saveAddress c dst)], by simp, by simp⟩ } }
  next => exact .refl c s

theorem storeIdentity_addressStep (c : Chan) (data : List Byte) (s : State) :
    AddressStep c s (storeIdentity c data s) :=
  AddressStep.trans setCh_addressStep (emit_addressStep ..)

/-- A table write sends its events after those before it, and touches the channels only to reply. -/
theorem tableWrite_addressStep (n : WName) (h : Hdr) (v : Nat) (s : State) :
    AddressStep h.c s (tableWrite n h v s) := by
  have hwritten : AddressStep h.c s (writeField n v h.c h.now s) := {
    others := fun d _ => by rw [writeField_ch]
    events := by
      unfold writeField relayDrive
      split
      · split <;> simp
      · simp
    own := .inl (by simp) }
  have hmarked : AddressStep h.c (ack h (writeField n v h.c h.now s)) (tableWrite n h v s) := {
    others := fun d _ => by rw [tableWrite, markConfigDirty_ch]
    events := ⟨[], List.append_nil _⟩
    own := .inl (by simp [tableWrite]) }
  exact (hwritten.trans (reply_addressStep ..)).trans hmarked

theorem runFrame_addressStep (sel : FrameSel) (h : Hdr) (data : List Byte) (s : State) :
    Ensures (runFrame sel h data s) (AddressStep h.c s) := by
  have hreply (v : State) (dst fid ctl : Byte) (d : List Byte) := reply_addressStep h.c dst fid ctl d h.now v
  cases sel with
  | hs =>
    have hnoted (v : State) : AddressStep h.c v (noteHandshake h.c h.src v) := setCh_addressStep
    exact ensures_next.2 (((adoptAddress_addressStep ..).trans (hnoted _)).trans (hreply ..))
  | notForUs => exact ensures_next.2 (.refl h.c s)
  | fwId => exact ensures_next.2 ((hreply ..).trans setCh_addressStep)
  | idRead => exact ensures_next.2 ((hreply ..).trans setCh_addressStep)
  | write w =>
    cases w with
    | identity => exact ensures_next.2 ((storeIdentity_addressStep ..).trans (hreply ..))
    | fwNop => exact ensures_next.2 (hreply ..)
    | entry n k => exact ⟨_, runWrite_eq n h _ (valueAt_lt n k data) s, tableWrite_addressStep ..⟩
  | read n k => exact ⟨_, runRead_eq n h _ s, hreply ..⟩
  | unknown => exact ensures_next.2 (.refl h.c s)

theorem dispatch_addressStep (c : Chan) (f : Frame) (now : Nat) (s : State) :
    Ensures (dispatch c f now s) (AddressStep c s) := by
  have htouched : AddressStep c s (touchFor c f now s) := by
    rcases touchFor_cases c f now s with h | h <;> rw [h]
    · exact .refl c s
    · exact setCh_addressStep
  exact (runFrame_addressStep _ (f.hdr c now) f.data _).mono fun t ht => htouched.trans ht

theorem raise_addressStep (c : Chan) (k : ErrKind) (s : State) : AddressStep c s (raise c k s) :=
  (emit_addressStep ..).trans setCh_addressStep

theorem appendByte_addressStep (c : Chan) (v : Byte) (now : Nat) (s : State) :
    Ensures (appendByte c v now s) (AddressStep c s) := by
  have hpushed : AddressStep c s (pushByte c v s) := setCh_addressStep
  rcases appendByte_cases c v now s with ⟨_, hres⟩ | ⟨_, hres⟩ <;> rw [hres]
  · exact ensures_next.2 (raise_addressStep ..)
  · rcases checkComplete_cases c now (pushByte c v s) with ⟨_, hres⟩ | ⟨_, _, hres⟩ | ⟨_, _, hres⟩ <;> rw [hres]
    · exact ensures_next.2 hpushed
    · exact (dispatch_addressStep ..).mono fun t ht => hpushed.trans ht
    · exact ensures_next.2 (hpushed.trans (raise_addressStep ..))

theorem flushBestEffort_addressStep (c : Chan) (now : Nat) (s : State) :
    Ensures (flushBestEffort c now s) (AddressStep c s) := by
  rcases flushBestEffort_cases c now s with ⟨_, hres⟩ | ⟨_, _, _, hres⟩ | ⟨_, _, _, hres⟩ <;> rw [hres]
  · exact ensures_next.2 (.refl c s)
  · exact dispatch_addressStep ..
  · exact ensures_next.2 (emit_addressStep ..)

/-- Every byte-level row, whatever state selects it. -/
theorem runByte_addressStep (sel : ByteSel) (c : Chan) (b : Byte) (now : Nat) (s : State) :
    Ensures (runByte sel c b now s) (AddressStep c s) := by
  cases sel with
  | hsMarker => exact ensures_next.2 (AddressStep.trans setCh_addressStep setCh_addressStep)
  | hsNak | hsAck | hsSoh | hsNakRestart | decAmMarker | decAsStart | decAsOther | decIfMarker =>
    exact ensures_next.2 setCh_addressStep
  | hsOther | decAmOther | decAsMarker => exact ensures_next.2 (.refl c s)
  | decIfData => exact appendByte_addressStep ..
  | decEscMarker =>
    exact (appendByte_addressStep ..).mono fun t ht => AddressStep.trans setCh_addressStep ht
  | decEscEnd | decEscStart =>
    exact (flushBestEffort_addressStep c now s).andThen fun t ht =>
      ensures_next.2 (ht.trans setCh_addressStep)
  | decEscOther => exact ensures_next.2 (raise_addressStep ..)

/-! ### The step -/

/-- A received byte changes an address only by an adoption on its own channel, active and in frame mode. -/
theorem execRx_adopts (c : Chan) (b : Byte) (now : Nat) (s : State) :
    Ensures (execRx c b now s) fun t => ∀ d, (t.ch d).addr ≠ (s.ch d).addr →
      d = c ∧ s.active c = true ∧ (s.ch c).hs = .frameModeActive ∧ Adopted c s t := by
  have hsame {r : Res} (h : Ensures r (SameAddresses s)) : Ensures r fun t => ∀ d, (t.ch d).addr ≠ (s.ch d).addr →
      d = c ∧ s.active c = true ∧ (s.ch c).hs = .frameModeActive ∧ Adopted c s t :=
    h.mono fun t ht d hd => absurd (ht d) hd
  unfold execRx
  split_ifs with hinactive hhs
  · exact hsame (ensures_next.2 (.refl s))
  · refine (runByte_addressStep _ c b now _).mono fun t ht d hd => ?_
    have hstep : AddressStep c s t := AddressStep.trans setCh_addressStep ht
    have hdc : d = c := by
      by_contra hne
      exact hd (hstep.others d hne)
    subst hdc
    exact ⟨rfl, Bool.not_eq_false _ ▸ hinactive, hhs, hstep.own.resolve_left fun h => hd h.1⟩
  · have htouched : SameAddresses s (touchRx c now s) := setCh_sameAddresses
    refine hsame ((handshakeByte_sameAddresses c b now _).andThen fun u hu => ?_)
    exact (settle_sameAddresses c now u).mono fun t ht => (htouched.trans hu).trans ht

/-- What taking an input and sampling a line leave of the registers and events that adoption is about. -/
structure FetchKeeps (s t : State) : Prop where
  addr : ∀ d, (t.ch d).addr = (s.ch d).addr
  locked : ∀ d, (t.ch d).locked = (s.ch d).locked
  hs : ∀ d, (t.ch d).hs = (s.ch d).hs
  nActive : t.nActive = s.nActive
  events : t.events = s.events

theorem popInput_keeps (x : Input) (rest : List Input) (s : State) : FetchKeeps s (popInput x rest s) where
  addr := fun d => by cases d <;> rfl
  locked := fun d => by cases d <;> rfl
  hs := fun d => by cases d <;> rfl
  nActive := rfl
  events := rfl

theorem sampled_keeps (c : Chan) (level : Bool) (now : Nat) (rest : List Input) (s : State) :
    FetchKeeps s (sampled c level now rest s) := by
  cases c <;> exact ⟨fun d => by cases d <;> rfl, fun d => by cases d <;> rfl, fun d => by cases d <;> rfl, rfl, rfl⟩

/-- An `RX` run after a fetch, seen from the state before it. -/
theorem FetchKeeps.rx_adopts {b : Byte} {d : Chan} (k : FetchKeeps s u) (hrx : execRx c b now u = .next t)
    (hchanged : (t.ch d).addr ≠ (s.ch d).addr) :
    d = c ∧ s.active d = true ∧ (s.ch d).hs = .frameModeActive ∧ Adopted d s t := by
  obtain ⟨rfl, hact, hhs, hadopted⟩ := (execRx_adopts c b now u).of_eq_next hrx d (k.addr d ▸ hchanged)
  exact ⟨rfl, by rwa [State.active, k.nActive] at hact, k.hs d ▸ hhs,
    { hadopted with unlocked := k.locked d ▸ hadopted.unlocked, saved := k.events ▸ hadopted.saved }⟩

/-- Settles O57, by the cases of the step: only a received byte, as an `RX` or as the end of a character on the line,
reaches a handshake frame. -/
theorem addressOnlyAdopted : Obligations.AddressOnlyAdopted := by
  intro s t c hstep hnoReset hchanged
  have hrx {d : Chan} {b : Byte} {now : Nat} {u : State} (k : FetchKeeps s u) (hrun : execRx d b now u = .next t) :=
    k.rx_adopts hrun hchanged
  rcases step_cases hstep with ⟨_, rfl⟩ | ⟨x, rest, i, hin, _, hdec, hexec⟩ | ⟨d, level, now, rest, hin, _, hline⟩
  · exact absurd rfl hchanged
  · have hpop := popInput_keeps x rest s
    have hsame (h : Ensures (exec i (popInput x rest s)) (SameAddresses (popInput x rest s))) : False :=
      hchanged ((h.of_eq_next hexec c).trans (hpop.addr c))
    cases x with
    | reset t0 => exact absurd hin (hnoReset t0 rest)
    | rx d b now =>
      cases hdec
      obtain ⟨rfl, hact, hhs, hunlocked, hlocked, hlegal, hsaved⟩ := hrx hpop hexec
      exact ⟨hunlocked, hlocked, hlegal, hhs, hact, hsaved, rest, b, now, .inl hin⟩
    | poll now => cases hdec; exact (hsame (execPoll_sameAddresses now _)).elim
    | admin op now => cases hdec; exact (hsame (adminOp_sameAddresses op now _)).elim
    | line d level now => cases hdec
  · have hsampled := sampled_keeps d level now rest s
    rcases hline with rfl | ⟨b, hbyte, hrun⟩
    · exact absurd (hsampled.addr c) hchanged
    · obtain ⟨rfl, hact, hhs, hunlocked, hlocked, hlegal, hsaved⟩ := hrx hsampled hrun
      exact ⟨hunlocked, hlocked, hlegal, hhs, hact, hsaved, rest, b, now, .inr ⟨level, hin, hbyte⟩⟩

end Sys2Proof.Machine
end

