-- ==== Sys2Proof/Proofs/Progress.lean ====
section
/-! Only time stops a step (R116, R145, R7): every operation answers a next state, and none writes the configuration or
the environment's pending inputs (`QueueKept`). -/

namespace Sys2Proof.Machine

variable {s t u : State} {c : Chan} {now : Nat}

/-! ### What no operation writes -/

/-- The configuration and the pending inputs are unchanged: what every operation keeps, `RESET` and the recount of the
active channels among them. -/
def QueueKept (s t : State) : Prop := t.cfg = s.cfg ∧ t.inputs = s.inputs

theorem QueueKept.refl (s : State) : QueueKept s s := ⟨rfl, rfl⟩

theorem QueueKept.trans (h : QueueKept s t) (k : QueueKept t u) : QueueKept s u :=
  ⟨k.1.trans h.1, k.2.trans h.2⟩

theorem DispatchKeeps.queueKept (h : DispatchKeeps c s t) : QueueKept s t := ⟨h.cfg, h.inputs⟩

theorem setCh_queueKept (c : Chan) (x : Channel) (s : State) : QueueKept s (s.setCh c x) :=
  ⟨setCh_cfg s c x, setCh_inputs s c x⟩

theorem retract_queueKept (c : Chan) (s : State) : QueueKept s (retract c s) := ⟨retract_cfg c s, retract_inputs c s⟩

theorem raise_queueKept (c : Chan) (k : ErrKind) (s : State) : QueueKept s (raise c k s) :=
  ⟨raise_cfg c k s, raise_inputs c k s⟩

theorem report_queueKept (c : Chan) (k : ErrKind) (s : State) : QueueKept s (report c k s) :=
  ⟨report_cfg c k s, report_inputs c k s⟩

/-! ### A received byte -/

theorem dispatch_queueKept (c : Chan) (f : Frame) (now : Nat) (s : State) :
    Ensures (dispatch c f now s) (QueueKept s) := by
  obtain ⟨t, hres, hkeeps⟩ := dispatch_next c f now s
  exact ⟨t, hres, hkeeps.queueKept⟩

theorem appendByte_queueKept (c : Chan) (v : Byte) (now : Nat) (s : State) :
    Ensures (appendByte c v now s) (QueueKept s) := by
  have hpushed : QueueKept s (pushByte c v s) := setCh_queueKept ..
  rcases appendByte_cases c v now s with ⟨_, hres⟩ | ⟨_, hres⟩ <;> rw [hres]
  · exact ensures_next.2 (raise_queueKept ..)
  · rcases checkComplete_cases c now (pushByte c v s) with ⟨_, hres⟩ | ⟨_, _, hres⟩ | ⟨_, _, hres⟩ <;> rw [hres]
    · exact ensures_next.2 hpushed
    · exact (dispatch_queueKept ..).mono fun t ht => hpushed.trans ht
    · exact ensures_next.2 (hpushed.trans (raise_queueKept ..))

theorem flushBestEffort_queueKept (c : Chan) (now : Nat) (s : State) :
    Ensures (flushBestEffort c now s) (QueueKept s) := by
  rcases flushBestEffort_cases c now s with ⟨_, hres⟩ | ⟨_, _, _, hres⟩ | ⟨_, _, _, hres⟩ <;> rw [hres]
  · exact ensures_next.2 (.refl s)
  · exact dispatch_queueKept ..
  · exact ensures_next.2 (report_queueKept ..)

/-- Every byte-level row, the sequencer's and the decoder's, whatever state selects it. -/
theorem runByte_queueKept (sel : ByteSel) (c : Chan) (b : Byte) (now : Nat) (s : State) :
    Ensures (runByte sel c b now s) (QueueKept s) := by
  cases sel with
  | hsMarker => exact ensures_next.2 ((setCh_queueKept ..).trans (setCh_queueKept ..))
  | hsNak | hsAck | hsSoh | hsNakRestart | decAmMarker | decAsStart | decAsOther | decIfMarker =>
    exact ensures_next.2 (setCh_queueKept ..)
  | hsOther | decAmOther | decAsMarker => exact ensures_next.2 (.refl s)
  | decIfData => exact appendByte_queueKept ..
  | decEscMarker => exact (appendByte_queueKept ..).mono fun t ht => (setCh_queueKept ..).trans ht
  | decEscEnd | decEscStart =>
    exact (flushBestEffort_queueKept c now s).andThen fun t ht => ensures_next.2 (ht.trans (setCh_queueKept ..))
  | decEscOther => exact ensures_next.2 (raise_queueKept ..)

theorem settle_queueKept (c : Chan) (now : Nat) (s : State) : Ensures (settle c now s) (QueueKept s) := by
  rcases settle_cases c now s with ⟨_, _, hres⟩ | ⟨_, hres⟩ | ⟨_, hres⟩ | ⟨_, hres⟩ <;> rw [hres, ensures_next]
  · exact .refl s
  · exact setCh_queueKept c _ (emit ..)
  · exact setCh_queueKept c _ (emit ..)
  · exact (setCh_queueKept c _ (emit ..)).trans (setCh_queueKept ..)

theorem execRx_queueKept (c : Chan) (b : Byte) (now : Nat) (s : State) :
    Ensures (execRx c b now s) (QueueKept s) := by
  have htouched : QueueKept s (touchRx c now s) := setCh_queueKept ..
  unfold execRx
  split_ifs
  · exact ensures_next.2 (.refl s)
  · exact (runByte_queueKept ..).mono fun t ht => htouched.trans ht
  · exact (runByte_queueKept ..).andThen fun u hu =>
      (settle_queueKept c now u).mono fun t ht => (htouched.trans hu).trans ht

/-! ### The other inputs -/

theorem inactivityCheck_queueKept (c : Chan) (now : Nat) (s : State) : QueueKept s (inactivityCheck c now s) := by
  unfold inactivityCheck
  split
  · exact (setCh_queueKept ..).trans (retract_queueKept ..)
  · exact .refl s

theorem debounceFlush_queueKept (now : Nat) (s : State) : QueueKept s (debounceFlush now s) := by
  unfold debounceFlush
  split
  · exact ⟨rfl, rfl⟩
  · exact .refl s

theorem execPoll_queueKept (now : Nat) (s : State) : Ensures (execPoll now s) (QueueKept s) := by
  have hsettled : Ensures (forActive (fun c u => settle c now u) s) (QueueKept s) :=
    forActive_ensures (.refl s) fun c u _ hu => (settle_queueKept c now u).mono fun t ht => hu.trans ht
  have hrelay (u : State) : QueueKept u (relayEval now u) := ⟨relayEval_cfg now u, relayEval_inputs now u⟩
  refine hsettled.andThen fun u hu => forActive_ensures ?_ fun c t _ ht => ensures_next.2 ?_
  · exact (hu.trans (hrelay u)).trans (debounceFlush_queueKept now _)
  · exact ht.trans (inactivityCheck_queueKept c now t)

theorem execAdminWrite_queueKept (c : Chan) (ctl : Byte) (data : List Byte) (now : Nat) (s : State) :
    Ensures (execAdminWrite c ctl data now s) (QueueKept s) := by
  unfold execAdminWrite
  split
  · exact ensures_next.2 (.refl s)
  · split
    · exact ensures_next.2 (storeIdentity_keeps c data s).queueKept
    · exact ensures_next.2 (.refl s)
    · exact ensures_next.2 (by simp [QueueKept])
    · exact ensures_next.2 (.refl s)

theorem recount_queueKept (old k : Nat) (c : Chan) (now : Nat) (s : State) : QueueKept s (recount old k c now s) := by
  unfold recount
  split
  · exact (setCh_queueKept ..).trans (retract_queueKept ..)
  · split
    · exact setCh_queueKept ..
    · exact .refl s

theorem execAdminSetActiveCount_queueKept (k now : Nat) (s : State) :
    Ensures (execAdminSetActiveCount k now s) (QueueKept s) := by
  unfold execAdminSetActiveCount
  split
  · have hcount : QueueKept s { s with nActive := k } := ⟨rfl, rfl⟩
    exact ensures_next.2 ((hcount.trans (recount_queueKept ..)).trans (recount_queueKept ..))
  · exact ensures_next.2 (.refl s)

theorem adminOp_queueKept (op : AdminOp) (now : Nat) (s : State) : Ensures (exec (op.instr now) s) (QueueKept s) := by
  cases op with
  | write c ctl data => exact execAdminWrite_queueKept c ctl data now s
  | forceErrorMask v => exact ensures_next.2 ⟨rfl, rfl⟩
  | setActiveCount k => exact execAdminSetActiveCount_queueKept k now s
  | setTelemetry field v => cases field <;> exact ensures_next.2 ⟨rfl, rfl⟩
  | wipePersistence => exact ensures_next.2 (.refl s)

/-- Nothing is fatal (R116): whatever an input decodes to answers a next state. -/
theorem exec_decodeInput_queueKept {x : Input} {i : Instr} (hdec : decodeInput x = some i) (s : State) :
    Ensures (exec i s) (QueueKept s) := by
  cases x with
  | reset t0 => cases hdec; exact ensures_next.2 ⟨rfl, rfl⟩
  | rx c b now => cases hdec; exact execRx_queueKept c b now s
  | poll now => cases hdec; exact execPoll_queueKept now s
  | admin op now => cases hdec; exact adminOp_queueKept op now s
  | line c level now => cases hdec

/-! ### The step -/

/-- A step whose input is in time takes it and answers a next state. -/
theorem step_of_timeOk {x : Input} {rest : List Input} (hin : s.inputs = x :: rest) (htime : timeOk s.clock x = true) :
    Ensures (step s) fun t => t.cfg = s.cfg ∧ t.inputs = rest := by
  obtain ⟨_, hrun, hline⟩ := stepRunsDecodedInput s
  cases hdec : decodeInput x with
  | some i =>
    rw [hrun x rest i hin htime hdec]
    exact exec_decodeInput_queueKept hdec _
  | none =>
    cases x with
    | line c level now =>
      have htaken : QueueKept { s with inputs := rest, clock := now } (sampled c level now rest s) :=
        setCh_queueKept ..
      rw [hline c level now rest hin ((timeOk_line_iff _ c level now).1 htime)]
      dsimp only
      split
      · exact (execRx_queueKept ..).mono fun t ht => htaken.trans ht
      · exact ensures_next.2 htaken
    | reset t0 => cases hdec
    | rx c b now => cases hdec
    | poll now => cases hdec
    | admin op now => cases hdec

theorem timeOk_of_inputTime {clock : Nat} {x : Input} (h : ∀ now, inputTime x = some now → clock ≤ now) :
    timeOk clock x = true := by
  unfold timeOk
  split
  next now hx => exact decide_eq_true (h now hx)
  next => rfl

theorem timeOk_eq_false {clock : Nat} {x : Input} (hx : inputTime x = some now) (hlt : now < clock) :
    timeOk clock x = false := by
  simp [timeOk, hx, hlt]

/-- Settles O55: `fetch` refuses an input whose time runs backwards, and every other step keeps `QueueKept` past the input
it takes. -/
theorem onlyTimeIsRefused : Obligations.OnlyTimeIsRefused := by
  intro s
  refine ⟨fun x rest now hin hx hlt => ?_, fun hinTime => ?_⟩
  · exact step_of_fetch_refuse (fetch_of_time_backwards hin (timeOk_eq_false hx hlt))
  · cases hin : s.inputs with
    | nil => exact ⟨s, step_of_fetch_idle (fetch_of_no_input hin), rfl, hin⟩
    | cons x rest => exact step_of_timeOk hin (timeOk_of_inputTime fun now => hinTime x rest now hin)

end Sys2Proof.Machine
end

