-- ==== Sys2Proof/Proofs/FrameFormat.lean ====
section
/-! The frame format (R103 to R105, R109): the little-endian operands read back as written, and the frame checks accept
exactly the encoded frames. -/

namespace Sys2Proof

/-! ### The little-endian values (R13, R109) -/

/-- Only sixteen bits of a value are serialised. -/
@[simp] theorem le16_mod (v : Nat) : le16 (v % 65536) = le16 v := by
  simp only [le16, List.cons.injEq, and_true]
  constructor <;> (apply BitVec.eq_of_toNat_eq; simp only [BitVec.toNat_ofNat]; omega)

theorem le16_u16le (b0 b1 : Byte) : le16 (u16le b0 b1) = [b0, b1] := by
  have h0 := b0.isLt
  have h1 := b1.isLt
  simp only [le16, u16le, List.cons.injEq, and_true]
  constructor <;> (apply BitVec.eq_of_toNat_eq; simp only [BitVec.toNat_ofNat]; omega)

theorem u16le_le16 {v : Nat} (hv : v < 65536) : u16le (BitVec.ofNat 8 v) (BitVec.ofNat 8 (v / 256)) = v := by
  simp only [u16le, BitVec.toNat_ofNat]
  omega

theorem WName.vw_cases (n : WName) : n.vw = 1 ∨ n.vw = 2 := by cases n <;> simp [WName.vw]

@[simp] theorem WName.valueBytes_length (n : WName) (v : Nat) : (valueBytes n.vw v).length = n.vw := by
  rcases n.vw_cases with h | h <;> simp [h, valueBytes, le16]

/-- The value operand stands where the index bytes end. -/
theorem WName.valueAt_append (n : WName) (idx extra : List Byte) {v : Nat} (hv : v < 256 ^ n.vw) :
    valueAt n.vw idx.length (idx ++ valueBytes n.vw v ++ extra) = v := by
  rcases n.vw_cases with h | h <;> rw [h] at hv ⊢
  · simpa [valueAt, valueBytes] using hv
  · simp [valueAt, valueBytes, le16, u16le_le16 hv]

/-- The bytes of the value operand are those of the data. -/
theorem WName.valueBytes_valueAt (n : WName) {k : Nat} {data : List Byte} (hlen : k + n.vw ≤ data.length) :
    valueBytes n.vw (valueAt n.vw k data) = (data.drop k).take n.vw := by
  rcases n.vw_cases with h | h <;> rw [h] at hlen ⊢
  · rw [List.drop_eq_getElem_cons (by omega)]
    simp [-List.getElem_cons_drop, valueAt, valueBytes, List.getElem?_eq_getElem (show k < data.length by omega)]
  · rw [List.drop_eq_getElem_cons (by omega), List.drop_eq_getElem_cons (by omega)]
    simp [-List.getElem_cons_drop, valueAt, valueBytes, le16_u16le,
      List.getElem?_eq_getElem (show k < data.length by omega),
      List.getElem?_eq_getElem (show k + 1 < data.length by omega)]

/-! ### The frame format (R103 to R105) -/

theorem verify_concat (s : List Byte) (k : Byte) : verify (s ++ [k]) = true ↔ checksum s = k := by
  simp [verify]

theorem eq_lengthByte {l : Byte} {n : Nat} (h : l.toNat = n) : l = lengthByte n := by
  have hl := l.isLt
  exact BitVec.eq_of_toNat_eq (h.trans (lengthByte_toNat n (by omega)).symm)

/-- A byte string of six or more is five header bytes, data and a last byte. -/
theorem exists_fields_of_length {x : List Byte} (hx : 6 ≤ x.length) :
    ∃ src dst fid ctl len data k, x = [src, dst, fid, ctl, len] ++ data ++ [k] := by
  obtain ⟨src, dst, fid, ctl, len, y, rfl⟩ : ∃ src dst fid ctl len y, x = [src, dst, fid, ctl, len] ++ y := by
    match x, hx with
    | src :: dst :: fid :: ctl :: len :: y, _ => exact ⟨src, dst, fid, ctl, len, y, rfl⟩
  rcases List.eq_nil_or_concat y with rfl | ⟨data, k, rfl⟩
  · simp at hx
  · exact ⟨src, dst, fid, ctl, len, data, k, by simp⟩

/-- What the frame checks say of the fields: the length byte counts the data, the last byte is the checksum. -/
theorem parseFrame_fields (src dst fid ctl len : Byte) (data : List Byte) (k : Byte) (f : Frame) :
    parseFrame ([src, dst, fid, ctl, len] ++ data ++ [k]) = .ok f ↔
      len.toNat = data.length ∧ checksum ([src, dst, fid, ctl, len] ++ data) = k ∧ f = ⟨src, dst, fid, ctl, data⟩ := by
  have hlength : ([src, dst, fid, ctl, len] ++ data ++ [k]).length = 6 + data.length := by
    simp only [List.length_append, List.length_cons, List.length_nil]
    omega
  have hcount : ([src, dst, fid, ctl, len] ++ data ++ [k]).getD 4 0 = len := rfl
  have hframe : frameOf ([src, dst, fid, ctl, len] ++ data ++ [k]) = ⟨src, dst, fid, ctl, data⟩ := by
    simp [frameOf]
  unfold parseFrame
  rw [hlength, hcount, hframe, if_neg (by omega)]
  split_ifs with hlen hverify
  · refine iff_of_false nofun fun ⟨hdata, _⟩ => ?_
    omega
  · refine iff_of_false nofun fun ⟨_, hsum, _⟩ => ?_
    exact absurd (hverify.symm.trans ((verify_concat _ k).2 hsum)) nofun
  · have hsum := (verify_concat _ k).1 (Bool.not_eq_false _ ▸ hverify)
    have hdata : len.toNat = data.length := by omega
    simp only [hdata, hsum, true_and, Except.ok.injEq, eq_comm]

/-- The byte strings the frame checks accept are the encoded frames, each read as the frame it encodes. -/
theorem parseFrame_eq_ok_iff {x : List Byte} {f : Frame} :
    parseFrame x = .ok f ↔ f.data.length ≤ 255 ∧ x = frameBytes f.src f.dst f.fid f.ctl f.data := by
  constructor
  · intro h
    have hx : 6 ≤ x.length := by
      by_contra hshort
      rw [parseFrame, if_pos (by omega)] at h
      cases h
    obtain ⟨src, dst, fid, ctl, len, data, k, rfl⟩ := exists_fields_of_length hx
    obtain ⟨hcount, rfl, rfl⟩ := (parseFrame_fields ..).1 h
    have hlen := len.isLt
    refine ⟨by dsimp only; omega, ?_⟩
    rw [frameBytes, frameBody, ← eq_lengthByte hcount]
  · rintro ⟨hdata, rfl⟩
    exact (parseFrame_fields ..).2 ⟨lengthByte_toNat _ hdata, rfl, rfl⟩

end Sys2Proof
end

