-- ==== Sys2Proof/Proofs/Selection.lean ====
section
/-! The rows the opcode maps select (R110, R111, R114): what a well-formed configuration keeps apart (R11), which row a
byte selects, and, one equivalence per row, which frames select a row. -/

namespace Sys2Proof

variable {cfg : Cfg} {cx : Ctx} {c : Chan} {b ctl : Byte} {now len k : Nat} {h : Hdr} {data : List Byte}

/-! ### What a well-formed configuration keeps apart (R11) -/

/-- The bytes the pre-frame rows test are told apart. -/
structure Cfg.BytesApart (cfg : Cfg) : Prop where
  nak_ne_marker : cfg.bNak ≠ markerByte
  ack_ne_marker : cfg.bAck ≠ markerByte
  nak_ne_ack : cfg.bNak ≠ cfg.bAck
  nak_ne_soh : cfg.bNak ≠ sohByte

theorem Cfg.bytesApart_of_wf (hwf : cfg.wf = true) : cfg.BytesApart := by
  simp only [Cfg.wf, Bool.and_eq_true, decide_eq_true_eq, and_assoc] at hwf
  obtain ⟨hbytes, -⟩ := hwf
  simp only [List.nodup_cons, List.mem_cons, List.not_mem_nil, or_false, not_or] at hbytes
  obtain ⟨⟨-, hnakAck, hnakSoh, hnakMarker⟩, -, ⟨-, hackMarker⟩, -⟩ := hbytes
  exact ⟨hnakMarker, hackMarker, hnakAck, hnakSoh⟩

/-- The control codes are told apart: those with a fixed meaning, the firmware-update codes, those of the table. -/
structure Cfg.CodesApart (cfg : Cfg) : Prop where
  fwId_ne_rIdentity : cfg.ccFwId ≠ cfg.ccRIdentity
  wIdentity : cfg.ccWIdentity ≠ cfg.ccFwId ∧ cfg.ccWIdentity ≠ cfg.ccRIdentity
  fwNop : ∀ code ∈ cfg.fwNopCodes, code ≠ cfg.ccFwId ∧ code ≠ cfg.ccRIdentity ∧ code ≠ cfg.ccWIdentity
  table : ∀ row ∈ cfg.ccTable, row.code ≠ cfg.ccFwId ∧ row.code ≠ cfg.ccRIdentity ∧ row.code ≠ cfg.ccWIdentity
    ∧ row.code ∉ cfg.fwNopCodes
  rows : ∀ row ∈ cfg.ccTable, ∀ row' ∈ cfg.ccTable, row.code = row'.code → row = row'

theorem Cfg.codesApart_of_wf (hwf : cfg.wf = true) : cfg.CodesApart := by
  simp only [Cfg.wf, Bool.and_eq_true, decide_eq_true_eq, and_assoc] at hwf
  obtain ⟨-, -, hcodes, -⟩ := hwf
  obtain ⟨hfixedNop, htable, hapart⟩ := List.nodup_append.1 hcodes
  obtain ⟨hfixed, -, hnop⟩ := List.nodup_append.1 hfixedNop
  simp only [List.nodup_cons, List.mem_cons, List.not_mem_nil, or_false, not_or] at hfixed
  obtain ⟨⟨hfwR, hfwW⟩, hrW, -⟩ := hfixed
  have hnopNe {code : Byte} (hcode : code ∈ cfg.fwNopCodes) (fixed : Byte) (hfixed : fixed ∈ _) : code ≠ fixed :=
    (hnop fixed hfixed code hcode).symm
  have htableNe {row : CcRow} (hrow : row ∈ cfg.ccTable) (code : Byte) (hcode : code ∈ _) : row.code ≠ code :=
    (hapart code hcode row.code (List.mem_map_of_mem hrow)).symm
  exact {
    fwId_ne_rIdentity := hfwR
    wIdentity := ⟨Ne.symm hfwW, Ne.symm hrW⟩
    fwNop := fun code hcode => ⟨hnopNe hcode _ (by simp), hnopNe hcode _ (by simp), hnopNe hcode _ (by simp)⟩
    table := fun row hrow =>
      ⟨htableNe hrow _ (by simp), htableNe hrow _ (by simp), htableNe hrow _ (by simp),
        fun hmem => htableNe hrow row.code (by simp [hmem]) rfl⟩
    rows := fun row hrow row' hrow' heq => List.inj_on_of_nodup_map htable hrow hrow' heq }

/-! ### Byte-level rows (R110, R111) -/

@[simp] theorem sohByte_ne_markerByte : sohByte ≠ markerByte := by decide

@[simp] theorem startByte_ne_markerByte : startByte ≠ markerByte := by decide

@[simp] theorem markerByte_ne_startByte : markerByte ≠ startByte := by decide

@[simp] theorem endByte_ne_markerByte : endByte ≠ markerByte := by decide

@[simp] theorem startByte_ne_endByte : startByte ≠ endByte := by decide

theorem selectByte_of_frameMode (hhs : cx.hs = .frameModeActive) :
    selectByte cx.cfg cx.hs cx.dec cx.esc b = selectDecoder cx.dec cx.esc b := if_pos hhs

theorem selectByte_of_preFrame (hhs : cx.hs ≠ .frameModeActive) :
    selectByte cx.cfg cx.hs cx.dec cx.esc b = selectPreFrame cx.cfg cx.hs b := if_neg hhs

/-- The pre-frame row a byte selects is well-formed, and the byte is its encoding. -/
theorem wellFormed_selectPreFrame (hhs : cx.hs ≠ .frameModeActive) (c : Chan) (b : Byte) (now : Nat) :
    WellFormed cx ((selectPreFrame cx.cfg cx.hs b).instr c b now) = true
    ∧ ((selectPreFrame cx.cfg cx.hs b).instr c b now).byte? cx.cfg = some b := by
  unfold selectPreFrame
  split_ifs with hmarker hnak hack hsoh hrestart
  · simp [ByteSel.instr, WellFormed, Instr.byte?, hmarker, hhs]
  · simp [ByteSel.instr, WellFormed, Instr.byte?, hnak]
  · simp [ByteSel.instr, WellFormed, Instr.byte?, hack]
  · simp [ByteSel.instr, WellFormed, Instr.byte?, hsoh]
  · simp [ByteSel.instr, WellFormed, Instr.byte?, hrestart]
  · simp only [ByteSel.instr, WellFormed, Instr.byte?]
    grind

/-- The decoder row a byte selects is well-formed, and the byte is its encoding. -/
theorem wellFormed_selectDecoder (hhs : cx.hs = .frameModeActive) (c : Chan) (b : Byte) (now : Nat) :
    WellFormed cx ((selectDecoder cx.dec cx.esc b).instr c b now) = true
    ∧ ((selectDecoder cx.dec cx.esc b).instr c b now).byte? cx.cfg = some b := by
  cases hdec : cx.dec with
  | awaitMarker =>
    simp only [selectDecoder]
    split_ifs with hmarker <;> simp [ByteSel.instr, WellFormed, Instr.byte?, hhs, hdec, hmarker]
  | awaitStart =>
    simp only [selectDecoder]
    split_ifs with hstart hmarker <;> simp [ByteSel.instr, WellFormed, Instr.byte?, *]
  | inFrame =>
    cases hesc : cx.esc with
    | false =>
      simp only [selectDecoder]
      split_ifs with hmarker <;> simp [ByteSel.instr, WellFormed, Instr.byte?, hhs, hdec, hesc, hmarker]
    | true =>
      simp only [selectDecoder]
      split_ifs with hmarker hend hstart <;> simp [ByteSel.instr, WellFormed, Instr.byte?, *]

/-- A received byte is a well-formed instruction that it encodes. -/
theorem wellFormed_decodeByte (cx : Ctx) (c : Chan) (b : Byte) (now : Nat) :
    WellFormed cx (decodeByte cx c b now) = true ∧ (decodeByte cx c b now).byte? cx.cfg = some b := by
  unfold decodeByte
  by_cases hhs : cx.hs = .frameModeActive
  · rw [selectByte_of_frameMode hhs]
    exact wellFormed_selectDecoder hhs c b now
  · rw [selectByte_of_preFrame hhs]
    exact wellFormed_selectPreFrame hhs c b now

/-- A well-formed byte-level row is the one its byte selects: the rows before it in the table do not have the byte. -/
theorem selectByte_of_wellFormed (hwf : cx.cfg.wf = true) (sel : ByteSel)
    (hsel : WellFormed cx (sel.instr c b now) = true) (hbyte : (sel.instr c b now).byte? cx.cfg = some b) :
    selectByte cx.cfg cx.hs cx.dec cx.esc b = sel := by
  obtain ⟨hnakMarker, hackMarker, hnakAck, hnakSoh⟩ := Cfg.bytesApart_of_wf hwf
  cases sel with
  | hsMarker | hsNak | hsAck | hsSoh =>
    simp only [ByteSel.instr, WellFormed, beq_iff_eq, bne_iff_ne] at hsel
    cases hbyte
    simp [selectByte, selectPreFrame, hsel, hnakMarker, hackMarker]
  | hsNakRestart =>
    simp only [ByteSel.instr, WellFormed, Bool.and_eq_true, Bool.or_eq_true, beq_iff_eq] at hsel
    obtain ⟨henabled, hhs⟩ := hsel
    cases hbyte
    rcases hhs with hhs | hhs <;> simp [selectByte, selectPreFrame, hhs, henabled, hnakMarker, hnakAck, hnakSoh]
  | hsOther =>
    simp only [ByteSel.instr, WellFormed] at hsel
    unfold selectByte selectPreFrame
    grind
  | decAmMarker | decAsStart | decAsMarker | decIfMarker | decEscMarker | decEscEnd | decEscStart =>
    simp only [ByteSel.instr, WellFormed, Bool.and_eq_true, beq_iff_eq, Bool.not_eq_true'] at hsel
    cases hbyte
    simp [selectByte, selectDecoder, hsel]
  | decAmOther | decAsOther | decIfData | decEscOther =>
    simp only [ByteSel.instr, WellFormed, Bool.and_eq_true, beq_iff_eq, bne_iff_ne, Bool.not_eq_true'] at hsel
    simp [selectByte, selectDecoder, hsel]

/-! ### The entry a control code selects (R112) -/

/-- A search of the table that looks at one code only finds what any row gives it, the rows' codes being apart. -/
theorem Cfg.findSome?_eq_some_iff (hcodes : cfg.CodesApart) {α : Type} {g : CcRow → Option α} {v : α}
    (hcode : ∀ row v, g row = some v → row.code = ctl) :
    cfg.ccTable.findSome? g = some v ↔ ∃ row ∈ cfg.ccTable, g row = some v := by
  refine ⟨List.exists_of_findSome?_eq_some, fun ⟨row, hmem, hrow⟩ => ?_⟩
  cases hres : cfg.ccTable.findSome? g with
  | none => exact absurd (List.findSome?_eq_none_iff.1 hres row hmem) (by simp [hrow])
  | some v' =>
    obtain ⟨row', hmem', hrow'⟩ := List.exists_of_findSome?_eq_some hres
    have hsame := hcodes.rows row hmem row' hmem' ((hcode row v hrow).trans (hcode row' v' hrow').symm)
    rw [← hrow', ← hsame, hrow]

theorem Cfg.findW_eq_some_iff (hcodes : cfg.CodesApart) {n : WName} :
    cfg.findW ctl = some (n, k) ↔ ⟨.w n, ctl, k⟩ ∈ cfg.ccTable := by
  refine (cfg.findSome?_eq_some_iff hcodes (ctl := ctl) ?_).trans ⟨?_, fun hmem => ⟨_, hmem, if_pos rfl⟩⟩
  · rintro ⟨_ | m, code, idxN⟩ v hrow
    · cases hrow
    · exact (Option.ite_none_right_eq_some.1 hrow).1
  · rintro ⟨⟨_ | m, code, idxN⟩, hmem, hrow⟩
    · cases hrow
    · obtain ⟨rfl, hpair⟩ := Option.ite_none_right_eq_some.1 hrow
      cases hpair
      exact hmem

theorem Cfg.findR_eq_some_iff (hcodes : cfg.CodesApart) {n : RName} :
    cfg.findR ctl = some (n, k) ↔ ⟨.r n, ctl, k⟩ ∈ cfg.ccTable := by
  refine (cfg.findSome?_eq_some_iff hcodes (ctl := ctl) ?_).trans ⟨?_, fun hmem => ⟨_, hmem, if_pos rfl⟩⟩
  · rintro ⟨m | _, code, idxN⟩ v hrow
    · exact (Option.ite_none_right_eq_some.1 hrow).1
    · cases hrow
  · rintro ⟨⟨m | _, code, idxN⟩, hmem, hrow⟩
    · obtain ⟨rfl, hpair⟩ := Option.ite_none_right_eq_some.1 hrow
      cases hpair
      exact hmem
    · cases hrow

/-! ### The handlers' recognition tests (R260, R300) -/

theorem selectWrite_eq_identity_iff : selectWrite cfg ctl len = some .identity ↔ ctl = cfg.ccWIdentity := by
  unfold selectWrite
  split_ifs with hid hnop
  · simp [hid]
  · simp [hid]
  · split
    · split_ifs <;> simp [hid]
    · simp [hid]

theorem selectWrite_eq_fwNop_iff (hcodes : cfg.CodesApart) :
    selectWrite cfg ctl len = some .fwNop ↔ ctl ∈ cfg.fwNopCodes := by
  unfold selectWrite
  split_ifs with hid hnop
  · refine iff_of_false nofun fun hmem => ?_
    obtain ⟨-, -, hne⟩ := hcodes.fwNop ctl hmem
    exact hne hid
  · simp [hnop]
  · split
    · split_ifs <;> simp [hnop]
    · simp [hnop]

theorem selectWrite_eq_entry_iff (hcodes : cfg.CodesApart) {n : WName} :
    selectWrite cfg ctl len = some (.entry n k) ↔ ⟨.w n, ctl, k⟩ ∈ cfg.ccTable ∧ k + n.vw ≤ len := by
  rw [← Cfg.findW_eq_some_iff hcodes]
  have hplain (hfind : cfg.findW ctl = some (n, k)) : ctl ≠ cfg.ccWIdentity ∧ ctl ∉ cfg.fwNopCodes := by
    obtain ⟨-, -, hid, hnop⟩ := hcodes.table _ ((Cfg.findW_eq_some_iff hcodes).1 hfind)
    exact ⟨hid, hnop⟩
  unfold selectWrite
  split_ifs with hid hnop
  · exact iff_of_false nofun fun ⟨hfind, _⟩ => (hplain hfind).1 hid
  · exact iff_of_false nofun fun ⟨hfind, _⟩ => (hplain hfind).2 hnop
  · split
    next m j hfind =>
      split_ifs with hshort
      · refine iff_of_false nofun fun ⟨heq, hlen⟩ => ?_
        cases hfind.symm.trans heq
        omega
      · simp only [hfind, Option.some.injEq, WriteSel.entry.injEq, Prod.mk.injEq, iff_self_and, and_imp]
        rintro rfl rfl
        omega
    next hfind => simp [hfind]

theorem selectRead_eq_some_iff (hcodes : cfg.CodesApart) {n : RName} :
    selectRead cfg ctl len = some (n, k) ↔ ⟨.r n, ctl, k⟩ ∈ cfg.ccTable ∧ k ≤ len := by
  rw [← Cfg.findR_eq_some_iff hcodes]
  unfold selectRead
  split
  next m j hfind =>
    split_ifs with hshort
    · refine iff_of_false nofun fun ⟨heq, hlen⟩ => ?_
      cases hfind.symm.trans heq
      omega
    · simp only [hfind, Option.some.injEq, Prod.mk.injEq, iff_self_and, and_imp]
      rintro rfl rfl
      omega
  next hfind => simp [hfind]

theorem selectWrite_eq_none_iff (hcodes : cfg.CodesApart) :
    selectWrite cfg ctl len = none ↔
      ctl ≠ cfg.ccWIdentity ∧ ctl ∉ cfg.fwNopCodes ∧ ∀ n k, ⟨.w n, ctl, k⟩ ∈ cfg.ccTable → len < k + n.vw := by
  rw [Option.eq_none_iff_forall_ne_some]
  constructor
  · intro hnone
    refine ⟨fun hid => hnone _ (selectWrite_eq_identity_iff.2 hid),
      fun hnop => hnone _ ((selectWrite_eq_fwNop_iff hcodes).2 hnop), fun n k hmem => ?_⟩
    by_contra hlen
    exact hnone _ ((selectWrite_eq_entry_iff hcodes).2 ⟨hmem, by omega⟩)
  · rintro ⟨hid, hnop, hshort⟩ (_ | _ | ⟨n, k⟩) hsome
    · exact hid (selectWrite_eq_identity_iff.1 hsome)
    · exact hnop ((selectWrite_eq_fwNop_iff hcodes).1 hsome)
    · obtain ⟨hmem, hlen⟩ := (selectWrite_eq_entry_iff hcodes).1 hsome
      exact absurd (hshort n k hmem) (by omega)

theorem selectRead_eq_none_iff (hcodes : cfg.CodesApart) :
    selectRead cfg ctl len = none ↔ ∀ n k, ⟨.r n, ctl, k⟩ ∈ cfg.ccTable → len < k := by
  rw [Option.eq_none_iff_forall_ne_some]
  constructor
  · intro hnone n k hmem
    by_contra hlen
    exact hnone _ ((selectRead_eq_some_iff hcodes).2 ⟨hmem, by omega⟩)
  · rintro hshort ⟨n, k⟩ hsome
    obtain ⟨hmem, hlen⟩ := (selectRead_eq_some_iff hcodes).1 hsome
    exact absurd (hshort n k hmem) (by omega)

theorem Cfg.noEntryServes_iff :
    cfg.noEntryServes ctl len = true ↔
      (∀ n k, ⟨.w n, ctl, k⟩ ∈ cfg.ccTable → len < k + n.vw) ∧ ∀ n k, ⟨.r n, ctl, k⟩ ∈ cfg.ccTable → len < k := by
  simp only [Cfg.noEntryServes, List.all_eq_true, Bool.or_eq_true, bne_iff_ne]
  constructor
  · intro hall
    refine ⟨fun n k hmem => ?_, fun n k hmem => ?_⟩
    · simpa using hall _ hmem
    · simpa using hall _ hmem
  · rintro ⟨hwrite, hread⟩ ⟨n | n, code, k⟩ hmem
    · by_cases hcode : code = ctl
      · exact .inr (decide_eq_true (hread n k (hcode ▸ hmem)))
      · exact .inl hcode
    · by_cases hcode : code = ctl
      · exact .inr (decide_eq_true (hwrite n k (hcode ▸ hmem)))
      · exact .inl hcode

/-! ### The row of a frame (R114)

One equivalence per row: the test of the row, and that the rows before it in the map do not apply. -/

theorem Ctx.served_iff : cx.served h = true ↔ h.fid ≠ cx.cfg.fidHs ∧ forUs cx.addr h.dst = true := by
  simp [Ctx.served]

theorem Ctx.appSpecial_iff : cx.appSpecial h = true ↔
    h.fid = cx.cfg.fidApp ∧ (h.ctl = cx.cfg.ccFwId ∨ h.ctl = cx.cfg.ccRIdentity) := by
  simp [Ctx.appSpecial]

theorem selectFrame_eq_hs_iff : selectFrame cx.cfg cx.addr (h.frame data) = .hs ↔ h.fid = cx.cfg.fidHs := by
  unfold selectFrame Hdr.frame
  grind

theorem selectFrame_eq_notForUs_iff :
    selectFrame cx.cfg cx.addr (h.frame data) = .notForUs ↔ h.fid ≠ cx.cfg.fidHs ∧ forUs cx.addr h.dst = false := by
  unfold selectFrame Hdr.frame
  grind

theorem selectFrame_eq_fwId_iff :
    selectFrame cx.cfg cx.addr (h.frame data) = .fwId ↔
      cx.served h = true ∧ h.fid = cx.cfg.fidApp ∧ h.ctl = cx.cfg.ccFwId := by
  unfold selectFrame Hdr.frame
  grind [Ctx.served_iff]

theorem selectFrame_eq_idRead_iff (hcodes : cx.cfg.CodesApart) :
    selectFrame cx.cfg cx.addr (h.frame data) = .idRead ↔
      cx.served h = true ∧ h.fid = cx.cfg.fidApp ∧ h.ctl = cx.cfg.ccRIdentity := by
  have hapart := hcodes.fwId_ne_rIdentity
  unfold selectFrame Hdr.frame
  grind [Ctx.served_iff]

theorem selectFrame_eq_write_iff {w : WriteSel} :
    selectFrame cx.cfg cx.addr (h.frame data) = .write w ↔
      cx.served h = true ∧ cx.appSpecial h = false ∧ selectWrite cx.cfg h.ctl data.length = some w := by
  unfold selectFrame Hdr.frame
  grind [Ctx.served_iff, Ctx.appSpecial_iff]

theorem selectFrame_eq_read_iff {n : RName} :
    selectFrame cx.cfg cx.addr (h.frame data) = .read n k ↔
      cx.served h = true ∧ cx.appSpecial h = false ∧ selectWrite cx.cfg h.ctl data.length = none
      ∧ selectRead cx.cfg h.ctl data.length = some (n, k) := by
  unfold selectFrame Hdr.frame
  grind [Ctx.served_iff, Ctx.appSpecial_iff]

theorem selectFrame_eq_unknown_iff :
    selectFrame cx.cfg cx.addr (h.frame data) = .unknown ↔
      cx.served h = true ∧ cx.appSpecial h = false ∧ selectWrite cx.cfg h.ctl data.length = none
      ∧ selectRead cx.cfg h.ctl data.length = none := by
  unfold selectFrame Hdr.frame
  grind [Ctx.served_iff, Ctx.appSpecial_iff]

end Sys2Proof
end

