-- ==== Sys2Proof/Proofs/Encoding.lean ====
section
/-! Decoding and encoding are inverse (R100 to R114): a well-formed row is the one its byte or its frame selects, so the
decoder gives back what the encoder wrote, and encodes to what it read. -/

namespace Sys2Proof

variable {cfg : Cfg} {cx : Ctx} {c : Chan} {b : Byte} {now : Nat} {h : Hdr} {idx data extra x : List Byte}
  {i : Instr} {f : Frame}

/-! ### Frame-level rows (R109, R114) -/

theorem dataFits_iff : dataFits data = true ↔ data.length ≤ 255 := decide_eq_true_iff

theorem Ctx.selectsEntry_iff {e : Entry} {vw : Nat} : cx.selectsEntry h e idx vw extra = true ↔
    cx.served h = true ∧ ⟨e, h.ctl, idx.length⟩ ∈ cx.cfg.ccTable ∧ idx.length + vw + extra.length ≤ 255 := by
  simp [Ctx.selectsEntry, and_assoc]

theorem Ctx.appSpecial_eq_false (hfwId : h.ctl ≠ cx.cfg.ccFwId) (hrIdentity : h.ctl ≠ cx.cfg.ccRIdentity) :
    cx.appSpecial h = false := by
  simp [Ctx.appSpecial, hfwId, hrIdentity]

theorem WName.wellFormed_instr (n : WName) (v : Nat) :
    WellFormed cx (n.instr h idx v extra) = cx.selectsEntry h (.w n) idx n.vw extra := by cases n <;> rfl

theorem RName.wellFormed_instr (n : RName) :
    WellFormed cx (n.instr h idx extra) = cx.selectsEntry h (.r n) idx 0 extra := by cases n <;> rfl

theorem WName.frame?_instr (n : WName) (v : Nat) :
    (n.instr h idx v extra).frame? = some (h.frame (idx ++ valueBytes n.vw v ++ extra)) := by
  cases n <;> simp [WName.instr, WName.vw, Instr.frame?, valueBytes]

theorem RName.frame?_instr (n : RName) : (n.instr h idx extra).frame? = some (h.frame (idx ++ extra)) := by
  cases n <;> rfl

/-- The data is long enough for the row's index bytes and value: what the row cuts the data by loses nothing. -/
def FrameSel.Cuts (data : List Byte) : FrameSel → Prop
  | .write (.entry n k) => k + n.vw ≤ data.length
  | .read _ k => k ≤ data.length
  | _ => True

/-- A frame has enough data for the row it selects (R260, R300). -/
theorem selectFrame_cuts (hcodes : cx.cfg.CodesApart) : (selectFrame cx.cfg cx.addr (h.frame data)).Cuts data := by
  cases hsel : selectFrame cx.cfg cx.addr (h.frame data) with
  | hs | notForUs | fwId | idRead | unknown => trivial
  | write w =>
    cases w with
    | identity | fwNop => trivial
    | entry n k =>
      obtain ⟨-, -, hwrite⟩ := selectFrame_eq_write_iff.1 hsel
      exact ((selectWrite_eq_entry_iff hcodes).1 hwrite).2
  | read n k =>
    obtain ⟨-, -, -, hread⟩ := selectFrame_eq_read_iff.1 hsel
    exact ((selectRead_eq_some_iff hcodes).1 hread).2

/-- The codes of the table are not those of R114 rows 3 and 4. -/
theorem appSpecial_of_mem_table (hcodes : cx.cfg.CodesApart) {e : Entry} {k : Nat}
    (hrow : ⟨e, h.ctl, k⟩ ∈ cx.cfg.ccTable) : cx.appSpecial h = false := by
  obtain ⟨hfwId, hrIdentity, -, -⟩ := hcodes.table _ hrow
  exact Ctx.appSpecial_eq_false hfwId hrIdentity

/-- The code of a read entry is none the write handler recognises. -/
theorem selectWrite_of_mem_table_read (hcodes : cfg.CodesApart) {n : RName} {ctl : Byte} {k len : Nat}
    (hrow : ⟨.r n, ctl, k⟩ ∈ cfg.ccTable) : selectWrite cfg ctl len = none := by
  obtain ⟨-, -, hwIdentity, hnop⟩ := hcodes.table _ hrow
  refine (selectWrite_eq_none_iff hcodes).2 ⟨hwIdentity, hnop, fun m j hrow' => ?_⟩
  exact absurd (hcodes.rows _ hrow _ hrow' rfl) nofun

theorem WName.wellFormed_cut_iff (hcodes : cx.cfg.CodesApart) (n : WName) {k : Nat} (hlen : k + n.vw ≤ data.length) :
    WellFormed cx ((FrameSel.write (.entry n k)).instr h data) = true ↔
      selectFrame cx.cfg cx.addr (h.frame data) = .write (.entry n k) ∧ data.length ≤ 255 := by
  have htake : (data.take k).length = k := List.length_take_of_le (by omega)
  rw [selectFrame_eq_write_iff, selectWrite_eq_entry_iff hcodes, FrameSel.instr, n.wellFormed_instr,
    Ctx.selectsEntry_iff, htake, List.length_drop, Nat.add_sub_cancel' hlen]
  constructor
  · rintro ⟨hserved, hrow, hfits⟩
    exact ⟨⟨hserved, appSpecial_of_mem_table hcodes hrow, hrow, hlen⟩, hfits⟩
  · rintro ⟨⟨hserved, -, hrow, -⟩, hfits⟩
    exact ⟨hserved, hrow, hfits⟩

theorem RName.wellFormed_cut_iff (hcodes : cx.cfg.CodesApart) (n : RName) {k : Nat} (hlen : k ≤ data.length) :
    WellFormed cx ((FrameSel.read n k).instr h data) = true ↔
      selectFrame cx.cfg cx.addr (h.frame data) = .read n k ∧ data.length ≤ 255 := by
  have htake : (data.take k).length = k := List.length_take_of_le hlen
  rw [selectFrame_eq_read_iff, selectRead_eq_some_iff hcodes, FrameSel.instr, n.wellFormed_instr,
    Ctx.selectsEntry_iff, htake, List.length_drop, Nat.add_zero, Nat.add_sub_cancel' hlen]
  constructor
  · rintro ⟨hserved, hrow, hfits⟩
    exact ⟨⟨hserved, appSpecial_of_mem_table hcodes hrow, selectWrite_of_mem_table_read hcodes hrow, hrow, hlen⟩, hfits⟩
  · rintro ⟨⟨hserved, -, -, hrow, -⟩, hfits⟩
    exact ⟨hserved, hrow, hfits⟩

/-- A frame-level row is well-formed exactly on the frames that select it and fit the length byte. -/
theorem FrameSel.wellFormed_instr_iff (hcodes : cx.cfg.CodesApart) {sel : FrameSel} (hcuts : sel.Cuts data) :
    WellFormed cx (sel.instr h data) = true ↔
      selectFrame cx.cfg cx.addr (h.frame data) = sel ∧ data.length ≤ 255 := by
  cases sel with
  | hs =>
    rw [selectFrame_eq_hs_iff]
    simp [FrameSel.instr, WellFormed, dataFits_iff]
  | notForUs =>
    rw [selectFrame_eq_notForUs_iff]
    simp [FrameSel.instr, WellFormed, dataFits_iff]
  | fwId =>
    rw [selectFrame_eq_fwId_iff]
    simp [FrameSel.instr, WellFormed, dataFits_iff, and_assoc]
  | idRead =>
    rw [selectFrame_eq_idRead_iff hcodes]
    simp [FrameSel.instr, WellFormed, dataFits_iff, and_assoc]
  | write w =>
    cases w with
    | identity =>
      obtain ⟨hne, hne'⟩ := hcodes.wIdentity
      have hplain (hctl : h.ctl = cx.cfg.ccWIdentity) : cx.appSpecial h = false :=
        Ctx.appSpecial_eq_false (hctl ▸ hne) (hctl ▸ hne')
      rw [selectFrame_eq_write_iff, selectWrite_eq_identity_iff]
      simpa [FrameSel.instr, WellFormed, dataFits_iff, and_assoc] using fun _ hctl _ => hplain hctl
    | fwNop =>
      have hplain (hctl : h.ctl ∈ cx.cfg.fwNopCodes) : cx.appSpecial h = false := by
        obtain ⟨hfwId, hrIdentity, -⟩ := hcodes.fwNop _ hctl
        exact Ctx.appSpecial_eq_false hfwId hrIdentity
      rw [selectFrame_eq_write_iff, selectWrite_eq_fwNop_iff hcodes]
      simpa [FrameSel.instr, WellFormed, dataFits_iff, and_assoc] using fun _ hctl _ => hplain hctl
    | entry n k => exact n.wellFormed_cut_iff hcodes hcuts
  | read n k => exact n.wellFormed_cut_iff hcodes hcuts
  | unknown =>
    rw [selectFrame_eq_unknown_iff, selectWrite_eq_none_iff hcodes, selectRead_eq_none_iff hcodes]
    simp [FrameSel.instr, WellFormed, dataFits_iff, and_assoc, Cfg.noEntryServes_iff]

/-- A frame-level row is the frame it was cut from. -/
theorem FrameSel.frame?_instr {sel : FrameSel} (hcuts : sel.Cuts data) :
    (sel.instr h data).frame? = some (h.frame data) := by
  cases sel with
  | hs | notForUs | fwId | idRead | unknown => rfl
  | write w =>
    cases w with
    | identity | fwNop => rfl
    | entry n k =>
      rw [FrameSel.instr, n.frame?_instr, n.valueBytes_valueAt hcuts, ← List.drop_drop, List.append_assoc,
        List.take_append_drop, List.take_append_drop]
  | read n k => rw [FrameSel.instr, n.frame?_instr, List.take_append_drop]

theorem FrameSel.byte?_instr (sel : FrameSel) : (sel.instr h data).byte? cfg = none := by
  cases sel with
  | hs | notForUs | fwId | idRead | unknown => rfl
  | write w =>
    cases w with
    | identity | fwNop => rfl
    | entry n k => cases n <;> rfl
  | read n k => cases n <;> rfl

/-! ### Where an instruction arrives (R103, R110) -/

theorem ByteSel.arrivesAt_instr (sel : ByteSel) (c : Chan) (b : Byte) (now : Nat) :
    (sel.instr c b now).arrivesAt c now := by
  cases sel with
  | decIfData | decEscMarker | decEscEnd | decEscStart => exact .inr rfl
  | hsMarker | hsNak | hsAck | hsSoh | hsNakRestart | hsOther => exact .inl rfl
  | decAmMarker | decAmOther | decAsStart | decAsMarker | decAsOther | decIfMarker | decEscOther => exact .inl rfl

theorem FrameSel.arrivesAt_instr (sel : FrameSel) (h : Hdr) (data : List Byte) :
    (sel.instr h data).arrivesAt h.c h.now := by
  refine .inr ?_
  cases sel with
  | hs | notForUs | fwId | idRead | unknown => rfl
  | write w =>
    cases w with
    | identity | fwNop => rfl
    | entry n k => cases n <;> rfl
  | read n k => cases n <;> rfl

/-- What has an encoding, and arrives on `c` at `now`: a byte-level row with its byte, or a frame-level row cut from its
data. -/
inductive Encodable (cfg : Cfg) (c : Chan) (now : Nat) : Instr → Prop
  | byte (sel : ByteSel) (b : Byte) (hbyte : (sel.instr c b now).byte? cfg = some b) :
      Encodable cfg c now (sel.instr c b now)
  | frame (sel : FrameSel) (h : Hdr) (data : List Byte) (hc : h.c = c) (hnow : h.now = now) (hcuts : sel.Cuts data) :
      Encodable cfg c now (sel.instr h data)

/-- A write entry's operands are cut from the data they make up. -/
theorem Encodable.write (n : WName) (h : Hdr) (idx extra : List Byte) {v : Nat} (hv : v < 256 ^ n.vw) :
    Encodable cfg h.c h.now (n.instr h idx v extra) := by
  have hcut := Encodable.frame (cfg := cfg) (.write (.entry n idx.length)) h (idx ++ valueBytes n.vw v ++ extra) rfl rfl
    (by simp [FrameSel.Cuts, ← Nat.add_assoc])
  rw [FrameSel.instr, n.valueAt_append idx extra hv] at hcut
  simpa using hcut

/-- A read entry's operands are cut from the data they make up. -/
theorem Encodable.read (n : RName) (h : Hdr) (idx extra : List Byte) :
    Encodable cfg h.c h.now (n.instr h idx extra) := by
  have hcut := Encodable.frame (cfg := cfg) (.read n idx.length) h (idx ++ extra) rfl rfl (by simp [FrameSel.Cuts])
  simpa [FrameSel.instr] using hcut

/-- Every instruction that arrives somewhere has an encoding: the transitions without input and the steps do not arrive
(R110, R120). -/
theorem encodable_of_arrivesAt (cfg : Cfg) (harr : i.arrivesAt c now) : Encodable cfg c now i := by
  rcases harr with harr | harr
  · cases i with
    | hsMarker => cases harr; exact .byte .hsMarker _ rfl
    | hsNak => cases harr; exact .byte .hsNak _ rfl
    | hsAck => cases harr; exact .byte .hsAck _ rfl
    | hsSoh => cases harr; exact .byte .hsSoh _ rfl
    | hsNakRestart => cases harr; exact .byte .hsNakRestart _ rfl
    | hsOther => cases harr; exact .byte .hsOther _ rfl
    | decAmMarker => cases harr; exact .byte .decAmMarker _ rfl
    | decAmOther => cases harr; exact .byte .decAmOther _ rfl
    | decAsStart => cases harr; exact .byte .decAsStart _ rfl
    | decAsMarker => cases harr; exact .byte .decAsMarker _ rfl
    | decAsOther => cases harr; exact .byte .decAsOther _ rfl
    | decIfMarker => cases harr; exact .byte .decIfMarker _ rfl
    | decEscOther => cases harr; exact .byte .decEscOther _ rfl
    | _ => cases harr
  · cases i with
    | decIfData => cases harr; exact .byte .decIfData _ rfl
    | decEscMarker => cases harr; exact .byte .decEscMarker _ rfl
    | decEscEnd => cases harr; exact .byte .decEscEnd _ rfl
    | decEscStart => cases harr; exact .byte .decEscStart _ rfl
    | frmHs h data => cases harr; exact .frame .hs h data rfl rfl trivial
    | frmNotForUs h data => cases harr; exact .frame .notForUs h data rfl rfl trivial
    | frmFwId h data => cases harr; exact .frame .fwId h data rfl rfl trivial
    | frmIdRead h data => cases harr; exact .frame .idRead h data rfl rfl trivial
    | frmIdWrite h data => cases harr; exact .frame (.write .identity) h data rfl rfl trivial
    | frmFwNop h data => cases harr; exact .frame (.write .fwNop) h data rfl rfl trivial
    | frmUnknown h data => cases harr; exact .frame .unknown h data rfl rfl trivial
    | wSuctionLevel h idx v => cases harr; simpa [WName.instr] using Encodable.write .suctionLevel h idx _ v.isLt
    | wSelectFlow h idx v => cases harr; simpa [WName.instr] using Encodable.write .selectFlow h idx _ v.isLt
    | wWorkAct h idx v => cases harr; simpa [WName.instr] using Encodable.write .workAct h idx _ v.isLt
    | wStandAct h idx v => cases harr; simpa [WName.instr] using Encodable.write .standAct h idx _ v.isLt
    | wWorkDelay h idx v => cases harr; simpa [WName.instr] using Encodable.write .workDelay h idx _ v.isLt
    | wStandDelay h idx v => cases harr; simpa [WName.instr] using Encodable.write .standDelay h idx _ v.isLt
    | wPedalAct h idx v => cases harr; simpa [WName.instr] using Encodable.write .pedalAct h idx _ v.isLt
    | wPedalMode h idx v => cases harr; simpa [WName.instr] using Encodable.write .pedalMode h idx _ v.isLt
    | wFilterStatus h idx v => cases harr; simpa [WName.instr] using Encodable.write .filterStatus h idx _ v.isLt
    | wFilterSat h idx v => cases harr; simpa [WName.instr] using Encodable.write .filterSat h idx _ v.isLt
    | wConnectedPedal h idx v => cases harr; simpa [WName.instr] using Encodable.write .connectedPedal h idx _ v.isLt
    | wContSuction h idx v => cases harr; simpa [WName.instr] using Encodable.write .contSuction h idx _ v.isLt
    | wUsbConnect h idx v => cases harr; simpa [WName.instr] using Encodable.write .usbConnect h idx _ v.isLt
    | wStationError h idx v => cases harr; simpa [WName.instr] using Encodable.write .stationError h idx _ v.isLt
    | rSuctionLevel h idx extra => cases harr; exact .read .suctionLevel h idx extra
    | rFlow h idx extra => cases harr; exact .read .flow h idx extra
    | rSpeed h idx extra => cases harr; exact .read .speed h idx extra
    | rSelectFlow h idx extra => cases harr; exact .read .selectFlow h idx extra
    | rWorkAct h idx extra => cases harr; exact .read .workAct h idx extra
    | rStandAct h idx extra => cases harr; exact .read .standAct h idx extra
    | rWorkDelay h idx extra => cases harr; exact .read .workDelay h idx extra
    | rStandDelay h idx extra => cases harr; exact .read .standDelay h idx extra
    | rWorkAfterrunMs h idx extra => cases harr; exact .read .workAfterrunMs h idx extra
    | rStandAfterrunMs h idx extra => cases harr; exact .read .standAfterrunMs h idx extra
    | rPedalAct h idx extra => cases harr; exact .read .pedalAct h idx extra
    | rPedalMode h idx extra => cases harr; exact .read .pedalMode h idx extra
    | rFilterStatus h idx extra => cases harr; exact .read .filterStatus h idx extra
    | rFilterSat h idx extra => cases harr; exact .read .filterSat h idx extra
    | rConnectedPedal h idx extra => cases harr; exact .read .connectedPedal h idx extra
    | rContSuction h idx extra => cases harr; exact .read .contSuction h idx extra
    | rUsbConnect h idx extra => cases harr; exact .read .usbConnect h idx extra
    | rStationError h idx extra => cases harr; exact .read .stationError h idx extra
    | _ => cases harr

/-! ### The encoder and the decoder -/

theorem encode_of_byte? (hbyte : i.byte? cfg = some b) : encode cfg i = [b] := by simp only [encode, hbyte]

theorem encode_of_frame? (hbyte : i.byte? cfg = none) (hframe : i.frame? = some f) :
    encode cfg i = frameBytes f.src f.dst f.fid f.ctl f.data := by simp only [encode, hbyte, hframe]

theorem FrameSel.encode_instr {sel : FrameSel} (hcuts : sel.Cuts data) :
    encode cfg (sel.instr h data) = frameBytes h.src h.dst h.fid h.ctl data :=
  encode_of_frame? sel.byte?_instr (FrameSel.frame?_instr hcuts)

/-- One byte is a byte-level instruction, the bytes of a frame a frame-level one, and nothing else decodes. -/
theorem decode_eq_ok_iff : decode cx c now x = .ok i ↔
    (∃ b, x = [b] ∧ i = decodeByte cx c b now) ∨ ∃ f, parseFrame x = .ok f ∧ i = decodeFrame cx c f now := by
  match x with
  | [] => simp [decode, parseFrame]
  | [b] => simp [decode, parseFrame, eq_comm]
  | b0 :: b1 :: rest =>
    cases hparse : parseFrame (b0 :: b1 :: rest) with
    | ok f => simp [decode, hparse, eq_comm]
    | error e => simp [decode, hparse]

theorem Hdr.hdr_frame (h : Hdr) (data : List Byte) : (h.frame data).hdr h.c h.now = h := rfl

/-! ### The statements -/

/-- Settles O1: an encodable instruction is a row of the opcode maps, and a well-formed row is the one that its byte, or
its frame, selects. -/
theorem decodeEncodeRoundTrip : Obligations.DecodeEncodeRoundTrip := by
  intro cx i c now hwf hi harr
  rw [decode_eq_ok_iff]
  cases encodable_of_arrivesAt cx.cfg harr with
  | byte sel b hbyte =>
    refine .inl ⟨b, encode_of_byte? hbyte, ?_⟩
    rw [decodeByte, selectByte_of_wellFormed hwf sel hi hbyte]
  | frame sel h data hc hnow hcuts =>
    obtain ⟨hsel, hfits⟩ := (FrameSel.wellFormed_instr_iff (Cfg.codesApart_of_wf hwf) hcuts).1 hi
    subst hc hnow
    refine .inr ⟨h.frame data, parseFrame_eq_ok_iff.2 ⟨hfits, FrameSel.encode_instr hcuts⟩, ?_⟩
    rw [decodeFrame, hsel, h.hdr_frame]
    rfl

/-- Settles O2: what a byte, or a frame, selects is a well-formed row that encodes to it. -/
theorem decodedIsWellFormed : Obligations.DecodedIsWellFormed := by
  intro cx c now x i hwf hdec
  rcases decode_eq_ok_iff.1 hdec with ⟨b, rfl, rfl⟩ | ⟨f, hparse, rfl⟩
  · obtain ⟨hi, hbyte⟩ := wellFormed_decodeByte cx c b now
    exact ⟨hi, encode_of_byte? hbyte, ByteSel.arrivesAt_instr ..⟩
  · obtain ⟨hfits, rfl⟩ := parseFrame_eq_ok_iff.1 hparse
    have hcodes := Cfg.codesApart_of_wf hwf
    have hcuts : (selectFrame cx.cfg cx.addr f).Cuts f.data := selectFrame_cuts (h := f.hdr c now) hcodes
    exact ⟨(FrameSel.wellFormed_instr_iff hcodes hcuts).2 ⟨rfl, hfits⟩, FrameSel.encode_instr hcuts,
      FrameSel.arrivesAt_instr _ (f.hdr c now) f.data⟩

/-- Settles O3, by evaluating the decoder: the three lone bytes in the state of their first row, then a frame without
data, a write and a read with one index byte. -/
theorem tableWordsDecode : Obligations.TableWordsDecode := ⟨rfl, rfl, rfl, rfl, rfl, rfl⟩

end Sys2Proof
end

