-- ==== Sys2Proof/Proofs/Uart.lean ====
section
/-! The bit-level receiver (R143, R144): a run over samples, cut into the ten bits of a character. From the falling edge on
a run only waits and samples: `lowBits b k` is what the receiver has shifted in when bit `k` of `b` begins. -/

namespace Sys2Proof.Machine

variable {osr n count : Nat} {b shift : Byte} {level l m : Bool} {phase : UartPhase} {u v : Uart}

/-! ### Runs over samples -/

theorem uartRun_cons (osr : Nat) (l : Bool) (ls : List Bool) (u : Uart) :
    uartRun osr (l :: ls) u =
      ((uartRun osr ls (uartTick osr l u).1).1,
        (uartTick osr l u).2.toList ++ (uartRun osr ls (uartTick osr l u).1).2) := rfl

theorem uartRun_append (osr : Nat) (xs ys : List Bool) (u : Uart) :
    uartRun osr (xs ++ ys) u =
      ((uartRun osr ys (uartRun osr xs u).1).1, (uartRun osr xs u).2 ++ (uartRun osr ys (uartRun osr xs u).1).2) := by
  induction xs generalizing u with
  | nil => rfl
  | cons l xs ih => simp only [List.cons_append, uartRun_cons, ih, List.append_assoc]

/-- A sample that delivers nothing leaves the rest of the run. -/
theorem uartRun_cons_of_quiet (ls : List Bool) (h : uartTick osr l u = (v, none)) :
    uartRun osr (l :: ls) u = uartRun osr ls v := by
  rw [uartRun_cons, h]; rfl

/-- A silent run leaves the samples after it. -/
theorem uartRun_append_of_silent {xs : List Bool} (ys : List Bool) (h : uartRun osr xs u = (v, [])) :
    uartRun osr (xs ++ ys) u = uartRun osr ys v := by
  rw [uartRun_append, h]; rfl

/-! ### Waiting -/

/-- While more than one sample is left to wait, a sample only moves the flip-flops on. -/
theorem uartTick_wait (hphase : phase ≠ .idle) (hcount : 1 < count) :
    uartTick osr level ⟨l, m, phase, count, shift⟩ = (⟨level, l, phase, count - 1, shift⟩, none) := by
  cases phase with
  | idle => exact absurd rfl hphase
  | start => simp [uartTick, uartSample, hcount]
  | data k => simp [uartTick, uartSample, hcount]
  | stop => simp [uartTick, uartSample, hcount]

/-- On a held line whose level the flip-flops have, a wait only counts down. -/
theorem uartRun_wait (hphase : phase ≠ .idle) (hcount : n < count) :
    uartRun osr (List.replicate n level) ⟨level, level, phase, count, shift⟩
      = (⟨level, level, phase, count - n, shift⟩, []) := by
  induction n generalizing count with
  | zero => rfl
  | succ n ih =>
    rw [List.replicate_succ, uartRun_cons_of_quiet _ (uartTick_wait hphase (by omega)), ih (by omega), Nat.sub_sub,
      Nat.add_comm 1]

/-- On a held line an idle receiver sees no edge. -/
theorem uartRun_idle (osr n count : Nat) (shift : Byte) (level : Bool) :
    uartRun osr (List.replicate n level) ⟨level, level, .idle, count, shift⟩
      = (⟨level, level, .idle, count, shift⟩, []) := by
  induction n with
  | zero => rfl
  | succ n ih =>
    have hquiet : uartTick osr level ⟨level, level, .idle, count, shift⟩
        = (⟨level, level, .idle, count, shift⟩, none) := by
      simp [uartTick, uartSample]
    rw [List.replicate_succ, uartRun_cons_of_quiet _ hquiet, ih]

/-- A bit whose middle lies `n + 3` samples ahead: after the first `n + 2` the flip-flops have its level and the next
sample is the middle. -/
theorem uartRun_to_middle (n r : Nat) (hphase : phase ≠ .idle) :
    uartRun osr (List.replicate (n + 2 + r) level) ⟨l, m, phase, n + 3, shift⟩
      = uartRun osr (List.replicate r level) ⟨level, level, phase, 1, shift⟩ := by
  have hwaited : uartRun osr (List.replicate (n + 2) level) ⟨l, m, phase, n + 3, shift⟩
      = (⟨level, level, phase, 1, shift⟩, []) := by
    rw [List.replicate_succ, uartRun_cons_of_quiet _ (uartTick_wait hphase (by omega)), List.replicate_succ,
      uartRun_cons_of_quiet _ (uartTick_wait hphase (by omega)), uartRun_wait hphase (by omega),
      show n + 3 - 1 - 1 - n = 1 by omega]
  rw [← List.replicate_append_replicate, uartRun_append_of_silent _ hwaited]

/-! ### The data bits -/

theorem getLsbD_setBit (b : Byte) {k i : Nat} (hi : i < 8) (level : Bool) :
    (setBit b k level).getLsbD i = if i = k then level else b.getLsbD i := by
  have hmask : (1#8 <<< k).getLsbD i = decide (i = k) := by
    rw [← BitVec.twoPow_eq, BitVec.getLsbD_twoPow, ← Bool.decide_and, decide_eq_decide]
    omega
  cases level with
  | false =>
    rw [setBit, if_neg (by decide), BitVec.getLsbD_and, BitVec.getLsbD_not, hmask]
    by_cases hik : i = k <;> simp [hik, hi]
  | true =>
    rw [setBit, if_pos rfl, BitVec.getLsbD_or, hmask]
    by_cases hik : i = k <;> simp [hik]

/-- The low `k` bits of a byte: its data bits before bit `k` (R143: least significant first). -/
def lowBits (b : Byte) (k : Nat) : Byte := (b.setWidth k).setWidth 8

theorem lowBits_zero (b : Byte) : lowBits b 0 = 0#8 := by
  rw [lowBits, BitVec.eq_nil (b.setWidth 0)]; rfl

theorem lowBits_eight (b : Byte) : lowBits b 8 = b := by simp [lowBits]

theorem getLsbD_lowBits (b : Byte) (k : Nat) {i : Nat} (hi : i < 8) :
    (lowBits b k).getLsbD i = (decide (i < k) && b.getLsbD i) := by
  simp [lowBits, hi]

/-- Sampling bit `k` extends the bits shifted in by one. -/
theorem setBit_lowBits (b : Byte) (k : Nat) : setBit (lowBits b k) k (b.getLsbD k) = lowBits b (k + 1) := by
  refine BitVec.eq_of_getLsbD_eq fun i hi => ?_
  rw [getLsbD_setBit _ hi, getLsbD_lowBits b k hi, getLsbD_lowBits b (k + 1) hi]
  by_cases hik : i = k
  · simp [hik]
  · simp [hik, show i < k + 1 ↔ i < k by omega]

/-! ### The ten bits of a character -/

/-- What the receiver waits for when bit `k` after the start bit begins: data bit `k`, or the stop bit after the eighth. -/
def bitPhase (k : Nat) : UartPhase := if k < 8 then .data k else .stop

/-- The start bit (R143): the falling edge reaches the receiver with the second sample, the check of the level comes
`osr / 2` samples later, and what is left of the wait for the middle of data bit 0 is `osr / 2 + 2` samples. -/
theorem uartRun_startBit (hosr : 3 ≤ osr) (count : Nat) (shift : Byte) :
    uartRun osr (List.replicate osr false) ⟨true, true, .idle, count, shift⟩
      = (⟨false, false, .data 0, osr / 2 + 2, 0#8⟩, []) := by
  have hedge : uartTick osr false ⟨true, true, .idle, count, shift⟩ = (⟨false, true, .idle, count, shift⟩, none) := by
    simp [uartTick, uartSample]
  have hstart : uartTick osr false ⟨false, true, .idle, count, shift⟩
      = (⟨false, false, .start, osr / 2, shift⟩, none) := by
    simp [uartTick, uartSample]
  have hcheck : uartTick osr false ⟨false, false, .start, 1, shift⟩ = (⟨false, false, .data 0, osr, 0#8⟩, none) := by
    simp [uartTick, uartSample]
  have hlen : List.replicate osr false = false :: false ::
      (List.replicate (osr / 2 - 1) false ++ false :: List.replicate (osr - (osr / 2 + 2)) false) := by
    rw [← List.replicate_succ, List.replicate_append_replicate, ← List.replicate_succ, ← List.replicate_succ]
    congr 1; omega
  rw [hlen, uartRun_cons_of_quiet _ hedge, uartRun_cons_of_quiet _ hstart,
    uartRun_append_of_silent _ (uartRun_wait (phase := .start) nofun (by omega)),
    show osr / 2 - (osr / 2 - 1) = 1 by omega, uartRun_cons_of_quiet _ hcheck, uartRun_wait (phase := .data 0) nofun (by omega)]
  congr 2; omega

/-- From the start of a bit to its middle, and what is left of it. -/
theorem uartRun_bit (hosr : 3 ≤ osr) (hphase : phase ≠ .idle) :
    uartRun osr (List.replicate osr level) ⟨l, m, phase, osr / 2 + 2, shift⟩
      = uartRun osr (level :: List.replicate (osr - (osr / 2 + 2)) level) ⟨level, level, phase, 1, shift⟩ := by
  have hlen : osr = osr / 2 - 1 + 2 + (osr - (osr / 2 + 2) + 1) := by omega
  have hcount : osr / 2 + 2 = osr / 2 - 1 + 3 := by omega
  rw [← List.replicate_succ, ← uartRun_to_middle (osr / 2 - 1) _ hphase, ← hlen, ← hcount]

/-- A data bit (R143): its level is set, and the wait for the next bit begins. -/
theorem uartRun_dataBit (hosr : 3 ≤ osr) {k : Nat} (hk : k < 8) :
    uartRun osr (List.replicate osr level) ⟨l, m, bitPhase k, osr / 2 + 2, shift⟩
      = (⟨level, level, bitPhase (k + 1), osr / 2 + 2, setBit shift k level⟩, []) := by
  have hsample : uartTick osr level ⟨level, level, .data k, 1, shift⟩
      = (⟨level, level, bitPhase (k + 1), osr, setBit shift k level⟩, none) := by
    simp [uartTick, uartSample, bitPhase, show k + 1 < 8 ↔ k < 7 by omega]
  have hphase : bitPhase (k + 1) ≠ .idle := by
    unfold bitPhase; split <;> nofun
  rw [show bitPhase k = .data k from if_pos hk, uartRun_bit (phase := .data k) hosr nofun,
    uartRun_cons_of_quiet _ hsample, uartRun_wait hphase (by omega)]
  congr 2; omega

/-- The first `k` data bits: the line ends at the level of the last, and its bits are shifted in. -/
theorem uartRun_dataBits (hosr : 3 ≤ osr) (b : Byte) {k : Nat} (hk : k ≤ 8) :
    ∃ level, uartRun osr ((List.range k).flatMap fun i => List.replicate osr (b.getLsbD i))
        ⟨false, false, .data 0, osr / 2 + 2, 0#8⟩
      = (⟨level, level, bitPhase k, osr / 2 + 2, lowBits b k⟩, []) := by
  induction k with
  | zero => exact ⟨false, by rw [lowBits_zero]; rfl⟩
  | succ k ih =>
    obtain ⟨level, hbits⟩ := ih (by omega)
    refine ⟨b.getLsbD k, ?_⟩
    rw [List.range_succ, List.flatMap_append, uartRun_append_of_silent _ hbits, List.flatMap_singleton,
      uartRun_dataBit hosr (by omega), setBit_lowBits]

/-- The stop bit (R143, R144): a high one delivers the byte, a low one nothing; the receiver is idle again. -/
theorem uartRun_stopBit (hosr : 3 ≤ osr) (stop : Bool) :
    uartRun osr (List.replicate osr stop) ⟨l, m, .stop, osr / 2 + 2, b⟩
      = (⟨stop, stop, .idle, 0, b⟩, if stop then [b] else []) := by
  have hsample : uartTick osr stop ⟨stop, stop, .stop, 1, b⟩
      = (⟨stop, stop, .idle, 0, b⟩, if stop then some b else none) := by
    simp [uartTick, uartSample]
  rw [uartRun_bit (phase := .stop) hosr nofun, uartRun_cons, hsample, uartRun_idle]
  cases stop <;> rfl

/-- A whole character from an idle line. -/
theorem uartRun_charLevels (hosr : 3 ≤ osr) (b : Byte) (stop : Bool) (count : Nat) (shift : Byte) :
    uartRun osr (charLevels osr b stop) ⟨true, true, .idle, count, shift⟩
      = (⟨stop, stop, .idle, 0, b⟩, if stop then [b] else []) := by
  obtain ⟨level, hbits⟩ := uartRun_dataBits hosr b le_rfl
  rw [charLevels, List.append_assoc, uartRun_append_of_silent _ (uartRun_startBit hosr count shift),
    uartRun_append_of_silent _ hbits, lowBits_eight, show bitPhase 8 = .stop from rfl, uartRun_stopBit hosr]

/-! ### The statement -/

/-- Settles O51, by the run of a whole character, once for each level of its stop bit. -/
theorem uartDeliversCharacter : Obligations.UartDeliversCharacter := by
  intro osr b u hosr hphase hsync1 hsync2
  obtain ⟨sync1, sync2, phase, count, shift⟩ := u
  cases hphase; cases hsync1; cases hsync2
  simp [uartRun_charLevels hosr]

end Sys2Proof.Machine
end

