-- ==== Sys2Proof/Proofs/Receiver.lean ====
section
/-! An `RX` step (R141, R142, R146): what the rows a received byte selects keep (`RxKeeps`), and from it that the step
runs the byte's instruction, settles the sequencer, and stays on its own channel. -/

namespace Sys2Proof.Machine

variable {s t u : State} {c : Chan} {b : Byte} {now : Nat} {p q : Prop}

/-! ### What a byte on a channel keeps -/

/-- What a byte received on channel `c` keeps: the time of its reception, the other channel and the environment's side; and
the shared registers, unless `p`, the condition under which the byte may complete a frame. -/
structure RxKeeps (p : Prop) (c : Chan) (s t : State) : Prop where
  tRx : (t.ch c).tRx = (s.ch c).tRx
  other : OtherKept c s t
  env : EnvKept s t
  shared : SharedKept s t ∨ p

theorem EnvKept.trans (h : EnvKept s t) (k : EnvKept t u) : EnvKept s u := by
  obtain ⟨hcfg, hcount, hclock, hinputs⟩ := h
  obtain ⟨kcfg, kcount, kclock, kinputs⟩ := k
  exact ⟨kcfg.trans hcfg, kcount.trans hcount, kclock.trans hclock, kinputs.trans hinputs⟩

theorem SharedKept.refl (s : State) : SharedKept s s := ⟨⟨rfl, rfl, rfl, rfl⟩, rfl, rfl, rfl, rfl⟩

theorem SharedKept.trans (h : SharedKept s t) (k : SharedKept t u) : SharedKept s u := by
  obtain ⟨henv, hds, hrc, hdirty, htime⟩ := h
  obtain ⟨kenv, kds, krc, kdirty, ktime⟩ := k
  exact ⟨henv.trans kenv, kds.trans hds, krc.trans hrc, kdirty.trans hdirty, ktime.trans htime⟩

theorem RxKeeps.of_shared (htRx : (t.ch c).tRx = (s.ch c).tRx) (hother : OtherKept c s t) (hshared : SharedKept s t) :
    RxKeeps p c s t :=
  ⟨htRx, hother, hshared.1, .inl hshared⟩

theorem RxKeeps.refl (p : Prop) (c : Chan) (s : State) : RxKeeps p c s s :=
  .of_shared rfl (fun _ _ => rfl) (.refl s)

theorem RxKeeps.trans (h : RxKeeps p c s t) (k : RxKeeps p c t u) : RxKeeps p c s u where
  tRx := k.tRx.trans h.tRx
  other := fun d hd => (k.other d hd).trans (h.other d hd)
  env := h.env.trans k.env
  shared := by
    rcases h.shared with hshared | hp
    · exact k.shared.imp_left hshared.trans
    · exact .inr hp

theorem RxKeeps.mono (h : RxKeeps p c s t) (hpq : p → q) : RxKeeps q c s t :=
  { h with shared := h.shared.imp_right hpq }

theorem setCh_sharedKept (s : State) (c : Chan) (x : Channel) : SharedKept s (s.setCh c x) := by
  simp [SharedKept, EnvKept]

theorem setCh_otherKept (s : State) (c : Chan) (x : Channel) : OtherKept c s (s.setCh c x) :=
  fun _ hd => setCh_ch_other _ _ _ _ hd

theorem setCh_rxKeeps {x : Channel} (hx : x.tRx = (s.ch c).tRx := by rfl) : RxKeeps p c s (s.setCh c x) :=
  .of_shared (by rw [setCh_ch_self, hx]) (setCh_otherKept s c x) (setCh_sharedKept s c x)

theorem emit_rxKeeps (p : Prop) (c : Chan) (e : Event) (s : State) : RxKeeps p c s (emit e s) :=
  .of_shared (by rw [emit_ch]) (fun d _ => emit_ch e s d) ⟨⟨rfl, rfl, rfl, rfl⟩, rfl, rfl, rfl, rfl⟩

theorem raise_rxKeeps (p : Prop) (c : Chan) (k : ErrKind) (s : State) : RxKeeps p c s (raise c k s) :=
  (emit_rxKeeps ..).trans setCh_rxKeeps

/-! ### The decoder's rows -/

/-- A frame may write the shared registers, so its dispatch keeps no more than `p` says. -/
theorem dispatch_rxKeeps (hp : p) (c : Chan) (f : Frame) (now : Nat) (s : State) :
    Ensures (dispatch c f now s) (RxKeeps p c s) := by
  obtain ⟨t, hres, hkeeps⟩ := dispatch_next c f now s
  exact ⟨t, hres, hkeeps.tRx, hkeeps.other, ⟨hkeeps.cfg, hkeeps.nActive, hkeeps.clock, hkeeps.inputs⟩, .inr hp⟩

/-- The shortest frame has six bytes (R104). -/
theorem six_le_of_atNeed (h : atNeed s c = true) : 6 ≤ (s.ch c).n := by
  obtain ⟨_, hn⟩ := Bool.and_eq_true_iff.1 h
  rw [of_decide_eq_true hn, need, hdrLen]
  omega

/-- A byte completes a frame only behind a buffered header (R202). -/
theorem appendByte_rxKeeps (c : Chan) (v : Byte) (now : Nat) (s : State) :
    Ensures (appendByte c v now s) (RxKeeps (5 ≤ (s.ch c).n) c s) := by
  have hpushed : RxKeeps (5 ≤ (s.ch c).n) c s (pushByte c v s) := setCh_rxKeeps
  rcases appendByte_cases c v now s with ⟨_, hres⟩ | ⟨_, hres⟩ <;> rw [hres]
  · exact ensures_next.2 (raise_rxKeeps ..)
  · rcases checkComplete_cases c now (pushByte c v s) with ⟨_, hres⟩ | ⟨hneed, _, hres⟩ | ⟨_, _, hres⟩ <;> rw [hres]
    · exact ensures_next.2 hpushed
    · have hheader : 5 ≤ (s.ch c).n := by simpa using six_le_of_atNeed hneed
      exact (dispatch_rxKeeps hheader ..).mono fun t ht => hpushed.trans ht
    · exact ensures_next.2 (hpushed.trans (raise_rxKeeps ..))

/-- A flush dispatches only six bytes or more (R203). -/
theorem flushBestEffort_rxKeeps (c : Chan) (now : Nat) (s : State) :
    Ensures (flushBestEffort c now s) (RxKeeps (5 ≤ (s.ch c).n) c s) := by
  rcases flushBestEffort_cases c now s with ⟨_, hres⟩ | ⟨_, hlen, _, hres⟩ | ⟨_, _, _, hres⟩ <;> rw [hres]
  · exact ensures_next.2 (.refl ..)
  · exact dispatch_rxKeeps (by omega) ..
  · exact ensures_next.2 (emit_rxKeeps ..)

/-- Every byte-level row, whatever state selects it. -/
theorem runByte_rxKeeps (sel : ByteSel) (c : Chan) (b : Byte) (now : Nat) (s : State) :
    Ensures (runByte sel c b now s) (RxKeeps (5 ≤ (s.ch c).n) c s) := by
  cases sel with
  | hsMarker => exact ensures_next.2 (RxKeeps.trans setCh_rxKeeps setCh_rxKeeps)
  | hsNak | hsAck | hsSoh | hsNakRestart | decAmMarker | decAsStart | decAsOther | decIfMarker =>
    exact ensures_next.2 setCh_rxKeeps
  | hsOther | decAmOther | decAsMarker => exact ensures_next.2 (.refl ..)
  | decIfData => exact appendByte_rxKeeps ..
  | decEscMarker =>
    refine (appendByte_rxKeeps c markerByte now (setEsc c false s)).mono fun t ht => ?_
    exact RxKeeps.trans setCh_rxKeeps (ht.mono fun h => by simpa using h)
  | decEscEnd | decEscStart =>
    exact (flushBestEffort_rxKeeps c now s).andThen fun t ht => ensures_next.2 (ht.trans setCh_rxKeeps)
  | decEscOther => exact ensures_next.2 (raise_rxKeeps ..)

/-- In frame mode the shared registers are reached only inside a frame with a header buffered: between frames a byte only
moves the decoder (R191 to R195). -/
theorem decoderByte_rxKeeps (c : Chan) (b : Byte) (now : Nat) (s : State) :
    Ensures (decoderByte c b now s) (RxKeeps ((s.ch c).dec = .inFrame ∧ 5 ≤ (s.ch c).n) c s) := by
  cases hdec : (s.ch c).dec with
  | awaitMarker =>
    unfold decoderByte
    rw [hdec, selectDecoder]
    split
    · exact ensures_next.2 setCh_rxKeeps
    · exact ensures_next.2 (.refl ..)
  | awaitStart =>
    unfold decoderByte
    rw [hdec, selectDecoder]
    split_ifs
    · exact ensures_next.2 setCh_rxKeeps
    · exact ensures_next.2 (.refl ..)
    · exact ensures_next.2 setCh_rxKeeps
  | inFrame => exact (runByte_rxKeeps ..).mono fun t ht => ht.mono fun h => ⟨rfl, h⟩

/-! ### The sequencer's rows -/

theorem handshakeByte_rxKeeps (p : Prop) (c : Chan) (b : Byte) (now : Nat) (s : State) :
    Ensures (handshakeByte c b now s) (RxKeeps p c s) := by
  rcases handshakeByte_cases c b now s with hres | ⟨v, _, hres⟩ | hres <;> rw [hres, ensures_next]
  · exact RxKeeps.trans setCh_rxKeeps setCh_rxKeeps
  · exact setCh_rxKeeps
  · exact .refl ..

theorem settle_rxKeeps (p : Prop) (c : Chan) (now : Nat) (s : State) :
    Ensures (settle c now s) (RxKeeps p c s) := by
  rcases settle_cases c now s with ⟨_, _, hres⟩ | ⟨_, hres⟩ | ⟨_, hres⟩ | ⟨_, hres⟩ <;> rw [hres, ensures_next]
  · exact .refl ..
  · exact (emit_rxKeeps ..).trans setCh_rxKeeps
  · exact (emit_rxKeeps ..).trans setCh_rxKeeps
  · exact ((emit_rxKeeps ..).trans setCh_rxKeeps).trans setCh_rxKeeps

/-- Settling runs the transition without input that the sequencer waits for (R179). -/
theorem settle_of_decodeSpontaneous {i : Instr} (h : decodeSpontaneous (s.ch c).hs c now = some i) :
    settle c now s = exec i s := by
  cases hhs : (s.ch c).hs with
  | seenNak | gotAck1 | gotSoh =>
    rw [hhs] at h
    cases h
    simp only [settle, hhs]
    rfl
  | idle | sentSyn | sentAck2 | frameModeActive =>
    rw [hhs] at h
    cases h

theorem settle_of_no_spontaneous (h : decodeSpontaneous (s.ch c).hs c now = none) : settle c now s = .next s := by
  cases hhs : (s.ch c).hs with
  | seenNak | gotAck1 | gotSoh =>
    rw [hhs] at h
    cases h
  | idle | sentSyn | sentAck2 | frameModeActive => simp only [settle, hhs]

/-! ### The step -/

theorem execRx_of_inactive (b : Byte) (now : Nat) (hact : s.active c = false) : execRx c b now s = .next s := if_pos hact

theorem execRx_of_frameMode (b : Byte) (now : Nat) (hact : s.active c = true) (hhs : (s.ch c).hs = .frameModeActive) :
    execRx c b now s = decoderByte c b now (touchRx c now s) := by
  simp [execRx, hact, hhs]

theorem execRx_of_preFrame (b : Byte) (now : Nat) (hact : s.active c = true) (hhs : (s.ch c).hs ≠ .frameModeActive) :
    execRx c b now s = andThen (handshakeByte c b now (touchRx c now s)) (settle c now) := by
  simp [execRx, hact, hhs]

/-- In frame mode the decoder runs the row the byte decodes to (R33, R111). -/
theorem exec_decodeByte_of_frameMode (b : Byte) (now : Nat) (hhs : (s.ch c).hs = .frameModeActive) :
    exec (decodeByte (s.ctx c) c b now) (touchRx c now s) = decoderByte c b now (touchRx c now s) := by
  rw [decodeByte, selectByte_of_frameMode (cx := s.ctx c) hhs, ← runByte_eq_exec, decoderByte, touchRx_ch_self]
  rfl

/-- Before frame mode the sequencer runs it (R33, R110). -/
theorem exec_decodeByte_of_preFrame (b : Byte) (now : Nat) (hhs : (s.ch c).hs ≠ .frameModeActive) :
    exec (decodeByte (s.ctx c) c b now) (touchRx c now s) = handshakeByte c b now (touchRx c now s) := by
  rw [decodeByte, selectByte_of_preFrame (cx := s.ctx c) hhs, ← runByte_eq_exec, handshakeByte, touchRx_ch_self,
    touchRx_cfg]
  rfl

/-- What an `RX` on an active channel keeps once it has written `t_rx`. -/
theorem execRx_rxKeeps (b : Byte) (now : Nat) (hact : s.active c = true) :
    Ensures (execRx c b now s) (RxKeeps
      ((s.ch c).hs = .frameModeActive ∧ (s.ch c).dec = .inFrame ∧ 5 ≤ (s.ch c).n) c (touchRx c now s)) := by
  by_cases hhs : (s.ch c).hs = .frameModeActive
  · rw [execRx_of_frameMode b now hact hhs]
    exact (decoderByte_rxKeeps ..).mono fun t ht => ht.mono fun h => ⟨hhs, by simpa using h⟩
  · rw [execRx_of_preFrame b now hact hhs]
    exact (handshakeByte_rxKeeps ..).andThen fun u hu => (settle_rxKeeps ..).mono fun t ht => hu.trans ht

/-- `t_rx` aside, an `RX` on an active channel keeps the same of the state it started from. -/
theorem execRx_frame (hact : s.active c = true) (hrun : execRx c b now s = .next t) :
    (t.ch c).tRx = now ∧ OtherKept c s t ∧ EnvKept s t
      ∧ (SharedKept s t ∨ (s.ch c).hs = .frameModeActive ∧ (s.ch c).dec = .inFrame ∧ 5 ≤ (s.ch c).n) := by
  obtain ⟨htRx, hother, henv, hshared⟩ := (execRx_rxKeeps b now hact).of_eq_next hrun
  have htouched : SharedKept s (touchRx c now s) := setCh_sharedKept ..
  exact ⟨by simpa using htRx, fun d hd => (hother d hd).trans (touchRx_ch_other _ _ _ _ hd),
    htouched.1.trans henv, hshared.imp_left htouched.trans⟩

/-! ### The statements -/

/-- Settles O49: a channel at or above the active count is not active. -/
theorem inactiveChannelDiscards : Obligations.InactiveChannelDiscards := by
  intro c b now s hidx
  exact execRx_of_inactive b now (decide_eq_false (Nat.not_lt.2 hidx))

/-- Settles O50: in frame mode the decoder's row is the whole step; before it the sequencer's row comes first, then the
transition its state waits for. -/
theorem rxRunsDecodedByte : Obligations.RxRunsDecodedByte := by
  intro c b now s hact
  obtain ⟨t, hrun, -⟩ := execRx_rxKeeps b now hact
  obtain ⟨htRx, hother, henv, -⟩ := execRx_frame hact hrun
  by_cases hhs : (s.ch c).hs = .frameModeActive
  · have hdecoded := (exec_decodeByte_of_frameMode b now hhs).trans
      ((execRx_of_frameMode b now hact hhs).symm.trans hrun)
    exact ⟨t, t, hdecoded, hrun, htRx, hother, henv, by rw [if_pos hhs]⟩
  · obtain ⟨u, hbyte, -⟩ := handshakeByte_rxKeeps True c b now (touchRx c now s)
    have hsettle : settle c now u = .next t := by
      rw [execRx_of_preFrame b now hact hhs, hbyte] at hrun
      exact hrun
    refine ⟨u, t, (exec_decodeByte_of_preFrame b now hhs).trans hbyte, hrun, htRx, hother, henv, ?_⟩
    rw [if_neg hhs]
    split
    next i hi => exact (settle_of_decodeSpontaneous hi).symm.trans hsettle
    next hnone =>
      rw [settle_of_no_spontaneous hnone] at hsettle
      cases hsettle
      rfl

/-- Settles O58: an inactive channel's byte changes nothing, an active one's keeps what `execRx_frame` says. -/
theorem channelIsolation : Obligations.ChannelIsolation := by
  intro c d b now s t hrun
  cases hact : s.active c with
  | false =>
    obtain rfl : s = t := by injection (execRx_of_inactive b now hact).symm.trans hrun
    exact ⟨fun _ => rfl, (SharedKept.refl s).1, fun _ => .refl s, .inl ⟨rfl, rfl, rfl, rfl⟩⟩
  | true =>
    obtain ⟨-, hother, henv, hshared⟩ := execRx_frame hact hrun
    refine ⟨hother d, henv, fun hpre => hshared.resolve_right fun ⟨hhs, _⟩ => ?_, ?_⟩
    · exact hpre.elim nofun (absurd hhs)
    · rcases hshared with ⟨_, hds, hrc, hdirty, htime⟩ | ⟨_, hframe⟩
      · exact .inl ⟨hds.symm, hrc.symm, hdirty.symm, htime.symm⟩
      · exact .inr hframe

end Sys2Proof.Machine
end

