-- ==== Sys2Proof/Proofs/Framer.lean ====
section
/-! The Framer's laws (R150 to R154): the seedless sum is additive, so the checksum is too up to one seed; stuffing maps a
concatenation to the concatenation. -/

namespace Sys2Proof

/-! ### The checksum (R150, R151, R154) -/

theorem xorBytes_append (s t : List Byte) : xorBytes (s ++ t) = xorBytes s ^^^ xorBytes t := by
  induction t using List.reverseRecOn with
  | nil => simp
  | append_singleton t b ih => rw [← List.append_assoc, xorBytes_snoc, ih, xorBytes_snoc, BitVec.xor_assoc]

theorem xorBytes_singleton (b : Byte) : xorBytes [b] = b := by simp [xorBytes]

theorem xorBytes_eq_of_perm {s t : List Byte} (h : s.Perm t) : xorBytes s = xorBytes t :=
  h.foldl_eq' (fun x _ y _ acc => by rw [BitVec.xor_assoc, BitVec.xor_comm x y, BitVec.xor_assoc]) 0#8

/-- Both parts carry the seed, the whole carries it once. -/
theorem checksum_append (s t : List Byte) : checksum (s ++ t) = checksum s ^^^ checksum t ^^^ ckSeed := by
  simp only [checksum_eq_xorBytes, xorBytes_append]
  generalize xorBytes s = x
  generalize xorBytes t = y
  calc ckSeed ^^^ (x ^^^ y)
      = ckSeed ^^^ x ^^^ y ^^^ (ckSeed ^^^ ckSeed) := by rw [BitVec.xor_self, BitVec.xor_zero, BitVec.xor_assoc]
    _ = ckSeed ^^^ x ^^^ (ckSeed ^^^ y) ^^^ ckSeed := by ac_rfl

theorem xorBytes_concat_checksum (s : List Byte) : xorBytes (s ++ [checksum s]) = ckSeed := by
  rw [xorBytes_snoc, checksum_eq_xorBytes, BitVec.xor_comm ckSeed, ← BitVec.xor_assoc, BitVec.xor_self,
    BitVec.zero_xor]

theorem checksum_concat_checksum (s : List Byte) : checksum (s ++ [checksum s]) = 0#8 := by
  rw [checksum_eq_xorBytes, xorBytes_concat_checksum, BitVec.xor_self]

/-- R151's verifier agrees with R154's: moving the last byte across the equation moves the seed the other way. -/
theorem verifyBySeed_eq_verify (s : List Byte) : verifyBySeed s = verify s := by
  induction s using List.reverseRecOn with
  | nil => rfl
  | append_singleton s k =>
    rw [Bool.eq_iff_iff, verify_concat, verifyBySeed, beq_iff_eq, xorBytes_snoc, checksum_eq_xorBytes]
    constructor
    · intro h
      rw [← h, BitVec.xor_comm, ← BitVec.xor_assoc, BitVec.xor_self, BitVec.zero_xor]
    · rintro rfl
      rw [BitVec.xor_comm ckSeed, ← BitVec.xor_assoc, BitVec.xor_self, BitVec.zero_xor]

/-- A change of one byte is the same change of the checksum. -/
theorem checksum_change (s t : List Byte) (b m : Byte) :
    checksum (s ++ [b ^^^ m] ++ t) = checksum (s ++ [b] ++ t) ^^^ m := by
  simp only [checksum_eq_xorBytes, xorBytes_append, xorBytes_singleton]
  ac_rfl

/-- `verify` detects every change of one byte before the checksum. -/
theorem verify_change {s t : List Byte} {b m k : Byte} (hm : m ≠ 0#8)
    (h : verify (s ++ [b] ++ t ++ [k]) = true) : verify (s ++ [b ^^^ m] ++ t ++ [k]) = false := by
  rw [verify_concat] at h
  rw [Bool.eq_false_iff, Ne, verify_concat, checksum_change, h]
  intro hk
  have hcancel : k ^^^ (k ^^^ m) = k ^^^ k := by rw [hk]
  rw [← BitVec.xor_assoc, BitVec.xor_self, BitVec.zero_xor] at hcancel
  exact hm hcancel

/-- Settles O4: each law follows from the additivity of the seedless sum. -/
theorem checksumLaws : Obligations.ChecksumLaws := by
  refine ⟨checksum_append, xorBytes_concat_checksum, checksum_concat_checksum, verifyBySeed_eq_verify, ?_,
    checksum_change, fun s t b m k => verify_change⟩
  intro s t hperm
  rw [checksum_eq_xorBytes, checksum_eq_xorBytes, xorBytes_eq_of_perm hperm]

/-! ### Stuffing (R152) -/

theorem stuff_singleton (b : Byte) : stuff [b] = if b = markerByte then [b, b] else [b] := rfl

theorem stuff_append (s t : List Byte) : stuff (s ++ t) = stuff s ++ stuff t := by
  induction s with
  | nil => rfl
  | cons b s ih =>
    by_cases hb : b = markerByte
    · subst hb
      simp [stuff_marker, ih]
    · simp [stuff_other _ _ hb, ih]

theorem stuff_cons (b : Byte) (s : List Byte) : stuff (b :: s) = stuff [b] ++ stuff s := stuff_append [b] s

theorem stuff_length (s : List Byte) : (stuff s).length = s.length + s.count markerByte := by
  induction s with
  | nil => rfl
  | cons b s ih =>
    by_cases hb : b = markerByte
    · subst hb
      rw [stuff_marker, List.length_cons, List.length_cons, ih, List.length_cons, List.count_cons_self]
      omega
    · rw [stuff_other _ _ hb, List.length_cons, ih, List.length_cons, List.count_cons_of_ne hb]
      omega

theorem head?_stuff (s : List Byte) : (stuff s).head? = s.head? := by
  cases s with
  | nil => rfl
  | cons b s =>
    by_cases hb : b = markerByte
    · subst hb
      rw [stuff_marker]
      rfl
    · rw [stuff_other _ _ hb]
      rfl

theorem stuff_eq_nil_iff {s : List Byte} : stuff s = [] ↔ s = [] := by
  rw [← List.head?_eq_none_iff, head?_stuff, List.head?_eq_none_iff]

/-- The first bytes agree, are stuffed alike, and so may be cut off both outputs. -/
theorem stuff_injective : Function.Injective stuff := by
  intro s t h
  induction s generalizing t with
  | nil => exact (stuff_eq_nil_iff.1 h.symm).symm
  | cons b s ih =>
    have hhead : t.head? = some b := by rw [← head?_stuff, ← h, head?_stuff, List.head?_cons]
    obtain ⟨rest, rfl⟩ := List.head?_eq_some_iff.1 hhead
    rw [stuff_cons, stuff_cons b rest] at h
    rw [ih (List.append_cancel_left h)]

/-- Settles O5: each law by induction on the bytes. -/
theorem stuffLaws : Obligations.StuffLaws :=
  ⟨stuff_nil, stuff_append, stuff_singleton, stuff_length, fun _ _ h => stuff_injective h⟩

end Sys2Proof
end

