-- ==== Sys2Proof/Proofs/DecoderRows.lean ====
section
/-! What the decoder does with a byte received in frame mode, row by row (R111, R190 to R199), and runs of received bytes. -/

namespace Sys2Proof.Machine

variable {s t : State} {c : Chan} {b : Byte} {now : Nat}

/-! ### The active channels, under the decoder's register writes -/

@[simp] theorem touchRx_active (c d : Chan) (now : Nat) (s : State) : (touchRx c now s).active d = s.active d :=
  setCh_active ..

@[simp] theorem setDec_active (c d : Chan) (v : DecState) (s : State) : (setDec c v s).active d = s.active d :=
  setCh_active ..

@[simp] theorem setEsc_active (c d : Chan) (v : Bool) (s : State) : (setEsc c v s).active d = s.active d :=
  setCh_active ..

/-! ### Runs of received bytes (R140) -/

theorem rxAll_cons (c : Chan) (b : Byte) (now : Nat) (y : List (Byte × Nat)) (s : State) :
    rxAll c ((b, now) :: y) s = andThen (execRx c b now s) (rxAll c y) := rfl

theorem rxAll_append (c : Chan) (x y : List (Byte × Nat)) (s : State) :
    rxAll c (x ++ y) s = andThen (rxAll c x s) (rxAll c y) := by
  induction x generalizing s with
  | nil => rfl
  | cons p x ih =>
    obtain ⟨b, now⟩ := p
    rw [List.cons_append, rxAll_cons, rxAll_cons]
    cases execRx c b now s with
    | next u => exact ih u
    | fault e => rfl
    | refused e => rfl

theorem andThen_rxAll_nil (r : Res) (c : Chan) : andThen r (rxAll c []) = r := by cases r <;> rfl

/-! ### One received byte -/

section
variable (hact : s.active c = true) (hhs : (s.ch c).hs = .frameModeActive)
include hact hhs

/-- R191: outside a frame a marker byte is waited for. -/
theorem execRx_awaitMarker_marker (now : Nat) (hdec : (s.ch c).dec = .awaitMarker) :
    execRx c markerByte now s = .next (setDec c .awaitStart (touchRx c now s)) := by
  simp [execRx_of_frameMode _ now hact hhs, decoderByte, selectDecoder, hdec, runByte, execDecAmMarker]

/-- R193. -/
theorem execRx_awaitStart_start (now : Nat) (hdec : (s.ch c).dec = .awaitStart) :
    execRx c startByte now s = .next (freshFrame c (touchRx c now s)) := by
  simp [execRx_of_frameMode _ now hact hhs, decoderByte, selectDecoder, hdec, runByte, execDecAsStart]

section
variable (hdec : (s.ch c).dec = .inFrame)
include hdec

/-- R196: a marker byte inside a frame escapes the next byte. -/
theorem execRx_inFrame_marker (now : Nat) (hesc : (s.ch c).esc = false) :
    execRx c markerByte now s = .next (setEsc c true (touchRx c now s)) := by
  simp [execRx_of_frameMode _ now hact hhs, decoderByte, selectDecoder, hdec, hesc, runByte, execDecIfMarker]

/-- R204. -/
theorem execRx_inFrame_data (now : Nat) (hesc : (s.ch c).esc = false) (hb : b ≠ markerByte) :
    execRx c b now s = appendByte c b now (touchRx c now s) := by
  simp [execRx_of_frameMode _ now hact hhs, decoderByte, selectDecoder, hdec, hesc, hb, runByte, execDecIfData]

/-- R197: an escaped marker byte is one literal 0x10. -/
theorem execRx_escaped_marker (now : Nat) (hesc : (s.ch c).esc = true) :
    execRx c markerByte now s = appendByte c markerByte now (setEsc c false (touchRx c now s)) := by
  simp [execRx_of_frameMode _ now hact hhs, decoderByte, selectDecoder, hdec, hesc, runByte, execDecEscMarker]

/-- R198. -/
theorem execRx_escaped_end (now : Nat) (hesc : (s.ch c).esc = true) :
    execRx c endByte now s
      = andThen (flushBestEffort c now (touchRx c now s)) (fun u => .next (resync c u)) := by
  simp [execRx_of_frameMode _ now hact hhs, decoderByte, selectDecoder, hdec, hesc, runByte, execDecEscEnd]

end

end

/-! ### The complete frame (R28) -/

theorem complete_iff : complete s c = true ↔ (s.ch c).dec = .inFrame ∧ 5 ≤ (s.ch c).n ∧ need s c ≤ (s.ch c).n := by
  simp [complete, and_assoc]

/-- Completeness is about the decoder's registers and the buffer alone. -/
theorem complete_congr (hdec : (t.ch c).dec = (s.ch c).dec) (hn : (t.ch c).n = (s.ch c).n)
    (hbuf : (t.ch c).buf = (s.ch c).buf) : complete t c = complete s c := by
  simp [complete, need, bufByte, hdec, hn, hbuf]

/-- A frame with exactly the bytes it declares is complete (R202, R28). -/
theorem complete_of_atNeed (hdec : (s.ch c).dec = .inFrame) (h : atNeed s c = true) : complete s c = true := by
  obtain ⟨hheader, hneed⟩ := Bool.and_eq_true_iff.1 h
  exact complete_iff.2 ⟨hdec, of_decide_eq_true hheader, (of_decide_eq_true hneed).ge⟩

/-- R203: a frame that was complete has been dispatched and is not dispatched again. -/
theorem flushBestEffort_of_complete (now : Nat) (h : complete s c = true) : flushBestEffort c now s = .next s := if_pos h

/-- R198 on a complete frame: the end delimiter only resynchronises. -/
theorem rxAll_endDelimiter_of_complete (t1 t2 : Nat) (hact : s.active c = true)
    (hhs : (s.ch c).hs = .frameModeActive) (hesc : (s.ch c).esc = false) (h : complete s c = true) :
    rxAll c [(markerByte, t1), (endByte, t2)] s
      = .next (s.setCh c { s.ch c with tRx := t2, dec := .awaitMarker, esc := false, n := 0 }) := by
  have hdec := (complete_iff.1 h).1
  have hescaped : complete (touchRx c t2 (setEsc c true (touchRx c t1 s))) c = true := by
    rw [complete_congr (s := s) (by simp) (by simp) (by simp), h]
  rw [rxAll_cons, execRx_inFrame_marker hact hhs hdec t1 hesc, andThen_next, rxAll_cons,
    execRx_escaped_end (by simpa using hact) (by simpa using hhs) (by simpa using hdec) t2 (by simp),
    flushBestEffort_of_complete t2 hescaped]
  simp [rxAll, resync, touchRx, setEsc]

end Sys2Proof.Machine
end

