-- ==== Sys2Proof/Proofs/DispatchEvents.lean ====
section
/-! The events of a dispatched frame (R8, R380): the three conditions are the decoder's, so no frame-level row reports. -/

namespace Sys2Proof.Machine

variable {s t u : State}

/-- Events were only appended, and none of them is a report. -/
def Unreported (s t : State) : Prop := ∃ evs, t.events = s.events ++ evs ∧ ∀ d k, Event.report d k ∉ evs

theorem Unreported.of_events_eq (h : t.events = s.events) : Unreported s t :=
  ⟨[], by rw [h, List.append_nil], fun _ _ => List.not_mem_nil⟩

theorem Unreported.refl (s : State) : Unreported s s := .of_events_eq rfl

theorem Unreported.trans (h : Unreported s t) (k : Unreported t u) : Unreported s u := by
  obtain ⟨evs, hevs, hnone⟩ := h
  obtain ⟨later, hlater, hnone'⟩ := k
  refine ⟨evs ++ later, by rw [hlater, hevs, List.append_assoc], fun d e hmem => ?_⟩
  rcases List.mem_append.1 hmem with hmem | hmem
  · exact hnone d e hmem
  · exact hnone' d e hmem

theorem emit_unreported {e : Event} (s : State) (he : ∀ d k, e ≠ .report d k) : Unreported s (emit e s) :=
  ⟨[e], rfl, fun d k hmem => he d k (List.mem_singleton.1 hmem).symm⟩

theorem setCh_unreported (s : State) (c : Chan) (x : Channel) : Unreported s (s.setCh c x) :=
  .of_events_eq (setCh_events s c x)

theorem reply_unreported (c : Chan) (dst fid ctl : Byte) (data : List Byte) (now : Nat) (s : State) :
    Unreported s (reply c dst fid ctl data now s) :=
  (emit_unreported (e := .tx ..) s nofun).trans (setCh_unreported ..)

theorem adoptAddress_unreported (c : Chan) (dst : Byte) (s : State) : Unreported s (adoptAddress c dst s) := by
  unfold adoptAddress
  split
  · exact (setCh_unreported ..).trans (emit_unreported _ nofun)
  · exact .refl s

theorem storeIdentity_unreported (c : Chan) (data : List Byte) (s : State) : Unreported s (storeIdentity c data s) :=
  (setCh_unreported ..).trans (emit_unreported _ nofun)

theorem setRelay_unreported (v : Bool) (s : State) : Unreported s (setRelay v s) := by
  unfold setRelay
  split
  · exact .refl s
  · exact (Unreported.of_events_eq rfl).trans (emit_unreported _ nofun)

/-- A write sends its relay change, if any, before the acknowledge (R265). -/
theorem tableWrite_unreported (n : WName) (h : Hdr) (v : Nat) (s : State) : Unreported s (tableWrite n h v s) := by
  have hwritten : Unreported s (writeField n v h.c h.now s) := by
    unfold writeField relayDrive
    split
    · split
      · exact (Unreported.of_events_eq rfl).trans (setRelay_unreported ..)
      · exact .of_events_eq (workOff_events ..)
    · exact .of_events_eq rfl
  exact (hwritten.trans (reply_unreported ..)).trans (.of_events_eq rfl)

theorem runFrame_unreported (sel : FrameSel) (h : Hdr) (data : List Byte) (s : State) :
    Ensures (runFrame sel h data s) (Unreported s) := by
  cases sel with
  | hs =>
    exact ensures_next.2 (((adoptAddress_unreported ..).trans (setCh_unreported ..)).trans (reply_unreported ..))
  | notForUs | unknown => exact ensures_next.2 (.refl s)
  | fwId | idRead => exact ensures_next.2 ((reply_unreported ..).trans (setCh_unreported ..))
  | write w =>
    cases w with
    | identity => exact ensures_next.2 ((storeIdentity_unreported ..).trans (reply_unreported ..))
    | fwNop => exact ensures_next.2 (reply_unreported ..)
    | entry n k => exact ⟨_, runWrite_eq n h _ (valueAt_lt n k data) s, tableWrite_unreported ..⟩
  | read n k => exact ⟨_, runRead_eq n h _ s, reply_unreported ..⟩

theorem dispatch_unreported (c : Chan) (f : Frame) (now : Nat) (s : State) :
    Ensures (dispatch c f now s) (Unreported s) :=
  (runFrame_unreported _ (f.hdr c now) f.data _).mono fun _ ht =>
    (Unreported.of_events_eq (touchFor_events c f now s)).trans ht

end Sys2Proof.Machine
end

