-- ==== Sys2Proof/Proofs/WireRoundTrip.lean ====
section
/-! R157: receiving an encoded frame. The decoder's state inside the frame is `withBuffer` of the unstuffed bytes so far
(R200); each byte's stuffing extends them by that byte, and the completion test fires at the last one only. -/

namespace Sys2Proof

/-- A frame with its checksum byte (R103). -/
abbrev Frame.bytes (f : Frame) : List Byte := frameBytes f.src f.dst f.fid f.ctl f.data

theorem Frame.bytes_length (f : Frame) : f.bytes.length = 6 + f.data.length := frameBytes_length ..

/-- The decoder reads an encoded frame as the frame it encodes. -/
theorem Frame.bytes_read {f : Frame} (hdata : f.data.length ≤ 255) : verify f.bytes = true ∧ frameOf f.bytes = f := by
  have hparse := parseFrame_eq_ok_iff.2 ⟨hdata, rfl⟩
  unfold parseFrame at hparse
  split_ifs at hparse with _ _ hverify
  exact ⟨Bool.not_eq_false _ ▸ hverify, Except.ok.inj hparse⟩

/-- The length byte is the fifth byte of every long enough piece of a frame. -/
theorem Frame.bytes_piece_getD {f : Frame} {x rest : List Byte} (hx : 5 ≤ x.length) (h : x ++ rest = f.bytes) :
    x.getD 4 0 = lengthByte f.data.length := by
  have hwhole : (x ++ rest).getD 4 0 = lengthByte f.data.length := by rw [h]; rfl
  rwa [List.getD_append _ _ _ _ (by omega)] at hwhole

end Sys2Proof

namespace Sys2Proof.Machine

variable {s t u : State} {c : Chan} {now : Nat} {x : List Byte} {f : Frame}

/-! ### A channel inside a frame -/

@[simp] theorem withBuffer_ch_self (c : Chan) (x : List Byte) (now : Nat) (s : State) :
    (withBuffer c x now s).ch c = { s.ch c with
      dec := .inFrame, esc := false, tRx := now, buf := Memory.writeBytes (s.ch c).buf 0 x, n := x.length } :=
  setCh_ch_self ..

@[simp] theorem withBuffer_cfg (c : Chan) (x : List Byte) (now : Nat) (s : State) :
    (withBuffer c x now s).cfg = s.cfg := setCh_cfg ..

@[simp] theorem withBuffer_active (c d : Chan) (x : List Byte) (now : Nat) (s : State) :
    (withBuffer c x now s).active d = s.active d := setCh_active ..

@[simp] theorem withBuffer_nActive (c : Chan) (x : List Byte) (now : Nat) (s : State) :
    (withBuffer c x now s).nActive = s.nActive := setCh_nActive ..

@[simp] theorem withBuffer_events (c : Chan) (x : List Byte) (now : Nat) (s : State) :
    (withBuffer c x now s).events = s.events := setCh_events ..

theorem Memory.writeBytes_concat (x : List Byte) (m : Memory) (a : Nat) (b : Byte) :
    Memory.writeBytes m a (x ++ [b]) = Memory.write (Memory.writeBytes m a x) (a + x.length) b := by
  induction x generalizing m a with
  | nil => rfl
  | cons b' x ih =>
    rw [List.cons_append, Memory.writeBytes, ih, Memory.writeBytes, List.length_cons, Nat.add_right_comm, Nat.add_assoc]

/-- One more byte buffered (R200). -/
theorem pushByte_withBuffer (c : Chan) (x : List Byte) (b : Byte) (now : Nat) (s : State) :
    pushByte c b (withBuffer c x now s) = withBuffer c (x ++ [b]) now s := by
  rw [pushByte, withBuffer_ch_self]
  simp [withBuffer, Memory.writeBytes_concat]

/-- A byte that fits is buffered and tested for completion (R200). -/
theorem appendByte_withBuffer {b : Byte} (hn : x.length < s.cfg.bufCap) :
    appendByte c b now (withBuffer c x now s) = checkComplete c now (withBuffer c (x ++ [b]) now s) := by
  rw [appendByte, if_neg (by simpa using hn), pushByte_withBuffer]

theorem touchRx_withBuffer (c : Chan) (x : List Byte) (t now : Nat) (s : State) :
    touchRx c now (withBuffer c x t s) = withBuffer c x now s := by
  simp [touchRx, withBuffer]

theorem bufBytes_withBuffer (x : List Byte) (now : Nat) (hbuf : Memory.wf (s.ch c).buf = true) :
    bufBytes (withBuffer c x now s) c = x := by
  rw [bufBytes, withBuffer_ch_self]
  exact Memory.readBytes_writeBytes x _ 0 hbuf

/-- The frame declares the size that its buffered length byte counts (R28). -/
theorem need_withBuffer (now : Nat) (hbuf : Memory.wf (s.ch c).buf = true) (hx : 5 ≤ x.length) :
    need (withBuffer c x now s) c = 6 + (x.getD 4 0).toNat := by
  have hread := Memory.read_writeBytes x (s.ch c).buf 0 4 hbuf
  rw [if_pos (by omega)] at hread
  rw [need, bufByte, withBuffer_ch_self]
  simp only [hread, hdrLen, Nat.sub_zero]
  omega

theorem atNeed_withBuffer_iff (now : Nat) (hbuf : Memory.wf (s.ch c).buf = true) :
    atNeed (withBuffer c x now s) c = true ↔ 5 ≤ x.length ∧ x.length = 6 + (x.getD 4 0).toNat := by
  rw [atNeed, Bool.and_eq_true, decide_eq_true_eq, decide_eq_true_eq, withBuffer_ch_self]
  exact and_congr_right fun hx => by rw [need_withBuffer now hbuf hx]

/-! ### The completion test inside one frame -/

/-- Before its last byte a frame does not have the size it declares (R202). -/
theorem checkComplete_of_unfinished {rest : List Byte} (now : Nat) (hbuf : Memory.wf (s.ch c).buf = true)
    (hdata : f.data.length ≤ 255) (h : x ++ rest = f.bytes) (hrest : rest ≠ []) :
    checkComplete c now (withBuffer c x now s) = .next (withBuffer c x now s) := by
  have hlength := congrArg List.length h
  rw [List.length_append, f.bytes_length] at hlength
  have hpos := List.length_pos_iff.2 hrest
  rw [checkComplete, if_neg]
  rw [atNeed_withBuffer_iff now hbuf]
  rintro ⟨hx, hneed⟩
  rw [Frame.bytes_piece_getD hx h, lengthByte_toNat _ hdata] at hneed
  omega

theorem atNeed_frameBytes (now : Nat) (hbuf : Memory.wf (s.ch c).buf = true) (hdata : f.data.length ≤ 255) :
    atNeed (withBuffer c f.bytes now s) c = true := by
  have hlength := f.bytes_length
  have hcount := Frame.bytes_piece_getD (x := f.bytes) (by omega) (List.append_nil _)
  rw [atNeed_withBuffer_iff now hbuf, hcount, lengthByte_toNat _ hdata]
  omega

/-- At its last byte it has, and verifies: it is dispatched (R202). -/
theorem checkComplete_frameBytes (now : Nat) (hbuf : Memory.wf (s.ch c).buf = true) (hdata : f.data.length ≤ 255) :
    checkComplete c now (withBuffer c f.bytes now s)
      = dispatch c f now (withBuffer c f.bytes now s) := by
  obtain ⟨hverify, hread⟩ := Frame.bytes_read hdata
  rw [checkComplete, if_pos (atNeed_frameBytes now hbuf hdata), bufBytes_withBuffer _ now hbuf, if_pos hverify, hread]

/-! ### Receiving the frame -/

theorem ne_nil_of_map_eq_stuff {y : List (Byte × Nat)} (hy : y.map (·.1) = stuff x) (hx : x ≠ []) : y ≠ [] := by
  rintro rfl
  exact hx (stuff_eq_nil_iff.1 hy.symm)

section
variable (hact : s.active c = true) (hhs : (s.ch c).hs = .frameModeActive)
include hact hhs

/-- The start delimiter opens an empty frame (R191, R193). -/
theorem rxAll_startDelimiter (t1 t2 : Nat) (hdec : (s.ch c).dec = .awaitMarker) :
    rxAll c [(markerByte, t1), (startByte, t2)] s = .next (withBuffer c [] t2 s) := by
  rw [rxAll_cons, execRx_awaitMarker_marker hact hhs t1 hdec, andThen_next, rxAll_cons,
    execRx_awaitStart_start (by simpa using hact) (by simpa using hhs) t2 (by simp)]
  simp [rxAll, freshFrame, touchRx, setDec, withBuffer, Memory.writeBytes]

section
variable {y : List (Byte × Nat)} {b : Byte} (hn : x.length < s.cfg.bufCap)
include hn

/-- A literal 0x10 arrives as two marker bytes (R196, R197). -/
theorem rxAll_literal_marker (t0 t1 : Nat) :
    rxAll c [(markerByte, t1), (markerByte, now)] (withBuffer c x t0 s)
      = checkComplete c now (withBuffer c (x ++ [markerByte]) now s) := by
  have hunescape : setEsc c false (touchRx c now (setEsc c true (touchRx c t1 (withBuffer c x t0 s))))
      = withBuffer c x now s := by
    simp [setEsc, touchRx, withBuffer]
  rw [rxAll_cons, execRx_inFrame_marker (by simpa using hact) (by simpa using hhs) (by simp) t1 (by simp), andThen_next,
    rxAll_cons, execRx_escaped_marker (by simpa using hact) (by simpa using hhs) (by simp) now (by simp), hunescape,
    appendByte_withBuffer hn, andThen_rxAll_nil]

/-- Any other byte arrives as it is (R204). -/
theorem rxAll_literal_data (t0 : Nat) (hb : b ≠ markerByte) :
    rxAll c [(b, now)] (withBuffer c x t0 s) = checkComplete c now (withBuffer c (x ++ [b]) now s) := by
  rw [rxAll_cons, execRx_inFrame_data (by simpa using hact) (by simpa using hhs) (by simp) now (by simp) hb,
    touchRx_withBuffer, appendByte_withBuffer hn, andThen_rxAll_nil]

/-- A byte that fits, stuffed on the wire, is buffered once, at the time of its last wire byte, and tested for completion. -/
theorem rxAll_stuffed_byte (t0 : Nat) (hy : y.map (·.1) = stuff [b]) (hlast : y.getLast?.map (·.2) = some now) :
    rxAll c y (withBuffer c x t0 s) = checkComplete c now (withBuffer c (x ++ [b]) now s) := by
  rw [stuff_singleton] at hy
  split_ifs at hy with hb
  · subst hb
    obtain ⟨⟨b1, t1⟩, y, rfl, rfl, hy'⟩ := List.map_eq_cons_iff.1 hy
    obtain ⟨⟨b2, t2⟩, rfl, rfl⟩ := List.map_eq_singleton_iff.1 hy'
    obtain rfl : t2 = now := by simpa using hlast
    exact rxAll_literal_marker hact hhs hn t0 t1
  · obtain ⟨⟨b1, t1⟩, rfl, rfl⟩ := List.map_eq_singleton_iff.1 hy
    obtain rfl : t1 = now := by simpa using hlast
    exact rxAll_literal_data hact hhs hn t0 hb

end

/-- From a piece of a frame buffered, the rest of it, stuffed on the wire, dispatches the whole frame at its last byte: by
induction on the bytes still to come. -/
theorem rxAll_stuffed_rest (hbuf : Memory.wf (s.ch c).buf = true) (hdata : f.data.length ≤ 255)
    (hcap : 6 + f.data.length ≤ s.cfg.bufCap) {rest : List Byte} {y : List (Byte × Nat)} (t0 : Nat)
    (h : x ++ rest = f.bytes) (hrest : rest ≠ []) (hy : y.map (·.1) = stuff rest)
    (hlast : y.getLast?.map (·.2) = some now) :
    rxAll c y (withBuffer c x t0 s) = dispatch c f now (withBuffer c f.bytes now s) := by
  induction rest generalizing x y t0 with
  | nil => exact absurd rfl hrest
  | cons b rest ih =>
    have hn : x.length < s.cfg.bufCap := by
      have hlength := congrArg List.length h
      rw [List.length_append, List.length_cons, f.bytes_length] at hlength
      omega
    have hnext : (x ++ [b]) ++ rest = f.bytes := by rw [← h, List.append_assoc, List.singleton_append]
    by_cases hend : rest = []
    · subst hend
      rw [List.append_nil] at hnext
      rw [rxAll_stuffed_byte hact hhs hn t0 hy hlast, hnext, checkComplete_frameBytes now hbuf hdata]
    · rw [stuff_cons] at hy
      obtain ⟨y1, y2, rfl, hy1, hy2⟩ := List.map_eq_append_iff.1 hy
      have hfirst : y1 ≠ [] := ne_nil_of_map_eq_stuff hy1 (List.cons_ne_nil b [])
      have hrest' : y2 ≠ [] := ne_nil_of_map_eq_stuff hy2 hend
      obtain ⟨t1, ht1⟩ : ∃ t1, y1.getLast?.map (·.2) = some t1 := ⟨_, by rw [List.getLast?_eq_some_getLast hfirst]; rfl⟩
      rw [List.getLast?_append_of_ne_nil _ hrest'] at hlast
      rw [rxAll_append, rxAll_stuffed_byte hact hhs hn t0 hy1 ht1,
        checkComplete_of_unfinished t1 hbuf hdata hnext hend, andThen_next]
      exact ih t1 hnext hend hy2 hlast

/-- Start delimiter and stuffed frame dispatch the frame at its checksum byte. -/
theorem rxAll_frame (hdec : (s.ch c).dec = .awaitMarker) (hbuf : Memory.wf (s.ch c).buf = true)
    (hdata : f.data.length ≤ 255) (hcap : 6 + f.data.length ≤ s.cfg.bufCap) {y : List (Byte × Nat)}
    (hy : y.map (·.1) = [markerByte, startByte] ++ stuff f.bytes) (hlast : y.getLast?.map (·.2) = some now) :
    rxAll c y s = dispatch c f now (withBuffer c f.bytes now s) := by
  obtain ⟨start, y, rfl, hstart, hbody⟩ := List.map_eq_append_iff.1 hy
  obtain ⟨⟨b1, t1⟩, start, rfl, rfl, hstart'⟩ := List.map_eq_cons_iff.1 hstart
  obtain ⟨⟨b2, t2⟩, rfl, rfl⟩ := List.map_eq_singleton_iff.1 hstart'
  have hbytes : f.bytes ≠ [] := by
    rw [← List.length_pos_iff, f.bytes_length]
    omega
  rw [List.getLast?_append_of_ne_nil _ (ne_nil_of_map_eq_stuff hbody hbytes)] at hlast
  rw [rxAll_append, rxAll_startDelimiter hact hhs t1 t2 hdec, andThen_next]
  exact rxAll_stuffed_rest hact hhs hbuf hdata hcap t2 (List.nil_append _) hbytes hbody hlast

end

/-- Settles O20: the frame is received and dispatched (`rxAll_frame`); what every dispatch keeps leaves it complete, so the
end delimiter only resynchronises. -/
theorem wireRoundTrip : Obligations.WireRoundTrip := by
  intro c f s y now t1 t2 hact hhs hdec hbuf hdata hcap hwire hlast
  have hy : y.map (·.1) = [markerByte, startByte] ++ stuff f.bytes := List.append_cancel_right hwire
  obtain ⟨u, hdispatch, hkeeps⟩ := dispatch_next c f now (withBuffer c f.bytes now s)
  obtain ⟨evs, hevents, hreports⟩ := (dispatch_unreported c f now _).of_eq_next hdispatch
  rw [withBuffer_events] at hevents
  have hrun : rxAll c y s = .next u := (rxAll_frame hact hhs hdec hbuf hdata hcap hy hlast).trans hdispatch
  have hcomplete : complete u c = true := by
    rw [complete_congr hkeeps.dec hkeeps.n hkeeps.buf]
    exact complete_of_atNeed (by rw [withBuffer_ch_self]) (atNeed_frameBytes now hbuf hdata)
  have hactive : u.active c = true := by
    rw [State.active, hkeeps.nActive, withBuffer_nActive]
    exact hact
  refine ⟨u, evs, hdispatch, hrun, hcomplete, hevents, hreports, ?_⟩
  rw [rxAll_append, hrun, andThen_next]
  exact rxAll_endDelimiter_of_complete t1 t2 hactive (by rw [hkeeps.hs, withBuffer_ch_self, hhs])
    (by rw [hkeeps.esc, withBuffer_ch_self]) hcomplete

end Sys2Proof.Machine
end

