-- ==== Sys2Proof/Proofs/HandshakeRows.lean ====
section
/-! The sequencer's rows (R165 to R181): what each writes, and what it leaves unchanged. A row without a transmission
rewrites one channel record (`setCh_onlyChannel`), a row with one does so after one event (`TransmitsAndSets`). -/

namespace Sys2Proof.Machine

variable {s : State} {c : Chan} {b : Byte} {now : Nat}

/-! ### Rewriting one channel record -/

section
variable {x : Channel} (hbuf : x.buf = (s.ch c).buf := by rfl) (hidentity : x.identity = (s.ch c).identity := by rfl)
include hbuf hidentity

theorem setCh_bytesKept : BytesKept s (s.setCh c x) := by
  intro d a
  by_cases hd : d = c
  · rw [hd, setCh_ch_self, hbuf, hidentity]
    exact ⟨rfl, rfl⟩
  · rw [setCh_ch_other _ _ _ _ hd]
    exact ⟨rfl, rfl⟩

theorem setCh_onlyChannel : OnlyChannel c x s (s.setCh c x) :=
  ⟨setCh_ch_self s c x, setCh_otherKept s c x, setCh_sharedKept s c x, setCh_bytesKept hbuf hidentity,
    (setCh_events s c x).trans (List.append_nil _).symm⟩

end

/-- One event was emitted and one channel record, now `x`, rewritten; no memory byte and no other register changed. -/
def TransmitsAndSets (c : Chan) (e : Event) (x : Channel) (s t : State) : Prop :=
  t.ch c = x ∧ Emits s t [e] ∧ OtherKept c s t ∧ SharedKept s t ∧ BytesKept s t

theorem setCh_emit_transmitsAndSets (e : Event) {x : Channel} (hbuf : x.buf = (s.ch c).buf := by rfl)
    (hidentity : x.identity = (s.ch c).identity := by rfl) :
    TransmitsAndSets c e x s ((emit e s).setCh c x) := by
  have hbytes : BytesKept (emit e s) ((emit e s).setCh c x) :=
    setCh_bytesKept (by rw [emit_ch, hbuf]) (by rw [emit_ch, hidentity])
  refine ⟨setCh_ch_self .., setCh_events .., fun d hd => ?_, ?_, fun d a => ?_⟩
  · rw [setCh_ch_other _ _ _ _ hd, emit_ch]
  · exact (emit_rxKeeps False c e s).shared.elim (·.trans (setCh_sharedKept ..)) False.elim
  · simpa only [emit_ch] using hbytes d a

/-! ### The transitions without input -/

/-- The SYN rate limit of R172 at time `now`, for a channel record. -/
def SynDue (now : Nat) (x : Channel) : Prop := x.synValid = false ∨ x.tSyn + 1500 ≤ now

theorem synAllowed_iff : synAllowed s c now = true ↔ SynDue now (s.ch c) := by
  simp only [synAllowed, SynDue, tSynMin, Bool.or_eq_true, Bool.not_eq_true', decide_eq_true_eq]
  exact or_congr_right (by omega)

theorem execHsSyn_of_due (hhs : (s.ch c).hs = .seenNak) (hdue : SynDue now (s.ch c)) :
    execHsSyn c now s = .next (synSent c now s) := by
  simp [execHsSyn, hhs, synAllowed_iff.2 hdue, synSent]

theorem execHsSyn_of_not_due (hdue : ¬ SynDue now (s.ch c)) : execHsSyn c now s = .next s :=
  if_neg fun h => hdue (synAllowed_iff.1 h.2)

theorem execHsAck2_of_gotAck1 (hhs : (s.ch c).hs = .gotAck1) : execHsAck2 c s = .next (ack2Sent c s) := if_pos hhs

theorem execHsAck3_of_gotSoh (hhs : (s.ch c).hs = .gotSoh) : execHsAck3 c s = .next (ack3Sent c s) := if_pos hhs

theorem synSent_transmits (c : Chan) (now : Nat) (s : State) :
    TransmitsAndSets c (.tx c [s.cfg.bSyn]) { s.ch c with tSyn := now, synValid := true, hs := .sentSyn } s
      (synSent c now s) :=
  setCh_emit_transmitsAndSets _

theorem ack2Sent_transmits (c : Chan) (s : State) :
    TransmitsAndSets c (.tx c [s.cfg.bAck]) { s.ch c with hs := .sentAck2 } s (ack2Sent c s) := by
  rw [ack2Sent, setHs, emit_ch]
  exact setCh_emit_transmitsAndSets _

/-- Frame mode and the link are two writes of one record. -/
theorem ack3Sent_transmits (c : Chan) (s : State) :
    TransmitsAndSets c (.tx c [s.cfg.bAck]) { s.ch c with hs := .frameModeActive, link := .connecting } s
      (ack3Sent c s) := by
  rw [ack3Sent, setLink, setHs_ch_self, setHs, setCh_setCh, emit_ch]
  exact setCh_emit_transmitsAndSets _

/-! ### A byte the sequencer does not list (R177) -/

theorem selectPreFrame_other {cfg : Cfg} {hs : HsState} (hmarker : b ≠ markerByte)
    (hlisted : hs = .idle ∧ b ≠ cfg.bNak
      ∨ hs = .sentSyn ∧ b ≠ cfg.bAck ∧ (cfg.hsNakRestart = false ∨ b ≠ cfg.bNak)
      ∨ hs = .sentAck2 ∧ b ≠ sohByte ∧ (cfg.hsNakRestart = false ∨ b ≠ cfg.bNak)) :
    selectPreFrame cfg hs b = .hsOther := by
  have hrestart (h : cfg.hsNakRestart = false ∨ b ≠ cfg.bNak) : ¬ (cfg.hsNakRestart = true ∧ b = cfg.bNak) :=
    fun ⟨hon, hnak⟩ => h.elim (by simp [hon]) (absurd hnak)
  rcases hlisted with ⟨rfl, hnak⟩ | ⟨rfl, hack, hnak⟩ | ⟨rfl, hsoh, hnak⟩
  · simp [selectPreFrame, hmarker, hnak]
  · simp [selectPreFrame, hmarker, hack, hrestart hnak]
  · simp [selectPreFrame, hmarker, hsoh, hrestart hnak]

/-- Such a byte in a state that waits for input only marks its reception. -/
theorem execRx_of_other (b : Byte) (now : Nat) (hact : s.active c = true) (hhs : (s.ch c).hs ≠ .frameModeActive)
    (hwaits : decodeSpontaneous (s.ch c).hs c now = none) (hsel : selectPreFrame s.cfg (s.ch c).hs b = .hsOther) :
    execRx c b now s = .next (touchRx c now s) := by
  have hbyte : handshakeByte c b now (touchRx c now s) = .next (touchRx c now s) := by
    rw [handshakeByte, touchRx_cfg, touchRx_ch_self, hsel]
    rfl
  rw [execRx_of_preFrame b now hact hhs, hbyte, andThen_next]
  exact settle_of_no_spontaneous (by rwa [touchRx_ch_self])

/-! ### The statements -/

/-- Settles O6: the sequencer state and the decoder state are two writes of one record. -/
theorem handshakeMarker : Obligations.HandshakeMarker := by
  intro c s
  refine ⟨_, rfl, ?_⟩
  rw [setDec, setHs_ch_self, setHs, setCh_setCh]
  exact setCh_onlyChannel

/-- Settles O7: each row is one write of `hs`. -/
theorem handshakeBytes : Obligations.HandshakeBytes := fun _ _ =>
  ⟨⟨_, rfl, setCh_onlyChannel⟩, ⟨_, rfl, setCh_onlyChannel⟩, ⟨_, rfl, setCh_onlyChannel⟩, ⟨_, rfl, setCh_onlyChannel⟩⟩

/-- Settles O8, by whether the SYN is due. -/
theorem synRateLimited : Obligations.SynRateLimited := by
  intro c now s hhs
  by_cases hdue : SynDue now (s.ch c)
  · exact ⟨_, execHsSyn_of_due hhs hdue, (if_pos hdue).mpr (synSent_transmits c now s)⟩
  · exact ⟨s, execHsSyn_of_not_due hdue, (if_neg hdue).mpr rfl⟩

/-- Settles O9: each row answers the state its transmission is described for. -/
theorem handshakeAcknowledges : Obligations.HandshakeAcknowledges := fun c s =>
  ⟨fun hhs => ⟨_, execHsAck2_of_gotAck1 hhs, ack2Sent_transmits c s⟩,
    fun hhs => ⟨_, execHsAck3_of_gotSoh hhs, ack3Sent_transmits c s⟩⟩

/-- Settles O10: the rows answer the state they are given; the byte selects `HS.OTHER`, in a state no transition without
input leaves. -/
theorem ignoredRowsChangeNothing : Obligations.IgnoredRowsChangeNothing := by
  refine ⟨fun c b h data s => ⟨rfl, rfl, rfl, rfl, rfl⟩, fun c b now s hact hlisted hmarker => ?_⟩
  have hsel := selectPreFrame_other hmarker hlisted
  obtain ⟨hhs, hwaits⟩ : (s.ch c).hs ≠ .frameModeActive ∧ decodeSpontaneous (s.ch c).hs c now = none := by
    rcases hlisted with ⟨hhs, -⟩ | ⟨hhs, -⟩ | ⟨hhs, -⟩ <;> rw [hhs] <;> exact ⟨nofun, rfl⟩
  exact ⟨_, execRx_of_other b now hact hhs hwaits hsel, setCh_onlyChannel⟩

end Sys2Proof.Machine
end

