-- ==== Sys2Proof/Proofs/Sequencer.lean ====
section
/-! What leaves the sequencer alone (R33): the decoder, the frames it dispatches and the operator's writes move no
channel's sequencer and transmit whole frames only (`SequencerKept`). -/

namespace Sys2Proof.Machine

variable {s t u : State} {c : Chan} {now : Nat}

/-! ### The relation -/

/-- Events were only appended, and every transmission among them has two bytes or more. -/
def NoLoneByte (s t : State) : Prop := ∃ evs, t.events = s.events ++ evs ∧ ∀ d b, Event.tx d [b] ∉ evs

theorem NoLoneByte.of_events_eq (h : t.events = s.events) : NoLoneByte s t :=
  ⟨[], by rw [h, List.append_nil], fun _ _ => List.not_mem_nil⟩

theorem NoLoneByte.trans (h : NoLoneByte s t) (k : NoLoneByte t u) : NoLoneByte s u := by
  obtain ⟨evs, hevs, hnone⟩ := h
  obtain ⟨later, hlater, hnone'⟩ := k
  refine ⟨evs ++ later, by rw [hlater, hevs, List.append_assoc], fun d b hmem => ?_⟩
  exact (List.mem_append.1 hmem).elim (hnone d b) (hnone' d b)

theorem emit_noLoneByte {e : Event} (s : State) (he : ∀ d b, e ≠ .tx d [b]) : NoLoneByte s (emit e s) :=
  ⟨[e], rfl, fun d b hmem => he d b (List.mem_singleton.1 hmem).symm⟩

/-- The registers of a channel that the sequencer owns: its state and the record of its last SYN (R24, R29). -/
def Channel.sequencer (x : Channel) : HsState × Bool × Nat := (x.hs, x.synValid, x.tSyn)

theorem Channel.sequencer_eq_iff {x y : Channel} :
    y.sequencer = x.sequencer ↔ y.hs = x.hs ∧ y.synValid = x.synValid ∧ y.tSyn = x.tSyn := by
  simp [Channel.sequencer]

/-- No channel's sequencer registers changed, no byte was sent alone, and configuration and clock are as before. -/
structure SequencerKept (s t : State) : Prop where
  cfg : t.cfg = s.cfg
  clock : t.clock = s.clock
  sequencer : ∀ d, (t.ch d).sequencer = (s.ch d).sequencer
  sent : NoLoneByte s t

theorem SequencerKept.refl (s : State) : SequencerKept s s := ⟨rfl, rfl, fun _ => rfl, .of_events_eq rfl⟩

theorem SequencerKept.trans (h : SequencerKept s t) (k : SequencerKept t u) : SequencerKept s u where
  cfg := k.cfg.trans h.cfg
  clock := k.clock.trans h.clock
  sequencer := fun d => (k.sequencer d).trans (h.sequencer d)
  sent := h.sent.trans k.sent

theorem SequencerKept.hs (h : SequencerKept s t) (d : Chan) : (t.ch d).hs = (s.ch d).hs :=
  (Channel.sequencer_eq_iff.1 (h.sequencer d)).1

theorem setCh_sequencerKept {x : Channel} (hx : x.sequencer = (s.ch c).sequencer := by rfl) :
    SequencerKept s (s.setCh c x) where
  cfg := setCh_cfg s c x
  clock := setCh_clock s c x
  sequencer := fun d => by
    by_cases hd : d = c
    · rw [hd, setCh_ch_self, hx]
    · rw [setCh_ch_other _ _ _ _ hd]
  sent := .of_events_eq (setCh_events s c x)

theorem emit_sequencerKept {e : Event} (s : State) (he : ∀ d b, e ≠ .tx d [b]) : SequencerKept s (emit e s) :=
  ⟨rfl, rfl, fun d => by rw [emit_ch], emit_noLoneByte s he⟩

/-- The relay coordinator owns none of these registers. -/
theorem RelayOnly.sequencerKept (h : RelayOnly s t) (hsent : NoLoneByte s t) : SequencerKept s t :=
  ⟨h.cfg, h.clock, fun d => by rw [h.ch], hsent⟩

/-! ### The frames (R230) -/

/-- A frame on the wire begins with two delimiter bytes (R102), so it is no lone byte. -/
theorem encodeFrame_ne_singleton (src dst fid ctl : Byte) (data : List Byte) (b : Byte) :
    encodeFrame src dst fid ctl data ≠ [b] := by
  simp [encodeFrame]

theorem reply_noLoneByte (c : Chan) (dst fid ctl : Byte) (data : List Byte) (now : Nat) (s : State) :
    NoLoneByte s (reply c dst fid ctl data now s) :=
  (emit_noLoneByte s fun _ _ h => encodeFrame_ne_singleton _ _ _ _ _ _ (Event.tx.inj h).2).trans
    (.of_events_eq (setCh_events ..))

theorem setRelay_noLoneByte (v : Bool) (s : State) : NoLoneByte s (setRelay v s) := by
  unfold setRelay
  split
  · exact .of_events_eq rfl
  · exact (NoLoneByte.of_events_eq rfl).trans (emit_noLoneByte _ nofun)

theorem writeField_noLoneByte (n : WName) (v : Nat) (c : Chan) (now : Nat) (s : State) :
    NoLoneByte s (writeField n v c now s) := by
  unfold writeField relayDrive
  split
  · split
    · exact (NoLoneByte.of_events_eq rfl).trans (setRelay_noLoneByte ..)
    · exact .of_events_eq (workOff_events ..)
  · exact .of_events_eq rfl

theorem storeIdentity_noLoneByte (c : Chan) (data : List Byte) (s : State) : NoLoneByte s (storeIdentity c data s) :=
  (NoLoneByte.of_events_eq (setCh_events ..)).trans (emit_noLoneByte _ nofun)

theorem adoptAddress_noLoneByte (c : Chan) (dst : Byte) (s : State) : NoLoneByte s (adoptAddress c dst s) := by
  unfold adoptAddress
  split
  · exact (NoLoneByte.of_events_eq (setCh_events ..)).trans (emit_noLoneByte _ nofun)
  · exact .of_events_eq rfl

theorem runFrame_noLoneByte (sel : FrameSel) (h : Hdr) (data : List Byte) (s : State) :
    Ensures (runFrame sel h data s) (NoLoneByte s) := by
  cases sel with
  | hs =>
    have hadopted := adoptAddress_noLoneByte h.c h.dst s
    exact ensures_next.2 ((hadopted.trans (.of_events_eq (noteHandshake_events ..))).trans (reply_noLoneByte ..))
  | notForUs | unknown => exact ensures_next.2 (.of_events_eq rfl)
  | fwId | idRead => exact ensures_next.2 ((reply_noLoneByte ..).trans (.of_events_eq (setLink_events ..)))
  | write w =>
    cases w with
    | identity => exact ensures_next.2 ((storeIdentity_noLoneByte ..).trans (reply_noLoneByte ..))
    | fwNop => exact ensures_next.2 (reply_noLoneByte ..)
    | entry n k =>
      have hwritten := writeField_noLoneByte n (valueAt n.vw k data) h.c h.now s
      exact ⟨_, runWrite_eq n h _ (valueAt_lt n k data) s,
        (hwritten.trans (reply_noLoneByte ..)).trans (.of_events_eq (markConfigDirty_events ..))⟩
  | read n k => exact ⟨_, runRead_eq n h _ s, reply_noLoneByte ..⟩

theorem DispatchKeeps.sequencerKept (h : DispatchKeeps c s t) (hsent : NoLoneByte s t) : SequencerKept s t where
  cfg := h.cfg
  clock := h.clock
  sequencer := fun d => by
    by_cases hd : d = c
    · rw [hd, Channel.sequencer_eq_iff]
      exact ⟨h.hs, h.synValid, h.tSyn⟩
    · rw [h.other d hd]
  sent := hsent

theorem dispatch_sequencerKept (c : Chan) (f : Frame) (now : Nat) (s : State) :
    Ensures (dispatch c f now s) (SequencerKept s) := by
  have hkeeps : Ensures (dispatch c f now s) (DispatchKeeps c s) := dispatch_next c f now s
  have hsent : Ensures (dispatch c f now s) (NoLoneByte s) :=
    (runFrame_noLoneByte _ (f.hdr c now) f.data _).mono fun _ ht =>
      (NoLoneByte.of_events_eq (touchFor_events c f now s)).trans ht
  exact (hkeeps.and hsent).mono fun _ ht => ht.1.sequencerKept ht.2

/-! ### The decoder (R190) -/

theorem raise_sequencerKept (c : Chan) (k : ErrKind) (s : State) : SequencerKept s (raise c k s) :=
  (emit_sequencerKept (e := .report c k) s nofun).trans setCh_sequencerKept

theorem appendByte_sequencerKept (c : Chan) (v : Byte) (now : Nat) (s : State) :
    Ensures (appendByte c v now s) (SequencerKept s) := by
  have hpushed : SequencerKept s (pushByte c v s) := setCh_sequencerKept
  rcases appendByte_cases c v now s with ⟨_, hres⟩ | ⟨_, hres⟩ <;> rw [hres]
  · exact ensures_next.2 (raise_sequencerKept ..)
  · rcases checkComplete_cases c now (pushByte c v s) with ⟨_, hres⟩ | ⟨_, _, hres⟩ | ⟨_, _, hres⟩ <;> rw [hres]
    · exact ensures_next.2 hpushed
    · exact (dispatch_sequencerKept ..).mono fun t ht => hpushed.trans ht
    · exact ensures_next.2 (hpushed.trans (raise_sequencerKept ..))

theorem flushBestEffort_sequencerKept (c : Chan) (now : Nat) (s : State) :
    Ensures (flushBestEffort c now s) (SequencerKept s) := by
  rcases flushBestEffort_cases c now s with ⟨_, hres⟩ | ⟨_, _, _, hres⟩ | ⟨_, _, _, hres⟩ <;> rw [hres]
  · exact ensures_next.2 (.refl s)
  · exact dispatch_sequencerKept ..
  · exact ensures_next.2 (emit_sequencerKept s nofun)

theorem decoderByte_sequencerKept (c : Chan) (b : Byte) (now : Nat) (s : State) :
    Ensures (decoderByte c b now s) (SequencerKept s) := by
  have hset (x : Channel) (hx : x.sequencer = (s.ch c).sequencer) :
      Ensures (.next (s.setCh c x)) (SequencerKept s) := ensures_next.2 (setCh_sequencerKept hx)
  unfold decoderByte selectDecoder
  cases (s.ch c).dec with
  | awaitMarker =>
    dsimp only
    split
    · exact hset _ rfl
    · exact ensures_next.2 (.refl s)
  | awaitStart =>
    dsimp only
    split_ifs
    · exact hset _ rfl
    · exact ensures_next.2 (.refl s)
    · exact hset _ rfl
  | inFrame =>
    cases (s.ch c).esc with
    | false =>
      dsimp only
      split
      · exact hset _ rfl
      · exact appendByte_sequencerKept ..
    | true =>
      have hflush := flushBestEffort_sequencerKept c now s
      dsimp only
      split_ifs
      · exact (appendByte_sequencerKept ..).mono fun t ht => SequencerKept.trans setCh_sequencerKept ht
      · exact hflush.andThen fun t ht => ensures_next.2 (ht.trans setCh_sequencerKept)
      · exact hflush.andThen fun t ht => ensures_next.2 (ht.trans setCh_sequencerKept)
      · exact ensures_next.2 (raise_sequencerKept ..)

/-! ### The operator and the middle of a `POLL` -/

theorem execAdminWrite_sequencerKept (c : Chan) (ctl : Byte) (data : List Byte) (now : Nat) (s : State) :
    Ensures (execAdminWrite c ctl data now s) (SequencerKept s) := by
  unfold execAdminWrite
  split
  · exact ensures_next.2 (.refl s)
  · split
    · exact ensures_next.2 ((storeIdentity_keeps c data s).sequencerKept (storeIdentity_noLoneByte ..))
    · exact ensures_next.2 (.refl s)
    · exact ensures_next.2 ⟨by simp, by simp, fun d => by simp, writeField_noLoneByte ..⟩
    · exact ensures_next.2 (.refl s)

/-- Every operator operation but the recount of the active channels, which resets a channel (R372). -/
theorem adminOp_sequencerKept {op : AdminOp} (hop : ∀ k, op ≠ .setActiveCount k) (now : Nat) (s : State) :
    Ensures (exec (op.instr now) s) (SequencerKept s) := by
  have hsame {t : State} (hcfg : t.cfg = s.cfg) (hclock : t.clock = s.clock) (hch : ∀ d, t.ch d = s.ch d)
      (hevents : t.events = s.events) : Ensures (.next t) (SequencerKept s) :=
    ensures_next.2 ⟨hcfg, hclock, fun d => by rw [hch], .of_events_eq hevents⟩
  cases op with
  | write c ctl data => exact execAdminWrite_sequencerKept c ctl data now s
  | forceErrorMask v => exact hsame rfl rfl (fun d => by cases d <;> rfl) rfl
  | setActiveCount k => exact absurd rfl (hop k)
  | setTelemetry field v => cases field <;> exact hsame rfl rfl (fun d => by cases d <;> rfl) rfl
  | wipePersistence => exact ensures_next.2 (.refl s)

theorem relayEval_noLoneByte (now : Nat) (s : State) : NoLoneByte s (relayEval now s) := by
  have hset (v : Bool) (u : State) (hu : u.events = s.events) : NoLoneByte s (setRelay v u) :=
    (NoLoneByte.of_events_eq hu).trans (setRelay_noLoneByte v u)
  unfold relayEval
  split_ifs
  · exact hset true _ rfl
  · exact hset true _ rfl
  · split
    · split
      · exact (hset false s rfl).trans (.of_events_eq rfl)
      · exact .of_events_eq rfl
    · exact hset false s rfl

theorem relayEval_sequencerKept (now : Nat) (s : State) : SequencerKept s (relayEval now s) :=
  (relayEval_relayOnly now s).sequencerKept (relayEval_noLoneByte now s)

theorem debounceFlush_sequencerKept (now : Nat) (s : State) : SequencerKept s (debounceFlush now s) := by
  unfold debounceFlush
  split
  · exact ⟨rfl, rfl, fun d => by cases d <;> rfl, emit_noLoneByte s (e := .persist .saveConfig) nofun⟩
  · exact .refl s

/-! ### Taking the input -/

theorem popInput_ch (x : Input) (rest : List Input) (s : State) (d : Chan) : (popInput x rest s).ch d = s.ch d := by
  cases d <;> rfl

/-- A line sample moves a bit-level receiver, which is not the sequencer (R143). -/
theorem sampled_sequencerKept (c : Chan) (level : Bool) (now : Nat) (rest : List Input) (s : State) :
    SequencerKept (popInput (.line c level now) rest s) (sampled c level now rest s) :=
  setCh_sequencerKept (by rw [popInput_ch]; rfl)

end Sys2Proof.Machine
end

