-- ==== Sys2Proof/Proofs/FrameMode.lean ====
section
/-! The ways out of frame mode (R165, R33, R400): what received bytes and operator writes do leaves a channel in it; a
`POLL` takes a silent channel out (`PollStep`), a recount a disabled one. -/

namespace Sys2Proof.Machine

variable {s t u : State} {c d : Chan} {now : Nat}

/-! ### A received byte -/

/-- A byte moves only its own channel's sequencer, and in frame mode the decoder takes it (R33). -/
theorem execRx_keeps_frameMode (c : Chan) (b : Byte) (now : Nat) (hhs : (s.ch d).hs = .frameModeActive) :
    Ensures (execRx c b now s) fun t => (t.ch d).hs = .frameModeActive := by
  cases hact : s.active c with
  | false =>
    rw [execRx_of_inactive b now hact]
    exact ensures_next.2 hhs
  | true =>
    by_cases hdc : d = c
    · subst hdc
      rw [execRx_of_frameMode b now hact hhs]
      refine (decoderByte_sequencerKept d b now _).mono fun t ht => ?_
      rw [ht.hs, touchRx_ch_self]
      exact hhs
    · obtain ⟨t, hrun, -⟩ := execRx_rxKeeps b now hact
      obtain ⟨-, hother, -⟩ := execRx_frame hact hrun
      exact ⟨t, hrun, (congrArg Channel.hs (hother d hdc)).trans hhs⟩

/-! ### The poll -/

theorem active_congr (h : t.nActive = s.nActive) (d : Chan) : t.active d = s.active d := by
  rw [State.active, State.active, h]

/-- What a `POLL` at `now` does to frame mode: a channel leaves it only when it is active and has been silent for `T_INACT`
(R366). What that condition reads is kept, which makes the relation transitive. -/
structure PollStep (now : Nat) (s t : State) : Prop where
  cfg : t.cfg = s.cfg
  nActive : t.nActive = s.nActive
  tRx : ∀ d, (t.ch d).tRx = (s.ch d).tRx
  frameMode : ∀ d, (s.ch d).hs = .frameModeActive →
    (t.ch d).hs = .frameModeActive ∨ s.active d = true ∧ s.cfg.tInact ≤ now - (s.ch d).tRx

theorem PollStep.refl (now : Nat) (s : State) : PollStep now s s := ⟨rfl, rfl, fun _ => rfl, fun _ => .inl⟩

theorem PollStep.trans (h : PollStep now s t) (k : PollStep now t u) : PollStep now s u where
  cfg := k.cfg.trans h.cfg
  nActive := k.nActive.trans h.nActive
  tRx := fun d => (k.tRx d).trans (h.tRx d)
  frameMode := fun d hhs => by
    rcases h.frameMode d hhs with hstays | hleaves
    · have hlater := k.frameMode d hstays
      rwa [active_congr h.nActive, h.cfg, h.tRx] at hlater
    · exact .inr hleaves

theorem PollStep.of_ch_eq (hcfg : t.cfg = s.cfg) (hcount : t.nActive = s.nActive) (hch : ∀ d, t.ch d = s.ch d) :
    PollStep now s t :=
  ⟨hcfg, hcount, fun d => by rw [hch], fun d hhs => .inl (by rwa [hch])⟩

/-- Frame mode waits for no transition without input, and settling writes no other channel (R179). -/
theorem settle_pollStep (c : Chan) (now : Nat) (s : State) : Ensures (settle c now s) (PollStep now s) := by
  by_cases hhs : (s.ch c).hs = .frameModeActive
  · rw [settle_of_no_spontaneous (by rw [hhs]; rfl)]
    exact ensures_next.2 (.refl now s)
  · refine (settle_rxKeeps False c now s).mono fun t ⟨htRx, hother, ⟨hcfg, hcount, _⟩, _⟩ => ⟨hcfg, hcount, ?_, ?_⟩
    · exact fun d => chan_ne_cases (P := fun d => (t.ch d).tRx = (s.ch d).tRx) d htRx fun hd => by rw [hother d hd]
    · intro d hhs'
      have hdc : d ≠ c := by rintro rfl; exact hhs hhs'
      exact .inl (by rwa [hother d hdc])

theorem inactivityCheck_pollStep (hact : s.active c = true) (now : Nat) : PollStep now s (inactivityCheck c now s) := by
  unfold inactivityCheck
  split
  next hsilent =>
    have hreset : PollStep now s (channelReset c s) := {
      cfg := channelReset_cfg c s
      nActive := channelReset_nActive c s
      tRx := fun d => by
        by_cases hdc : d = c
        · rw [hdc, channelReset_ch_self]
        · rw [channelReset_ch_other _ _ _ hdc]
      frameMode := fun d hhs => by
        by_cases hdc : d = c
        · exact .inr (hdc ▸ ⟨hact, of_decide_eq_true hsilent⟩)
        · exact .inl (by rwa [channelReset_ch_other _ _ _ hdc]) }
    exact hreset.trans (.of_ch_eq (retract_cfg ..) (retract_nActive ..) (retract_ch c _))
  next => exact .refl now s

theorem debounceFlush_pollStep (now : Nat) (s : State) : PollStep now s (debounceFlush now s) := by
  unfold debounceFlush
  split
  · exact .of_ch_eq rfl rfl fun d => by cases d <;> rfl
  · exact .refl now s

theorem execPoll_pollStep (now : Nat) (s : State) : Ensures (execPoll now s) (PollStep now s) := by
  have hsettled : Ensures (forActive (fun c u => settle c now u) s) (PollStep now s) :=
    forActive_ensures (.refl now s) fun c u _ hu => (settle_pollStep c now u).mono fun t ht => hu.trans ht
  have hrelay (u : State) : PollStep now u (relayEval now u) :=
    .of_ch_eq (relayEval_cfg now u) (relayEval_nActive now u) (relayEval_ch now u)
  refine hsettled.andThen fun u hu => forActive_ensures ?_ fun c t hact ht => ensures_next.2 ?_
  · exact (hu.trans (hrelay u)).trans (debounceFlush_pollStep now _)
  · exact ht.trans (inactivityCheck_pollStep hact now)

/-! ### The recount (R372) -/

theorem recount_hs (old k : Nat) (c : Chan) (now : Nat) (s : State) (d : Chan) :
    ((recount old k c now s).ch d).hs = (s.ch d).hs ∨ d = c ∧ k ≤ c.idx ∧ c.idx < old := by
  by_cases hdc : d = c
  · subst hdc
    unfold recount
    split_ifs with hdisabled
    · exact .inr ⟨rfl, hdisabled⟩
    · exact .inl (by rw [touchRx_ch_self])
    · exact .inl rfl
  · unfold recount
    split_ifs
    · exact .inl (by rw [retract_ch, channelReset_ch_other _ _ _ hdc])
    · exact .inl (by rw [touchRx_ch_other _ _ _ _ hdc])
    · exact .inl rfl

/-- The recount moves only the sequencer of a channel it disables. -/
theorem execAdminSetActiveCount_hs (k now : Nat) (s : State) :
    Ensures (execAdminSetActiveCount k now s) fun t =>
      ∀ d, (t.ch d).hs ≠ (s.ch d).hs → k ≤ d.idx ∧ s.active d = true := by
  unfold execAdminSetActiveCount
  split
  · refine ensures_next.2 fun d hmoved => ?_
    have hcount : (State.ch { s with nActive := k } d).hs = (s.ch d).hs := by cases d <;> rfl
    rcases recount_hs s.nActive k .c1 now (recount s.nActive k .c0 now { s with nActive := k }) d
      with h1 | ⟨rfl, hk, hold⟩
    · rcases recount_hs s.nActive k .c0 now { s with nActive := k } d with h0 | ⟨rfl, hk, hold⟩
      · exact absurd (h1.trans (h0.trans hcount)) hmoved
      · exact ⟨hk, decide_eq_true hold⟩
    · exact ⟨hk, decide_eq_true hold⟩
  · exact ensures_next.2 fun d hmoved => absurd rfl hmoved

/-! ### The statement -/

/-- Settles O56, by the cases of the step: a received byte, as an `RX` or as the end of a character on the line, leaves no
channel's frame mode, nor does an operator operation other than the recount. -/
theorem frameModeIsTerminal : Obligations.FrameModeIsTerminal := by
  intro s t c hstep hin hout
  rcases step_cases hstep with ⟨_, rfl⟩ | ⟨x, rest, i, hinput, _, hdec, hexec⟩ | ⟨d, level, now, rest, _, _, hline⟩
  · exact absurd hin hout
  · have htaken : ((popInput x rest s).ch c).hs = .frameModeActive := by rwa [popInput_ch]
    refine ⟨rest, ?_⟩
    cases x with
    | reset t0 => exact .inl ⟨t0, hinput⟩
    | rx d b now => cases hdec; exact absurd ((execRx_keeps_frameMode d b now htaken).of_eq_next hexec) hout
    | poll now =>
      cases hdec
      have hpoll := (execPoll_pollStep now _).of_eq_next hexec
      obtain ⟨hact, hsilent⟩ := (hpoll.frameMode c htaken).resolve_left hout
      rw [popInput_ch] at hsilent
      exact .inr (.inl ⟨now, hinput, hact, hsilent⟩)
    | admin op now =>
      cases hdec
      have hmoved : (t.ch c).hs ≠ ((popInput (.admin op now) rest s).ch c).hs := fun h => hout (h.trans htaken)
      by_cases hop : ∃ k, op = .setActiveCount k
      · obtain ⟨k, rfl⟩ := hop
        obtain ⟨hk, hact⟩ := (execAdminSetActiveCount_hs k now _).of_eq_next hexec c hmoved
        exact .inr (.inr ⟨k, now, hinput, hk, hact⟩)
      · have hkept := adminOp_sequencerKept (fun k hk => hop ⟨k, hk⟩) now (popInput (.admin op now) rest s)
        exact absurd ((hkept.of_eq_next hexec).hs c) hmoved
    | line d level now => cases hdec
  · have hsampled : ((sampled d level now rest s).ch c).hs = .frameModeActive := by
      rwa [(sampled_sequencerKept d level now rest s).hs, popInput_ch]
    rcases hline with rfl | ⟨b, _, hrun⟩
    · exact absurd hsampled hout
    · exact absurd ((execRx_keeps_frameMode d b now hsampled).of_eq_next hrun) hout

end Sys2Proof.Machine
end

