-- ==== Sys2Proof/Proofs/SynSpacing.lean ====
section
/-! The spacing of SYN transmissions (R172, R179): every operation but `RESET` sends a SYN only when it is due, and records
it (`SynStep`). A recorded SYN is not due again at the same time, so the relation composes. -/

namespace Sys2Proof

/-- R11: the two bytes the sequencer transmits are told apart. -/
theorem Cfg.bAck_ne_bSyn_of_wf {cfg : Cfg} (hwf : cfg.wf = true) : cfg.bAck ≠ cfg.bSyn := by
  simp only [Cfg.wf, Bool.and_eq_true, decide_eq_true_eq, and_assoc] at hwf
  obtain ⟨hbytes, -⟩ := hwf
  simp only [List.nodup_cons, List.mem_cons, List.not_mem_nil, or_false, not_or] at hbytes
  obtain ⟨-, ⟨hsynAck, -⟩, -⟩ := hbytes
  exact Ne.symm hsynAck

end Sys2Proof

namespace Sys2Proof.Machine

variable {s t u : State} {c : Chan} {now : Nat} {p q : Prop} {x y z : Channel}

/-! ### The record of one channel -/

/-- Between the records `x` and `y` of a channel, at time `now`: if a SYN was `sent`, it was due and is recorded, and
otherwise the record of the last one is kept (R29). -/
def SynRecord (now : Nat) (sent : Prop) (x y : Channel) : Prop :=
  sent ∧ SynDue now x ∧ y.synValid = true ∧ y.tSyn = now
  ∨ ¬ sent ∧ y.synValid = x.synValid ∧ y.tSyn = x.tSyn

/-- A SYN sent now is not due now. -/
theorem not_synDue_of_sent (hvalid : x.synValid = true) (htime : x.tSyn = now) : ¬ SynDue now x := by
  rintro (hnone | hold)
  · simp [hvalid] at hnone
  · omega

theorem SynDue.congr (h : SynDue now y) (hvalid : y.synValid = x.synValid) (htime : y.tSyn = x.tSyn) : SynDue now x := by
  rwa [SynDue, hvalid, htime] at h

theorem SynRecord.trans (h : SynRecord now p x y) (k : SynRecord now q y z) : SynRecord now (p ∨ q) x z := by
  rcases h with ⟨hp, hdue, hvalid, htime⟩ | ⟨hp, hvalid, htime⟩ <;>
    rcases k with ⟨hq, kdue, kvalid, ktime⟩ | ⟨hq, kvalid, ktime⟩
  · exact absurd kdue (not_synDue_of_sent hvalid htime)
  · exact .inl ⟨.inl hp, hdue, kvalid.trans hvalid, ktime.trans htime⟩
  · exact .inl ⟨.inr hq, kdue.congr hvalid htime, kvalid, ktime⟩
  · exact .inr ⟨not_or.2 ⟨hp, hq⟩, kvalid.trans hvalid, ktime.trans htime⟩

/-- The two implications of the statement, whatever other way out `p` it allows a step that sends no SYN. -/
theorem SynRecord.spacing {sent : Prop} (h : SynRecord now sent x y) :
    (sent → SynDue now x ∧ y.synValid = true ∧ y.tSyn = now)
    ∧ (¬ sent → y.synValid = x.synValid ∧ y.tSyn = x.tSyn ∨ p) := by
  rcases h with ⟨hsent, hkept⟩ | ⟨hnone, hkept⟩
  · exact ⟨fun _ => hkept, absurd hsent⟩
  · exact ⟨fun hsent => absurd hsent hnone, fun _ => .inl hkept⟩

/-! ### The record of a step -/

/-- What a step at time `now` does to the SYNs of every channel; configuration and clock are kept. -/
structure SynStep (now : Nat) (s t : State) : Prop where
  cfg : t.cfg = s.cfg
  clock : t.clock = s.clock
  sent : ∃ evs, t.events = s.events ++ evs ∧
    ∀ d, SynRecord now (Event.tx d [s.cfg.bSyn] ∈ evs) (s.ch d) (t.ch d)

theorem SynStep.trans (h : SynStep now s t) (k : SynStep now t u) : SynStep now s u where
  cfg := k.cfg.trans h.cfg
  clock := k.clock.trans h.clock
  sent := by
    obtain ⟨evs, hevs, hrecord⟩ := h.sent
    obtain ⟨later, hlater, hrecord'⟩ := k.sent
    refine ⟨evs ++ later, by rw [hlater, hevs, List.append_assoc], fun d => ?_⟩
    rw [List.mem_append]
    exact (hrecord d).trans (h.cfg ▸ hrecord' d)

/-- Whole frames are no SYN, and whoever leaves the sequencer alone leaves its record. -/
theorem SequencerKept.synStep (h : SequencerKept s t) (now : Nat) : SynStep now s t where
  cfg := h.cfg
  clock := h.clock
  sent := by
    obtain ⟨evs, hevs, hnone⟩ := h.sent
    refine ⟨evs, hevs, fun d => .inr ⟨hnone d _, ?_⟩⟩
    exact (Channel.sequencer_eq_iff.1 (h.sequencer d)).2

theorem SynStep.refl (now : Nat) (s : State) : SynStep now s s := (SequencerKept.refl s).synStep now

theorem SynStep.of_ch_eq (hcfg : t.cfg = s.cfg) (hclock : t.clock = s.clock) (hevents : t.events = s.events)
    (hch : ∀ d, t.ch d = s.ch d) : SynStep now s t :=
  ⟨hcfg, hclock, [], by rw [hevents, List.append_nil], fun d => .inr ⟨List.not_mem_nil, by rw [hch], by rw [hch]⟩⟩

/-- A write of one channel record that keeps the record of its last SYN. -/
theorem setCh_synStep (hvalid : x.synValid = (s.ch c).synValid := by rfl) (htime : x.tSyn = (s.ch c).tSyn := by rfl) :
    SynStep now s (s.setCh c x) where
  cfg := setCh_cfg s c x
  clock := setCh_clock s c x
  sent := by
    refine ⟨[], by rw [setCh_events, List.append_nil], fun d => .inr ⟨List.not_mem_nil, ?_⟩⟩
    by_cases hdc : d = c
    · rw [hdc, setCh_ch_self]
      exact ⟨hvalid, htime⟩
    · rw [setCh_ch_other _ _ _ _ hdc]
      exact ⟨rfl, rfl⟩

/-! ### The sequencer -/

/-- The SYN, when it is due (R172). -/
theorem synSent_synStep (hdue : SynDue now (s.ch c)) : SynStep now s (synSent c now s) := by
  obtain ⟨hch, hevents, hother, ⟨⟨hcfg, -, hclock, -⟩, -⟩, -⟩ := synSent_transmits c now s
  refine ⟨hcfg, hclock, _, hevents, fun d => ?_⟩
  by_cases hdc : d = c
  · subst hdc
    rw [hch]
    exact .inl ⟨List.mem_singleton_self _, hdue, rfl, rfl⟩
  · rw [hother d hdc]
    exact .inr ⟨by simp [hdc], rfl, rfl⟩

/-- An acknowledge is no SYN. -/
theorem TransmitsAndSets.synStep_of_ack (h : TransmitsAndSets c (.tx c [s.cfg.bAck]) x s t)
    (hapart : s.cfg.bAck ≠ s.cfg.bSyn) (hvalid : x.synValid = (s.ch c).synValid := by rfl)
    (htime : x.tSyn = (s.ch c).tSyn := by rfl) : SynStep now s t := by
  obtain ⟨rfl, hevents, hother, ⟨⟨hcfg, -, hclock, -⟩, -⟩, -⟩ := h
  refine ⟨hcfg, hclock, _, hevents, fun d => .inr ⟨by simp [hapart.symm], ?_⟩⟩
  by_cases hdc : d = c
  · rw [hdc]
    exact ⟨hvalid, htime⟩
  · rw [hother d hdc]
    exact ⟨rfl, rfl⟩

theorem settle_synStep (hapart : s.cfg.bAck ≠ s.cfg.bSyn) (c : Chan) (now : Nat) :
    Ensures (settle c now s) (SynStep now s) := by
  rcases settle_cases c now s with ⟨_, _, hres⟩ | ⟨hhs, hres⟩ | ⟨_, hres⟩ | ⟨_, hres⟩
  · exact hres ▸ ensures_next.2 (.refl now s)
  · have hrow : settle c now s = execHsSyn c now s := settle_of_decodeSpontaneous (by rw [hhs]; rfl)
    by_cases hdue : SynDue now (s.ch c)
    · exact hres ▸ ensures_next.2 (synSent_synStep hdue)
    · rw [hrow, execHsSyn_of_not_due hdue]
      exact ensures_next.2 (.refl now s)
  · exact hres ▸ ensures_next.2 ((ack2Sent_transmits c s).synStep_of_ack hapart)
  · exact hres ▸ ensures_next.2 ((ack3Sent_transmits c s).synStep_of_ack hapart)

theorem handshakeByte_synStep (c : Chan) (b : Byte) (now : Nat) (s : State) :
    Ensures (handshakeByte c b now s) (SynStep now s) := by
  rcases handshakeByte_cases c b now s with hres | ⟨v, _, hres⟩ | hres <;> rw [hres, ensures_next]
  · exact SynStep.trans setCh_synStep setCh_synStep
  · exact setCh_synStep
  · exact .refl now s

/-! ### The step inputs -/

theorem execRx_synStep (hapart : s.cfg.bAck ≠ s.cfg.bSyn) (c : Chan) (b : Byte) (now : Nat) :
    Ensures (execRx c b now s) (SynStep now s) := by
  have htouched : SynStep now s (touchRx c now s) := setCh_synStep
  unfold execRx
  split_ifs
  · exact ensures_next.2 (.refl now s)
  · exact (decoderByte_sequencerKept ..).mono fun t ht => htouched.trans (ht.synStep now)
  · refine (handshakeByte_synStep ..).andThen fun u hu => ?_
    have hmoved := htouched.trans hu
    exact (settle_synStep (hmoved.cfg ▸ hapart) c now).mono fun t ht => hmoved.trans ht

theorem retract_synStep (c : Chan) (s : State) : SynStep now s (retract c s) :=
  .of_ch_eq (retract_cfg c s) (retract_clock c s) (retract_events c s) (retract_ch c s)

theorem inactivityCheck_synStep (c : Chan) (now : Nat) (s : State) : SynStep now s (inactivityCheck c now s) := by
  unfold inactivityCheck
  split
  · exact SynStep.trans setCh_synStep (retract_synStep c _)
  · exact .refl now s

theorem execPoll_synStep (hapart : s.cfg.bAck ≠ s.cfg.bSyn) (now : Nat) :
    Ensures (execPoll now s) (SynStep now s) := by
  have hsettled : Ensures (forActive (fun c u => settle c now u) s) (SynStep now s) :=
    forActive_ensures (.refl now s) fun c u _ hu =>
      (settle_synStep (hu.cfg ▸ hapart) c now).mono fun t ht => hu.trans ht
  refine hsettled.andThen fun u hu => forActive_ensures ?_ fun c t _ ht => ensures_next.2 ?_
  · exact (hu.trans ((relayEval_sequencerKept now u).synStep now)).trans
      ((debounceFlush_sequencerKept now _).synStep now)
  · exact ht.trans (inactivityCheck_synStep c now t)

theorem recount_synStep (old k : Nat) (c : Chan) (now : Nat) (s : State) : SynStep now s (recount old k c now s) := by
  unfold recount
  split_ifs
  · exact SynStep.trans setCh_synStep (retract_synStep c _)
  · exact setCh_synStep
  · exact .refl now s

theorem execAdminSetActiveCount_synStep (k now : Nat) (s : State) :
    Ensures (execAdminSetActiveCount k now s) (SynStep now s) := by
  unfold execAdminSetActiveCount
  split
  · have hcount : SynStep now s { s with nActive := k } := .of_ch_eq rfl rfl rfl fun d => by cases d <;> rfl
    exact ensures_next.2 ((hcount.trans (recount_synStep ..)).trans (recount_synStep ..))
  · exact ensures_next.2 (.refl now s)

theorem adminOp_synStep (op : AdminOp) (now : Nat) (s : State) : Ensures (exec (op.instr now) s) (SynStep now s) := by
  by_cases hop : ∃ k, op = .setActiveCount k
  · obtain ⟨k, rfl⟩ := hop
    exact execAdminSetActiveCount_synStep k now s
  · exact (adminOp_sequencerKept (fun k hk => hop ⟨k, hk⟩) now s).mono fun t ht => ht.synStep now

/-- The instruction of every input that carries a time, which a `RESET` does not (R54). -/
theorem exec_decodeInput_synStep (hapart : s.cfg.bAck ≠ s.cfg.bSyn) {i : Input} {j : Instr}
    (htime : inputTime i = some now) (hdec : decodeInput i = some j) : Ensures (exec j s) (SynStep now s) := by
  cases i with
  | reset t0 => cases htime
  | rx c b now => cases htime; cases hdec; exact execRx_synStep hapart c b _
  | poll now => cases htime; cases hdec; exact execPoll_synStep hapart _
  | admin op now => cases htime; cases hdec; exact adminOp_synStep op _ s
  | line c level now => cases hdec

/-! ### The statement -/

/-- What a step made of its input at time `now` is the same seen from before the input was taken, but for the clock. -/
theorem SynStep.of_popInput {i : Input} {rest : List Input} {evs : List Event} (htime : inputTime i = some now)
    (h : SynStep now (popInput i rest s) t) (hevs : t.events = s.events ++ evs) (d : Chan) :
    SynRecord t.clock (Event.tx d [s.cfg.bSyn] ∈ evs) (s.ch d) (t.ch d) := by
  have hclock : t.clock = now := by rw [h.clock, popInput, htime]; rfl
  obtain ⟨evs', hevs', hrecord⟩ := h.sent
  obtain rfl : evs = evs' := List.append_cancel_left (hevs.symm.trans hevs')
  rw [hclock, ← popInput_ch i rest s d]
  exact hrecord d

/-- Settles O11: a `RESET` emits nothing; every other step is a `SynStep` at its input's time. -/
theorem synSpacing : Obligations.SynSpacing := by
  intro s t c evs hinv hstep hevs
  have hapart := Cfg.bAck_ne_bSyn_of_wf hinv.cfgWf
  rcases step_cases hstep with ⟨_, rfl⟩ | ⟨x, rest, i, hinput, _, hdec, hexec⟩ | ⟨d, level, now, rest, _, _, hline⟩
  · obtain rfl : evs = [] := List.self_eq_append_right.1 hevs
    exact SynRecord.spacing (.inr ⟨List.not_mem_nil, rfl, rfl⟩)
  · cases htime : inputTime x with
    | some now =>
      have hrun := (exec_decodeInput_synStep (s := popInput x rest s) hapart htime hdec).of_eq_next hexec
      exact (hrun.of_popInput htime hevs c).spacing
    | none =>
      cases x with
      | reset t0 =>
        cases hdec
        cases hexec
        obtain rfl : evs = [] := List.self_eq_append_right.1 hevs
        exact ⟨fun hsent => absurd hsent List.not_mem_nil, fun _ => .inr ⟨t0, rest, hinput⟩⟩
      | rx c b now | poll now | admin op now | line c level now => cases htime
  · have hsampled := (sampled_sequencerKept d level now rest s).synStep now
    refine (SynStep.of_popInput (i := .line d level now) (rest := rest) rfl ?_ hevs c).spacing
    rcases hline with rfl | ⟨b, _, hrun⟩
    · exact hsampled
    · exact hsampled.trans ((execRx_synStep (hsampled.cfg ▸ hapart) d b now).of_eq_next hrun)

end Sys2Proof.Machine
end

