-- ==== Sys2Proof/Proofs/FrameDecoder.lean ====
section
/-! The decoder's rows (R190 to R204): the moves that store no byte, the append by its four outcomes (overflow, stored,
bad checksum, dispatched), and the delimiters inside a frame, which flush and then restart the decoder. -/

namespace Sys2Proof.Machine

variable {s t : State} {c : Chan} {v : Byte} {e : Bool} {now : Nat}

/-! ### Raising a condition (R384) -/

theorem raise_transmits (c : Chan) (k : ErrKind) (s : State) :
    TransmitsAndSets c (.report c k) { s.ch c with dec := .awaitMarker, esc := false, n := 0 } s (raise c k s) := by
  rw [raise_eq]
  exact setCh_emit_transmitsAndSets _

/-- A raise clears the escape flag, so it forgets what the flag was. -/
theorem raise_setEsc (c : Chan) (k : ErrKind) (e : Bool) (s : State) : raise c k (setEsc c e s) = raise c k s := by
  cases c <;> rfl

/-! ### Storing a byte (R200) -/

theorem setEsc_self (c : Chan) (s : State) : setEsc c (s.ch c).esc s = s := setCh_self s c

/-- Both rows that append write the escape flag first: an unescaped byte leaves it as it is (R204). -/
theorem exec_decIfData (c : Chan) (b : Byte) (now : Nat) (s : State) :
    exec (.decIfData c b now) s = appendByte c b now (setEsc c (s.ch c).esc s) := by
  rw [setEsc_self]
  rfl

/-- An escaped marker byte clears it (R197). -/
theorem exec_decEscMarker (c : Chan) (now : Nat) (s : State) :
    exec (.decEscMarker c now) s = appendByte c 0x10#8 now (setEsc c false s) := rfl

/-- The escape flag and the store are two writes of one record. -/
theorem pushByte_setEsc (c : Chan) (v : Byte) (e : Bool) (s : State) :
    pushByte c v (setEsc c e s) = s.setCh c { s.ch c with
      esc := e, buf := Memory.write (s.ch c).buf (s.ch c).n v, n := (s.ch c).n + 1 } := by
  simp [pushByte, setEsc]

@[simp] theorem bufBytes_setEsc (c : Chan) (e : Bool) (s : State) : bufBytes (setEsc c e s) c = bufBytes s c := by
  simp [bufBytes]

@[simp] theorem bufByte_setEsc (c : Chan) (e : Bool) (s : State) (i : Nat) : bufByte (setEsc c e s) c i = bufByte s c i := by
  simp [bufByte]

section
variable (hbuf : Memory.wf (s.ch c).buf = true)
include hbuf

theorem bufByte_pushByte (v : Byte) (i : Nat) :
    bufByte (pushByte c v s) c i = if i = (s.ch c).n then v else bufByte s c i := by
  rw [bufByte, pushByte_ch_self, bufByte]
  exact Memory.read_write _ _ _ _ hbuf

theorem bufBytes_pushByte (v : Byte) : bufBytes (pushByte c v s) c = bufBytes s c ++ [v] := by
  have hlast := Memory.read_write (s.ch c).buf (s.ch c).n v (s.ch c).n hbuf
  have hbefore : Memory.readBytes (Memory.write (s.ch c).buf (s.ch c).n v) 0 (s.ch c).n = bufBytes s c :=
    Memory.readBytes_congr _ _ _ _ fun k _ hk => by
      rw [Memory.read_write _ _ _ _ hbuf, if_neg (by omega)]
  rw [bufBytes, pushByte_ch_self, Memory.readBytes_succ, Nat.zero_add, hlast, if_pos rfl, hbefore]

/-- The stored byte completes the frame when the header was buffered and declares one byte more than there was (R202). -/
theorem atNeed_pushByte_iff :
    atNeed (pushByte c v s) c = true ↔ 5 ≤ (s.ch c).n ∧ (s.ch c).n = 5 + (bufByte s c 4).toNat := by
  simp only [atNeed, need, hdrLen, bufByte_pushByte hbuf, pushByte_ch_self, Bool.and_eq_true, decide_eq_true_eq]
  split <;> omega

end

/-! ### The outcomes of an append (R200, R202) -/

theorem appendByte_of_full (h : s.cfg.bufCap ≤ (s.ch c).n) : appendByte c v now s = .next (raise c .overflow s) :=
  if_pos h

theorem appendByte_of_unfinished (hbuf : Memory.wf (s.ch c).buf = true) (hroom : (s.ch c).n < s.cfg.bufCap)
    (hopen : (s.ch c).n < 5 ∨ (s.ch c).n ≠ 5 + (bufByte s c 4).toNat) :
    appendByte c v now s = .next (pushByte c v s) := by
  have hneed : ¬ atNeed (pushByte c v s) c = true := by
    rw [atNeed_pushByte_iff hbuf]
    omega
  rw [appendByte, if_neg hroom.not_ge, checkComplete, if_neg hneed]

/-- The buffer is one byte short of the size its header declares, and has room for that byte (R28, R202). -/
structure OneShort (c : Chan) (s : State) : Prop where
  bufForm : Memory.wf (s.ch c).buf = true
  room : (s.ch c).n < s.cfg.bufCap
  header : 5 ≤ (s.ch c).n
  declared : (s.ch c).n = 5 + (bufByte s c 4).toNat

theorem OneShort.setEsc (h : OneShort c s) (e : Bool) : OneShort c (setEsc c e s) where
  bufForm := by simpa using h.bufForm
  room := by simpa using h.room
  header := by simpa using h.header
  declared := by simpa using h.declared

theorem OneShort.atNeed_pushByte (h : OneShort c s) (v : Byte) : atNeed (pushByte c v s) c = true :=
  (atNeed_pushByte_iff h.bufForm).2 ⟨h.header, h.declared⟩

theorem OneShort.appendByte_eq (h : OneShort c s) (v : Byte) (now : Nat) :
    appendByte c v now s = if checksum (bufBytes s c) = v
      then dispatch c (frameOf (bufBytes s c ++ [v])) now (pushByte c v s)
      else .next (raise c .checksumMismatch (pushByte c v s)) := by
  rw [appendByte, if_neg h.room.not_ge, checkComplete, if_pos (h.atNeed_pushByte v), bufBytes_pushByte h.bufForm]
  simp only [verify_concat]

/-! ### Dispatching a frame (R230) -/

/-- Dispatching runs the instruction the frame decodes to, read under the same configuration and address (R114). -/
theorem dispatch_eq_exec (hcfg : t.cfg = s.cfg) (haddr : (t.ch c).addr = (s.ch c).addr) (f : Frame) (now : Nat) :
    dispatch c f now t = exec (decodeFrame (s.ctx c) c f now) (touchFor c f now t) := by
  rw [dispatch, runFrame_eq_exec, hcfg, haddr]
  rfl

/-! ### The outcomes of a flush (R203) -/

theorem flushBestEffort_of_idle (h : complete s c = true ∨ (s.ch c).n < 6) : flushBestEffort c now s = .next s := by
  rcases h with h | h
  · exact flushBestEffort_of_complete now h
  · rw [flushBestEffort, if_neg (show ¬ minFlush ≤ (s.ch c).n from h.not_ge), ite_self]

theorem flushBestEffort_of_incomplete (h : complete s c = false) (hlen : 6 ≤ (s.ch c).n) :
    flushBestEffort c now s = if verify (bufBytes s c) = true then dispatch c (frameOf (bufBytes s c)) now s
      else .next (report c .checksumMismatch s) := by
  rw [flushBestEffort, if_neg (by rw [h]; exact Bool.false_ne_true), if_pos hlen]

/-- `dec <- d` with an empty buffer and no escape: what `resync` (R206) and `fresh_frame` (R193) both are. -/
def restart (c : Chan) (d : DecState) (s : State) : State :=
  s.setCh c { s.ch c with dec := d, esc := false, n := 0 }

theorem exec_decEscEnd (c : Chan) (now : Nat) (s : State) :
    exec (.decEscEnd c now) s = andThen (flushBestEffort c now s) fun u => .next (restart c .awaitMarker u) := rfl

theorem exec_decEscStart (c : Chan) (now : Nat) (s : State) :
    exec (.decEscStart c now) s = andThen (flushBestEffort c now s) fun u => .next (restart c .inFrame u) := rfl

theorem restart_report_transmits (c : Chan) (d : DecState) (k : ErrKind) (s : State) :
    TransmitsAndSets c (.report c k) { s.ch c with dec := d, esc := false, n := 0 } s
      (restart c d (report c k s)) := by
  rw [restart, report_ch]
  exact setCh_emit_transmitsAndSets _

/-- What `t` is after a flush of `s` that restarts the decoder in state `d`, by what the flush did. -/
def FlushedInto (d : DecState) (c : Chan) (now : Nat) (s t : State) : Prop :=
  (complete s c = true ∨ (s.ch c).n < 6 →
    OnlyChannel c { s.ch c with dec := d, esc := false, n := 0 } s t)
  ∧ (complete s c = false → 6 ≤ (s.ch c).n → verify (bufBytes s c) = false →
    t.ch c = { s.ch c with dec := d, esc := false, n := 0 }
      ∧ SharedKept s t ∧ BytesKept s t ∧ Emits s t [.report c .checksumMismatch])
  ∧ (complete s c = false → 6 ≤ (s.ch c).n → verify (bufBytes s c) = true →
    ∃ u, exec (decodeFrame (s.ctx c) c (frameOf (bufBytes s c)) now)
        (touchFor c (frameOf (bufBytes s c)) now s) = .next u
      ∧ t = u.setCh c { u.ch c with dec := d, esc := false, n := 0 })

theorem flushedInto_restart {u : State} (h : flushBestEffort c now s = .next u) (d : DecState) :
    FlushedInto d c now s (restart c d u) := by
  refine ⟨fun hidle => ?_, fun hopen hlen hverify => ?_, fun hopen hlen hverify => ?_⟩
  · rw [flushBestEffort_of_idle hidle] at h
    cases h
    exact setCh_onlyChannel
  · rw [flushBestEffort_of_incomplete hopen hlen, if_neg (by rw [hverify]; exact Bool.false_ne_true)] at h
    cases h
    obtain ⟨hch, hemits, -, hshared, hbytes⟩ := restart_report_transmits c d .checksumMismatch s
    exact ⟨hch, hshared, hbytes, hemits⟩
  · rw [flushBestEffort_of_incomplete hopen hlen, if_pos hverify, dispatch_eq_exec rfl rfl] at h
    exact ⟨u, h, rfl⟩

/-- A flush followed by a restart: R198 and R199, which differ in the state they restart in. -/
theorem flush_restart (d : DecState) (c : Chan) (now : Nat) (s : State) :
    Ensures (andThen (flushBestEffort c now s) fun u => .next (restart c d u)) fun t =>
      (t.ch c).dec = d ∧ (t.ch c).esc = false ∧ (t.ch c).n = 0 ∧ (t.ch c).hs = (s.ch c).hs
      ∧ OtherKept c s t ∧ EnvKept s t ∧ FlushedInto d c now s t := by
  obtain ⟨u, hflush, hrx, hseq⟩ := (flushBestEffort_rxKeeps c now s).and (flushBestEffort_sequencerKept c now s)
  rw [hflush, andThen_next, ensures_next]
  refine ⟨?_, ?_, ?_, ?_, fun d' hd' => ?_, hrx.env.trans (setCh_sharedKept u c _).1, flushedInto_restart hflush d⟩
  · rw [restart, setCh_ch_self]
  · rw [restart, setCh_ch_self]
  · rw [restart, setCh_ch_self]
  · rw [restart, setCh_ch_self]
    exact hseq.hs c
  · exact (setCh_ch_other _ _ _ _ hd').trans (hrx.other d' hd')

/-! ### What an append leaves -/

theorem appendByte_stores (hbuf : Memory.wf (s.ch c).buf = true) (hroom : (s.ch c).n < s.cfg.bufCap)
    (hopen : (s.ch c).n < 5 ∨ (s.ch c).n ≠ 5 + (bufByte s c 4).toNat) :
    Ensures (appendByte c v now (setEsc c e s)) fun t =>
      t.ch c = { s.ch c with buf := (t.ch c).buf, n := (s.ch c).n + 1, esc := e }
      ∧ (∀ a, Memory.read (t.ch c).buf a = if a = (s.ch c).n then v else Memory.read (s.ch c).buf a)
      ∧ Memory.wf (t.ch c).buf = true
      ∧ OtherKept c s t ∧ SharedKept s t ∧ Emits s t [] := by
  rw [appendByte_of_unfinished (by simpa using hbuf) (by simpa using hroom) (by simpa using hopen), pushByte_setEsc,
    ensures_next, setCh_ch_self]
  exact ⟨rfl, fun a => Memory.read_write _ _ _ a hbuf, Memory.wf_write _ _ _ hbuf, setCh_otherKept _ _ _,
    setCh_sharedKept .., (setCh_events ..).trans (List.append_nil _).symm⟩

theorem OneShort.appendByte_discards (h : OneShort c s) (hsum : checksum (bufBytes s c) ≠ v) :
    Ensures (appendByte c v now (Machine.setEsc c e s)) fun t =>
      t.ch c = { s.ch c with dec := .awaitMarker, esc := false, n := 0, buf := (t.ch c).buf }
      ∧ (∀ a, a ≠ (s.ch c).n → Memory.read (t.ch c).buf a = Memory.read (s.ch c).buf a)
      ∧ Emits s t [.report c .checksumMismatch] ∧ OtherKept c s t ∧ SharedKept s t := by
  rw [(h.setEsc e).appendByte_eq, if_neg (by rwa [bufBytes_setEsc]), pushByte_setEsc, ensures_next]
  obtain ⟨hch, hemits, hother, hshared, -⟩ := raise_transmits c .checksumMismatch (s.setCh c { s.ch c with
    esc := e, buf := Memory.write (s.ch c).buf (s.ch c).n v, n := (s.ch c).n + 1 })
  rw [setCh_ch_self] at hch
  rw [Emits, setCh_events] at hemits
  refine ⟨by rw [hch], fun a ha => ?_, hemits, fun d hd => ?_, (setCh_sharedKept ..).trans hshared⟩
  · rw [hch]
    exact (Memory.read_write _ _ _ a h.bufForm).trans (if_neg ha)
  · exact (hother d hd).trans (setCh_ch_other _ _ _ _ hd)

/-- A dispatch keeps the buffer and the decoder, so the frame it ran is still there, complete. -/
theorem OneShort.appendByte_dispatches (h : OneShort c s) (hdec : (s.ch c).dec = .inFrame)
    (hsum : checksum (bufBytes s c) = v) :
    Ensures (appendByte c v now (Machine.setEsc c e s)) fun t =>
      exec (decodeFrame (s.ctx c) c (frameOf (bufBytes s c ++ [v])) now)
          (touchFor c (frameOf (bufBytes s c ++ [v])) now (pushByte c v (Machine.setEsc c e s))) = .next t
      ∧ complete t c = true ∧ (t.ch c).n = (s.ch c).n + 1 ∧ (t.ch c).hs = (s.ch c).hs := by
  obtain ⟨t, hrun, hkeeps⟩ :=
    dispatch_next c (frameOf (bufBytes s c ++ [v])) now (pushByte c v (Machine.setEsc c e s))
  refine ⟨t, ?_, ?_, ?_, by simpa using hkeeps.n, by simpa using hkeeps.hs⟩
  · rw [(h.setEsc e).appendByte_eq, if_pos (by rwa [bufBytes_setEsc]), bufBytes_setEsc, hrun]
  · rw [← hrun, dispatch_eq_exec (s := s) (by simp) (by simp)]
  · rw [complete_congr hkeeps.dec hkeeps.n hkeeps.buf]
    exact complete_of_atNeed (by simpa using hdec) ((h.setEsc e).atNeed_pushByte v)

/-! ### The statements -/

/-- Settles O12: each row is one write of the decoder's registers. -/
theorem decoderMoves : Obligations.DecoderMoves := fun _ _ _ =>
  ⟨⟨_, rfl, setCh_onlyChannel⟩, ⟨_, rfl, setCh_onlyChannel⟩, ⟨_, rfl, setCh_onlyChannel⟩,
    ⟨_, rfl, setCh_onlyChannel⟩⟩

/-- Settles O14: each row writes the escape flag, then appends. -/
theorem appendStoresByte : Obligations.AppendStoresByte := by
  intro c b now s hbuf hroom i v e hi hopen
  rcases hi with ⟨rfl, rfl, rfl⟩ | ⟨rfl, rfl, rfl⟩
  · rw [exec_decIfData]
    exact appendByte_stores hbuf hroom hopen
  · rw [exec_decEscMarker]
    exact appendByte_stores hbuf hroom hopen

/-- Settles O15: the raise also undoes what the row wrote to the escape flag. -/
theorem fullBufferOverflows : Obligations.FullBufferOverflows := by
  intro c b now s hfull i hi
  have happend (v : Byte) (e : Bool) : appendByte c v now (setEsc c e s) = .next (raise c .overflow s) := by
    rw [appendByte_of_full (by simpa using hfull), raise_setEsc]
  refine ⟨raise c .overflow s, ?_, raise_transmits c .overflow s⟩
  rcases hi with rfl | rfl
  · rw [exec_decIfData, happend]
  · rw [exec_decEscMarker, happend]

/-- Settles O16, row by row as O14. -/
theorem badChecksumDiscards : Obligations.BadChecksumDiscards := by
  intro c b now s hbuf hroom hheader hdeclared i v hi hsum
  have hshort : OneShort c s := ⟨hbuf, hroom, hheader, hdeclared⟩
  rcases hi with ⟨rfl, rfl⟩ | ⟨rfl, rfl⟩
  · rw [exec_decIfData]
    exact hshort.appendByte_discards hsum
  · rw [exec_decEscMarker]
    exact hshort.appendByte_discards hsum

/-- Settles O17, row by row as O14; an unescaped byte is stored in `s` itself. -/
theorem goodFrameDispatches : Obligations.GoodFrameDispatches := by
  intro c b now s hbuf hroom hdec hheader hdeclared i v s1 hi hsum
  have hshort : OneShort c s := ⟨hbuf, hroom, hheader, hdeclared⟩
  rcases hi with ⟨rfl, rfl, rfl⟩ | ⟨rfl, rfl, rfl⟩
  · have hrun := hshort.appendByte_dispatches (e := (s.ch c).esc) (now := now) hdec hsum
    rwa [setEsc_self] at hrun
  · exact hshort.appendByte_dispatches hdec hsum

/-- Settles O18: the end delimiter restarts the decoder outside a frame. -/
theorem endDelimiter : Obligations.EndDelimiter := by
  intro c now s
  rw [exec_decEscEnd]
  exact flush_restart .awaitMarker c now s

/-- Settles O19: the start byte restarts it inside one. -/
theorem startInsideFrame : Obligations.StartInsideFrame := by
  intro c now s
  rw [exec_decEscStart]
  exact flush_restart .inFrame c now s

end Sys2Proof.Machine
end

