-- ==== Sys2Proof/Proofs/Resynchronisation.lean ====
section
/-! R208: what two delimiters do to a decoder whose state is not known. After the byte 0x03 no escape is pending, whatever
came before; the next marker byte then begins a delimiter, and the byte 0x02 opens a fresh frame. -/

namespace Sys2Proof.Machine

variable {s : State} {c : Chan} {b : Byte} {now : Nat} {P : Channel → Prop}

/-- No escape is pending: the next marker byte is not itself escaped (R26). -/
def Channel.Unescaped (x : Channel) : Prop := x.dec = .inFrame → x.esc = false

/-- A marker byte was read that the next byte may make a delimiter (R191, R196). -/
def Channel.Armed (x : Channel) : Prop := x.dec = .awaitStart ∨ x.dec = .inFrame ∧ x.esc = true

/-- A frame was just opened (R193). -/
def Channel.Fresh (x : Channel) : Prop := x.dec = .inFrame ∧ x.n = 0 ∧ x.esc = false

/-! ### What the decoder makes of the bytes of a delimiter -/

theorem Channel.unescaped_of_awaitMarker {x : Channel} (h : x.dec = .awaitMarker) : x.Unescaped := by
  intro hdec
  rw [h] at hdec
  cases hdec

/-- Whatever an unescaped append does, it leaves no escape pending. -/
theorem appendByte_unescaped (v : Byte) (now : Nat) (hesc : (s.ch c).esc = false) :
    Ensures (appendByte c v now s) fun t => (t.ch c).Unescaped := by
  have hraise (k : ErrKind) (u : State) : ((raise c k u).ch c).Unescaped :=
    Channel.unescaped_of_awaitMarker (by rw [(raise_transmits c k u).1])
  rcases appendByte_cases c v now s with ⟨_, hres⟩ | ⟨_, hres⟩ <;> rw [hres]
  · exact ensures_next.2 (hraise _ _)
  · rcases checkComplete_cases c now (pushByte c v s) with ⟨_, hres⟩ | ⟨_, _, hres⟩ | ⟨_, _, hres⟩ <;> rw [hres]
    · exact ensures_next.2 fun _ => by simpa using hesc
    · obtain ⟨t, hrun, hkeeps⟩ := dispatch_next c (frameOf (bufBytes (pushByte c v s) c)) now (pushByte c v s)
      exact ⟨t, hrun, fun _ => by simpa [hkeeps.esc] using hesc⟩
    · exact ensures_next.2 (hraise _ _)

/-- From any decoder state: the byte 0x03 is ignored or dropped outside a frame, appended inside one, and ends it behind an
escape. -/
theorem decoderByte_end_unescaped (c : Chan) (now : Nat) (s : State) :
    Ensures (decoderByte c endByte now s) fun t => (t.ch c).Unescaped := by
  unfold decoderByte
  cases hdec : (s.ch c).dec with
  | awaitMarker => exact ensures_next.2 (Channel.unescaped_of_awaitMarker hdec)
  | awaitStart => exact ensures_next.2 (Channel.unescaped_of_awaitMarker (by rw [setDec_ch_self]))
  | inFrame =>
    cases hesc : (s.ch c).esc with
    | false => exact appendByte_unescaped endByte now hesc
    | true => exact (flush_restart .awaitMarker c now s).mono fun t ht => Channel.unescaped_of_awaitMarker ht.1

theorem decoderByte_marker_armed (now : Nat) (h : (s.ch c).Unescaped) :
    Ensures (decoderByte c markerByte now s) fun t => (t.ch c).Armed := by
  unfold decoderByte
  cases hdec : (s.ch c).dec with
  | awaitMarker => exact ensures_next.2 (.inl (by rw [setDec_ch_self]))
  | awaitStart => exact ensures_next.2 (.inl hdec)
  | inFrame =>
    rw [h hdec]
    exact ensures_next.2 (.inr (by rw [setEsc_ch_self]; exact ⟨hdec, rfl⟩))

theorem decoderByte_start_fresh (now : Nat) (h : (s.ch c).Armed) :
    Ensures (decoderByte c startByte now s) fun t => (t.ch c).Fresh := by
  unfold decoderByte
  rcases h with hdec | ⟨hdec, hesc⟩
  · rw [hdec]
    exact ensures_next.2 (by rw [freshFrame_ch_self]; exact ⟨rfl, rfl, rfl⟩)
  · rw [hdec, hesc]
    exact (flush_restart .inFrame c now s).mono fun t ⟨hdec', hesc', hn, _⟩ => ⟨hdec', hn, hesc'⟩

/-! ### The bytes received in frame mode -/

/-- A channel whose bytes the decoder takes (R33, R141). -/
def Decoding (c : Chan) (s : State) : Prop := s.active c = true ∧ (s.ch c).hs = .frameModeActive

theorem execRx_keeps_decoding (c : Chan) (b : Byte) (now : Nat) (h : Decoding c s) :
    Ensures (execRx c b now s) (Decoding c) := by
  obtain ⟨hact, hhs⟩ := h
  obtain ⟨t, hrun, hhs'⟩ := execRx_keeps_frameMode c b now hhs
  obtain ⟨-, -, ⟨-, hcount, -⟩, -⟩ := execRx_frame hact hrun
  exact ⟨t, hrun, (active_congr hcount c).trans hact, hhs'⟩

/-- What the decoder makes of a byte is what its reception makes of the channel. -/
theorem execRx_of_decoderByte (h : Decoding c s)
    (hbyte : Ensures (decoderByte c b now (touchRx c now s)) fun t => P (t.ch c)) :
    Ensures (execRx c b now s) fun t => Decoding c t ∧ P (t.ch c) := by
  refine (execRx_keeps_decoding c b now h).and ?_
  rwa [execRx_of_frameMode b now h.1 h.2]

/-- Settles O21: byte by byte, from any decoder state to no escape pending, to a delimiter begun, to a fresh frame. -/
theorem resyncLiveness : Obligations.ResyncLiveness := by
  intro c s t1 t2 t3 t4 hact hhs
  refine (execRx_keeps_decoding c markerByte t1 ⟨hact, hhs⟩).andThen fun s1 h1 => ?_
  refine (execRx_of_decoderByte h1 (decoderByte_end_unescaped c t2 _)).andThen fun s2 ⟨h2, hunescaped⟩ => ?_
  have hmarker := decoderByte_marker_armed (s := touchRx c t3 s2) (c := c) t3 (by rwa [touchRx_ch_self])
  refine (execRx_of_decoderByte h2 hmarker).andThen fun s3 ⟨h3, harmed⟩ => ?_
  have hstart := decoderByte_start_fresh (s := touchRx c t4 s3) (c := c) t4 (by rwa [touchRx_ch_self])
  refine (execRx_of_decoderByte h3 hstart).andThen fun t ⟨ht, hfresh⟩ => ?_
  exact ensures_next.2 ⟨ht.2, hfresh⟩

end Sys2Proof.Machine
end

