-- ==== Sys2Proof/Proofs/FrameRows.lean ====
section
/-! The dispatcher (R230 to R238): when it touches `t_idle` (`SetsIdle`), that no row writes `t_idle` after it, and the
rows answered from fixed parameters. Such a row rewrites one channel record and replies (`TransmitsAndSets`); an adoption
emits its save before that. -/

namespace Sys2Proof.Machine

variable {s t : State} {c : Chan} {x : Channel} {e e' : Event} {dst : Byte}

/-! ### A reply and the channel record (R156) -/

theorem emit_setCh (e : Event) (c : Chan) (x : Channel) (s : State) :
    emit e (s.setCh c x) = (emit e s).setCh c x := by
  cases c <;> rfl

/-- A reply after the record was rewritten goes out from the address it then holds. -/
theorem reply_setCh_transmits (dst fid ctl : Byte) (data : List Byte) (now : Nat)
    (hbuf : x.buf = (s.ch c).buf := by rfl) (hidentity : x.identity = (s.ch c).identity := by rfl) :
    TransmitsAndSets c (.tx c (encodeFrame x.addr dst fid ctl data)) { x with tReply := now } s
      (reply c dst fid ctl data now (s.setCh c x)) := by
  rw [reply, emit_ch, setCh_ch_self, emit_setCh, setCh_setCh]
  exact setCh_emit_transmitsAndSets _ hbuf hidentity

/-- A write of the link after the reply is one more write of the same record (R237, R238). -/
theorem setLink_reply_transmits (c : Chan) (v : Link) (dst fid ctl : Byte) (data : List Byte) (now : Nat) (s : State) :
    TransmitsAndSets c (.tx c (encodeFrame (s.ch c).addr dst fid ctl data)) { s.ch c with link := v, tReply := now } s
      (setLink c v (reply c dst fid ctl data now s)) := by
  rw [setLink, reply_ch_self, reply, setCh_setCh]
  exact setCh_emit_transmitsAndSets _

/-- An event emitted first comes first, and changes nothing else. -/
theorem TransmitsAndSets.after_emit (h : TransmitsAndSets c e x (emit e' s) t) :
    t.ch c = x ∧ Emits s t [e', e] ∧ OtherKept c s t ∧ SharedKept s t ∧ BytesKept s t := by
  obtain ⟨hch, hemits, hother, hshared, hbytes⟩ := h
  refine ⟨hch, ?_, fun d hd => ?_, hshared, fun d a => ?_⟩
  · rw [Emits, hemits, emit_events, List.append_assoc, List.singleton_append]
  · rw [hother d hd, emit_ch]
  · simpa only [emit_ch] using hbytes d a

/-! ### The idle touch (R236) -/

/-- The frames whose dispatch refreshes `t_idle`: an intake-activation code under the application frame-id, for us. -/
abbrev SetsIdle (c : Chan) (f : Frame) (s : State) : Prop :=
  f.fid = s.cfg.fidApp ∧ f.fid ≠ s.cfg.fidHs ∧ (f.dst = 0x00#8 ∨ f.dst = (s.ch c).addr)
    ∧ s.cfg.isIntakeActCode f.ctl = true

theorem forUs_iff (addr dst : Byte) : forUs addr dst = true ↔ dst = 0x00#8 ∨ dst = addr := by simp [forUs]

theorem touchFor_eq (c : Chan) (f : Frame) (now : Nat) (s : State) :
    touchFor c f now s = if SetsIdle c f s then s.setCh c { s.ch c with tIdle := now } else s := by
  rw [touchFor, idleTouch, ← ite_and]
  refine if_congr ?_ rfl rfl
  rw [SetsIdle, forUs_iff]
  tauto

theorem touchFor_tIdle (c : Chan) (f : Frame) (now : Nat) (s : State) :
    ((touchFor c f now s).ch c).tIdle = if SetsIdle c f s then now else (s.ch c).tIdle := by
  rw [touchFor_eq]
  split <;> simp

/-! ### No row writes `t_idle` -/

theorem adoptAddress_tIdle (c : Chan) (dst : Byte) (s : State) :
    ((adoptAddress c dst s).ch c).tIdle = (s.ch c).tIdle := by
  unfold adoptAddress
  split <;> simp

theorem tableWrite_tIdle (n : WName) (h : Hdr) (v : Nat) (s : State) :
    ((tableWrite n h v s).ch h.c).tIdle = (s.ch h.c).tIdle := by
  simp [tableWrite, ack_eq]

theorem runFrame_tIdle (sel : FrameSel) (h : Hdr) (data : List Byte) (s : State) :
    Ensures (runFrame sel h data s) fun t => (t.ch h.c).tIdle = (s.ch h.c).tIdle := by
  have hreply (v : State) (dst fid ctl : Byte) (d : List Byte) :
      ((reply h.c dst fid ctl d h.now v).ch h.c).tIdle = (v.ch h.c).tIdle := by rw [reply_ch_self]
  have hlink (v : State) (l : Link) : ((setLink h.c l v).ch h.c).tIdle = (v.ch h.c).tIdle := by rw [setLink_ch_self]
  have hnoted (v : State) : ((noteHandshake h.c h.src v).ch h.c).tIdle = (v.ch h.c).tIdle := by
    rw [noteHandshake_ch_self]
  have hstored : ((storeIdentity h.c data s).ch h.c).tIdle = (s.ch h.c).tIdle := by rw [storeIdentity_ch_self]
  cases sel with
  | hs => exact ensures_next.2 ((hreply ..).trans ((hnoted _).trans (adoptAddress_tIdle ..)))
  | notForUs => exact ensures_next.2 rfl
  | fwId => exact ensures_next.2 ((hlink ..).trans (hreply ..))
  | idRead => exact ensures_next.2 ((hlink ..).trans (hreply ..))
  | write w =>
    cases w with
    | identity => exact ensures_next.2 ((hreply ..).trans hstored)
    | fwNop => exact ensures_next.2 (hreply ..)
    | entry n k => exact ⟨_, runWrite_eq n h _ (valueAt_lt n k data) s, tableWrite_tIdle ..⟩
  | read n k => exact ⟨_, runRead_eq n h _ s, hreply ..⟩
  | unknown => exact ensures_next.2 rfl

/-- After a dispatch `t_idle` is what the touch before the row made it (R230). -/
theorem dispatch_tIdle (c : Chan) (f : Frame) (now : Nat) (s : State) :
    Ensures (dispatch c f now s) fun t => (t.ch c).tIdle = if SetsIdle c f s then now else (s.ch c).tIdle :=
  (runFrame_tIdle _ (f.hdr c now) f.data _).mono fun _ ht => ht.trans (touchFor_tIdle c f now s)

/-! ### The adoption of an address (R233) -/

/-- The destination of a handshake frame becomes the channel's address. -/
abbrev AdoptsAddress (c : Chan) (dst : Byte) (s : State) : Prop :=
  (s.ch c).locked = false ∧ dst ≠ 0x00#8 ∧ dst ≠ 0xFF#8

/-- The adoption as one write of the record after the save; the events do not depend on the record. -/
theorem adoptAddress_of_adopts (h : AdoptsAddress c dst s) :
    adoptAddress c dst s
      = (emit (.persist (.saveAddress c dst)) s).setCh c { s.ch c with addr := dst, locked := true } :=
  (if_pos h).trans (emit_setCh ..)

theorem adoptAddress_of_not_adopts (h : ¬ AdoptsAddress c dst s) : adoptAddress c dst s = s := if_neg h

/-- Adoption, peer and link are writes of one record before the reply, so the reply carries the adopted address. -/
theorem execFrmHs_of_adopts {h : Hdr} (hadopts : AdoptsAddress h.c h.dst s) (data : List Byte) :
    Ensures (execFrmHs h data s) (TransmitsAndSets h.c
      (.tx h.c (encodeFrame h.dst h.src s.cfg.fidHs s.cfg.ccHandshake [ackStatus]))
      { s.ch h.c with
        addr := h.dst, locked := true, peer := h.src
        link := if (s.ch h.c).link = .down then .connecting else (s.ch h.c).link
        tReply := h.now }
      (emit (.persist (.saveAddress h.c h.dst)) s)) := by
  rw [execFrmHs, ensures_next, adoptAddress_of_adopts hadopts, noteHandshake, setCh_ch_self, setCh_setCh]
  exact reply_setCh_transmits _ _ _ _ _ (by rw [emit_ch]) (by rw [emit_ch])

/-- Without an adoption the reply carries the address the channel has. -/
theorem execFrmHs_of_not_adopts {h : Hdr} (hkeeps : ¬ AdoptsAddress h.c h.dst s) (data : List Byte) :
    Ensures (execFrmHs h data s) (TransmitsAndSets h.c
      (.tx h.c (encodeFrame (s.ch h.c).addr h.src s.cfg.fidHs s.cfg.ccHandshake [ackStatus]))
      { s.ch h.c with
        peer := h.src
        link := if (s.ch h.c).link = .down then .connecting else (s.ch h.c).link
        tReply := h.now }
      s) := by
  rw [execFrmHs, ensures_next, adoptAddress_of_not_adopts hkeeps, noteHandshake]
  exact reply_setCh_transmits ..

/-! ### The identity bytes (R238) -/

theorem Memory.getD_readBytes : ∀ (n : Nat) (m : Memory) (a k : Nat), k < n →
    (Memory.readBytes m a n).getD k 0 = Memory.read m (a + k)
  | n + 1, m, a, 0, _ => rfl
  | n + 1, m, a, k + 1, hk => by
    rw [Memory.readBytes, List.getD_cons_succ, Memory.getD_readBytes n m (a + 1) k (by omega)]
    congr 1
    omega

/-! ### The statements -/

/-- Settles O22: a dispatch is the decoded instruction run after the touch, and no row writes `t_idle` again. -/
theorem dispatchRunsDecodedFrame : Obligations.DispatchRunsDecodedFrame := by
  intro c f now s
  have hkeeps : Ensures (dispatch c f now s) (DispatchKeeps c s) := dispatch_next c f now s
  obtain ⟨t, hrun, hframe, hidle⟩ := hkeeps.and (dispatch_tIdle c f now s)
  refine ⟨t, hrun, ?_, hidle, hframe.other⟩
  rw [← touchFor_eq, ← dispatch_eq_exec rfl rfl, hrun]

/-- Settles O23, by whether the channel adopts the destination. -/
theorem handshakeFrame : Obligations.HandshakeFrame := by
  intro h data s
  by_cases hadopts : AdoptsAddress h.c h.dst s
  · obtain ⟨t, hrun, hsets⟩ := execFrmHs_of_adopts hadopts data
    obtain ⟨hch, hemits, hframe⟩ := hsets.after_emit
    exact ⟨t, hrun, (if_pos hadopts).mpr ⟨hch, hemits⟩, hframe⟩
  · obtain ⟨t, hrun, hch, hemits, hframe⟩ := execFrmHs_of_not_adopts hadopts data
    exact ⟨t, hrun, (if_neg hadopts).mpr ⟨hch, hemits⟩, hframe⟩

/-- Settles O24: both rows reply and then set the link; they differ in the data. -/
theorem fixedReplies : Obligations.FixedReplies := by
  intro h data s
  refine ⟨⟨_, rfl, setLink_reply_transmits ..⟩, _, _, rfl, ?_, setLink_reply_transmits ..⟩
  split
  · rfl
  · refine ⟨Memory.readBytes_length .., fun k hk => ?_⟩
    exact (Memory.getD_readBytes _ _ 0 k hk).trans (by rw [Nat.zero_add])

end Sys2Proof.Machine
end

