-- ==== Sys2Proof/Proofs/WriteHandler.lean ====
section
/-! The write handler (R260 to R283): what every table write keeps and emits whichever field it stores
(`tableWrite_committed`), the arithmetic of the stored values, the two ways the work intake drives the relay, and the
identity write. -/

namespace Sys2Proof.Machine

variable {s : State} {h : Hdr}

/-! ### The acknowledge (R156, R261) -/

theorem reply_transmits (h : Hdr) (data : List Byte) (s : State) :
    TransmitsAndSets h.c (replyEvent h data s) { s.ch h.c with tReply := h.now } s
      (reply h.c h.src h.fid h.ctl data h.now s) := by
  rw [reply, emit_ch]
  exact setCh_emit_transmitsAndSets _

theorem reply_onlyReplied (h : Hdr) (data : List Byte) (s : State) :
    OnlyReplied h data s (reply h.c h.src h.fid h.ctl data h.now s) := by
  obtain ⟨hch, hemits, hkept⟩ := reply_transmits h data s
  exact ⟨hemits, hch, hkept⟩

/-! ### A table write (R260 to R262) -/

theorem tableWrite_ds (n : WName) (h : Hdr) (v : Nat) (s : State) :
    (tableWrite n h v s).ds = storeField s.cfg.delayMaxS n v s.ds := by
  simp [tableWrite, ack_eq]

theorem tableWrite_rc (n : WName) (h : Hdr) (v : Nat) (s : State) :
    (tableWrite n h v s).rc = (writeField n v h.c h.now s).rc := by
  simp [tableWrite, ack_eq]

/-- The acknowledge follows whatever the store emitted. -/
theorem tableWrite_events (n : WName) (h : Hdr) (v : Nat) (s : State) :
    (tableWrite n h v s).events = (writeField n v h.c h.now s).events ++ [replyEvent h [ackStatus] s] := by
  simp [tableWrite, ack_eq, replyEvent]

/-- What every table write does beside the store: it stamps the reply and marks the configuration dirty. -/
theorem tableWrite_committed (n : WName) (h : Hdr) (v : Nat) (s : State) :
    (tableWrite n h v s).ch h.c = { s.ch h.c with tReply := h.now }
    ∧ OtherKept h.c s (tableWrite n h v s) ∧ BytesKept s (tableWrite n h v s)
    ∧ (tableWrite n h v s).cfgDirty = true ∧ (tableWrite n h v s).tCfg = h.now
    ∧ EnvKept s (tableWrite n h v s) := by
  have hkeeps := tableWrite_keeps n h v s
  obtain ⟨hch, -, -, -, hbytes⟩ := reply_transmits h [ackStatus] (writeField n v h.c h.now s)
  refine ⟨?_, hkeeps.other, fun d a => ?_, rfl, rfl, hkeeps.cfg, hkeeps.nActive, hkeeps.clock, hkeeps.inputs⟩
  · rw [tableWrite, markConfigDirty_ch, ack_eq, hch, writeField_ch]
  · rw [tableWrite, markConfigDirty_ch, ack_eq]
    simpa only [writeField_ch] using hbytes d a

/-- A write other than the work intake leaves the relay coordinator alone and emits the acknowledge only. -/
theorem tableWrite_writeCommitted {n : WName} (hn : n ≠ .workAct) (h : Hdr) (v : Nat) (s : State) :
    WriteCommitted h s (tableWrite n h v s) := by
  obtain ⟨hch, hother, hbytes, hmarked⟩ := tableWrite_committed n h v s
  refine ⟨?_, hch, hother, hbytes, ?_, hmarked⟩
  · rw [Emits, tableWrite_events, writeField_plain _ _ _ _ _ hn, storeDevice_events]
  · rw [tableWrite_rc, writeField_plain _ _ _ _ _ hn, storeDevice_rc]

/-- A row other than the work intake, whose meaning is a table write, stores its value and is committed. -/
theorem exec_writeCommitted {i : Instr} {d : Device} (n : WName) (v : Nat)
    (hexec : exec i s = .next (tableWrite n h v s)) (hds : storeField s.cfg.delayMaxS n v s.ds = d)
    (hn : n ≠ .workAct := by decide) : ∃ t, exec i s = .next t ∧ WriteCommitted h s t ∧ t.ds = d :=
  ⟨_, hexec, tableWrite_writeCommitted hn h v s, (tableWrite_ds ..).trans hds⟩

/-! ### The stored values (R13, R39) -/

theorem ofNat_clamp {w : Nat} (v : BitVec w) (hi : Nat) :
    BitVec.ofNat w (clamp v.toNat 0 hi) = if v.toNat ≤ hi then v else BitVec.ofNat w hi := by
  rw [clamp, if_neg (Nat.not_lt_zero _)]
  by_cases hle : v.toNat ≤ hi
  · rw [if_neg hle.not_gt, if_pos hle, BitVec.ofNat_toNat, BitVec.setWidth_eq]
  · rw [if_pos (Nat.lt_of_not_le hle), if_neg hle]

theorem flagOf_toNat (b : Byte) : flagOf b.toNat = (b != 0#8) := by
  have hzero : b.toNat = 0 ↔ b = 0#8 := BitVec.toNat_inj (y := 0#8)
  by_cases hb : b = 0#8 <;> simp [flagOf, hzero, hb]

/-! ### The work intake (R265) -/

theorem writeField_workAct (v : Nat) (c : Chan) (now : Nat) (s : State) :
    writeField .workAct v c now s =
      if flagOf v = true then workOn c (storeDevice .workAct v s) else workOff c now (storeDevice .workAct v s) := rfl

/-! ### The identity (R281) -/

theorem storeIdentity_sharedKept (c : Chan) (data : List Byte) (s : State) : SharedKept s (storeIdentity c data s) := by
  simp [SharedKept, EnvKept]

theorem length_take_idMax (data : List Byte) : (data.take idMax).length = min data.length 64 := by
  rw [List.length_take, Nat.min_comm]

/-- The kept bytes below their count, the old ones from there up. -/
theorem storeIdentity_read {c : Chan} (hform : Memory.wf (s.ch c).identity = true) (data : List Byte) (a : Nat) :
    Memory.read ((storeIdentity c data s).ch c).identity a
      = if a < min data.length 64 then data.getD a 0 else Memory.read (s.ch c).identity a := by
  rw [storeIdentity_ch_self, Memory.read_writeBytes _ _ _ _ hform, length_take_idMax]
  by_cases ha : a < min data.length 64
  · have hkept : (data.take idMax)[a]? = data[a]? := List.getElem?_take_of_lt (ha.trans_le (Nat.min_le_right ..))
    rw [if_pos (by omega), if_pos ha, Nat.sub_zero, List.getD_eq_getElem?_getD, hkept, List.getD_eq_getElem?_getD]
  · rw [if_neg (by omega), if_neg ha]

/-! ### The statements -/

/-- Settles O25: the acknowledge goes out after the store, whose record it keeps but for `t_reply`. -/
theorem identityWrite : Obligations.IdentityWrite := by
  intro h data s hform
  obtain ⟨hch, hemits, hother, hshared, -⟩ := reply_transmits h [ackStatus] (storeIdentity h.c data s)
  refine ⟨ack h (storeIdentity h.c data s), rfl, ?_, ?_, ?_, ?_, fun d hd => ?_, ?_⟩
  all_goals rw [ack_eq]
  · rw [hch, storeIdentity_ch_self, length_take_idMax]
  · rw [hch]
    exact storeIdentity_read hform data
  · rw [hch, storeIdentity_ch_self]
    exact Memory.wf_writeBytes _ _ _ hform
  · rw [Emits, hemits, storeIdentity_events, replyEvent, storeIdentity_ch_self, List.append_assoc]
    rfl
  · rw [hother d hd, storeIdentity_ch_other _ _ _ _ hd]
  · exact (storeIdentity_sharedKept ..).trans hshared

/-- Settles O26: the row is its acknowledge. -/
theorem firmwareNoOp : Obligations.FirmwareNoOp := fun h _ s => ⟨_, rfl, reply_onlyReplied h [ackStatus] s⟩

/-- Settles O27: each row stores the clamped value. -/
theorem boundedWrites : Obligations.BoundedWrites := fun _ _ _ b v _ =>
  ⟨exec_writeCommitted .suctionLevel b.toNat rfl (by rw [storeField, ofNat_clamp]),
    exec_writeCommitted .selectFlow v.toNat rfl (by rw [storeField, ofNat_clamp]),
    exec_writeCommitted .filterStatus v.toNat rfl (by rw [storeField, ofNat_clamp]),
    exec_writeCommitted .filterSat v.toNat rfl (by rw [storeField, ofNat_clamp])⟩

/-- Settles O28: each row stores whether the byte is nonzero. -/
theorem flagWrites : Obligations.FlagWrites := fun _ _ _ b _ =>
  ⟨exec_writeCommitted .standAct b.toNat rfl (by rw [storeField, flagOf_toNat]),
    exec_writeCommitted .pedalAct b.toNat rfl (by rw [storeField, flagOf_toNat]),
    exec_writeCommitted .connectedPedal b.toNat rfl (by rw [storeField, flagOf_toNat]),
    exec_writeCommitted .contSuction b.toNat rfl (by rw [storeField, flagOf_toNat]),
    exec_writeCommitted .usbConnect b.toNat rfl (by rw [storeField, flagOf_toNat])⟩

/-- Settles O29: a plain value keeps its width. -/
theorem delayAndPlainWrites : Obligations.DelayAndPlainWrites := fun _ _ _ b v _ =>
  ⟨exec_writeCommitted .workDelay v.toNat rfl (by rw [storeField, ofNat_clamp]),
    exec_writeCommitted .standDelay v.toNat rfl (by rw [storeField, ofNat_clamp]),
    exec_writeCommitted .pedalMode b.toNat rfl (by rw [storeField, BitVec.ofNat_toNat, BitVec.setWidth_eq]),
    exec_writeCommitted .stationError v.toNat rfl (by rw [storeField, BitVec.ofNat_toNat, BitVec.setWidth_eq])⟩

/-- Settles O30: a stored flag switches the work on before the acknowledge. -/
theorem workOnWrite : Obligations.WorkOnWrite := by
  intro h idx extra b s hb
  have hflag : flagOf b.toNat = true := by rw [flagOf_toNat, bne_iff_ne]; exact hb
  have hdrive := writeField_workAct b.toNat h.c h.now s
  rw [if_pos hflag] at hdrive
  refine ⟨tableWrite .workAct h b.toNat s, rfl, ?_, ?_, ?_, tableWrite_committed ..⟩
  · rw [tableWrite_ds, storeField, hflag]
  · rw [tableWrite_rc, hdrive, workOn_rc, storeDevice_rc]
  · rw [Emits, tableWrite_events, hdrive, workOn_events, storeDevice_rc, storeDevice_events, List.append_assoc]

/-- Settles O31: a cleared flag switches the work off before the acknowledge, by whether the after-run starts. -/
theorem workOffWrite : Obligations.WorkOffWrite := by
  intro h idx extra s
  have hdrive : writeField .workAct 0 h.c h.now s = workOff h.c h.now (storeDevice .workAct 0 s) :=
    writeField_workAct 0 h.c h.now s
  refine ⟨tableWrite .workAct h 0 s, rfl, ?_, ?_, ?_, tableWrite_committed ..⟩
  · rw [tableWrite_ds]
    rfl
  · rw [tableWrite_rc, hdrive, workOff_rc, storeDevice_rc, storeDevice_ds]
    split
    next hstarts =>
      obtain ⟨-, hempty, -⟩ := hstarts
      rw [hempty]
      rfl
    next => rfl
  · rw [Emits, tableWrite_events, hdrive, workOff_events, storeDevice_events]

end Sys2Proof.Machine
end

