-- ==== Sys2Proof/Proofs/ReadHandler.lean ====
section
/-! The read handler (R300 to R319): every table read is one reply (`exec_read_onlyReplied`), how a byte, a flag, a word
and a derived delay are serialised, and that a read gives back what the write of its field left
(`valueOf_readBack_storeField`). -/

namespace Sys2Proof.Machine

variable {s : State} {h : Hdr} {idx extra : List Byte}

/-! ### A table read (R300) -/

/-- Whatever its field, a table read replies the index bytes and the serialised value, and does nothing else. -/
theorem exec_read_onlyReplied (n : RName) {bytes : List Byte} (hbytes : valueBytes n.vw (valueOf n s.ds) = bytes) :
    ∃ t, exec (n.instr h idx extra) s = .next t ∧ OnlyReplied h (idx ++ bytes) s t := by
  refine ⟨tableRead n h idx s, ?_, ?_⟩
  · rw [← runRead_eq_exec, runRead_eq]
  · rw [tableRead_eq, hbytes]
    exact reply_onlyReplied ..

/-! ### The serialised values (R13, R39, R41) -/

theorem valueBytes_one_toNat (b : Byte) : valueBytes 1 b.toNat = [b] := by
  rw [valueBytes, if_pos rfl, BitVec.ofNat_toNat, BitVec.setWidth_eq]

theorem valueBytes_one_flagVal (b : Bool) : valueBytes 1 (flagVal b) = [if b then 1#8 else 0#8] := by
  cases b <;> rfl

/-- Low byte first. -/
theorem valueBytes_two_toNat (v : Word16) : valueBytes 2 v.toNat = [v.extractLsb' 0 8, v.extractLsb' 8 8] := by
  have hlow : BitVec.ofNat 8 v.toNat = v.extractLsb' 0 8 := rfl
  have hhigh : BitVec.ofNat 8 (v.toNat / 256) = v.extractLsb' 8 8 := by
    rw [BitVec.extractLsb', Nat.shiftRight_eq_div_pow]
  rw [valueBytes, if_neg (by decide), le16, hlow, hhigh]

/-- 65 s are the last whole seconds whose milliseconds fit 16 bits. -/
theorem sat16_afterrunMs (x : Word16) :
    sat16 (afterrunMs x) = if x.toNat ≤ 65 then (1000#16 * x).toNat else 65535 := by
  rw [sat16, afterrunMs]
  split
  next hfits => rw [if_pos (by omega), BitVec.toNat_mul, BitVec.toNat_ofNat]; omega
  next hexceeds => rw [if_neg (by omega)]

theorem valueBytes_two_afterrun (x : Word16) :
    valueBytes 2 (sat16 (afterrunMs x)) =
      if x.toNat ≤ 65 then [(1000#16 * x).extractLsb' 0 8, (1000#16 * x).extractLsb' 8 8] else [0xFF#8, 0xFF#8] := by
  rw [sat16_afterrunMs]
  split
  · exact valueBytes_two_toNat _
  · rfl

/-! ### A read after a write (R319) -/

theorem readBack_vw (n : WName) : n.readBack.vw = n.vw := by cases n <;> rfl

/-- A clamped value fits the field the operand fits. -/
theorem toNat_ofNat_clamp {w v : Nat} (hi : Nat) (hv : v < 2 ^ w) :
    (BitVec.ofNat w (clamp v 0 hi)).toNat = min v hi := by
  have hclamp : clamp v 0 hi = min v hi := by
    rw [clamp]
    split_ifs <;> omega
  rw [hclamp, BitVec.toNat_ofNat, Nat.mod_eq_of_lt ((Nat.min_le_left v hi).trans_lt hv)]

theorem flagVal_flagOf (v : Nat) : flagVal (flagOf v) = if v = 0 then 0 else 1 := by
  by_cases hv : v = 0 <;> simp [flagVal, flagOf, hv]

/-- The field of a write entry reads back as the clamped value: a bounded field, a flag, or a plain one. -/
theorem valueOf_readBack_storeField (n : WName) {v : Nat} (delayMax : Nat) (ds : Device) (hv : v < 256 ^ n.vw) :
    valueOf n.readBack (storeField delayMax n v ds) = n.stored delayMax v := by
  cases n with
  | suctionLevel | selectFlow | filterStatus | filterSat | workDelay | standDelay => exact toNat_ofNat_clamp _ hv
  | workAct | standAct | pedalAct | connectedPedal | contSuction | usbConnect => exact flagVal_flagOf v
  | pedalMode | stationError => exact (BitVec.toNat_ofNat ..).trans (Nat.mod_eq_of_lt hv)

/-! ### The statements -/

/-- Settles O35: the write completes with the clamped value in its field, and the read replies that field. -/
theorem readAfterWrite : Obligations.ReadAfterWrite := by
  intro n h h' idx idx' extra extra' v s hv
  have hwrite : exec (n.instr h idx v extra) s = .next (tableWrite n h v s) := by
    rw [← runWrite_eq_exec, runWrite_eq n h v hv]
  have hvalue : valueBytes n.readBack.vw (valueOf n.readBack (tableWrite n h v s).ds)
      = valueBytes n.vw (n.stored s.cfg.delayMaxS v) := by
    rw [readBack_vw, tableWrite_ds, valueOf_readBack_storeField n _ _ hv]
  obtain ⟨u, hread, hemits, -⟩ := exec_read_onlyReplied n.readBack hvalue
  exact ⟨_, u, hwrite, hread, hemits⟩

/-- Settles O32: each row is a table read of a byte or of a flag. -/
theorem byteReads : Obligations.ByteReads := fun _ _ _ _ =>
  ⟨exec_read_onlyReplied .suctionLevel (valueBytes_one_toNat _),
    exec_read_onlyReplied .pedalMode (valueBytes_one_toNat _),
    exec_read_onlyReplied .workAct (valueBytes_one_flagVal _),
    exec_read_onlyReplied .standAct (valueBytes_one_flagVal _),
    exec_read_onlyReplied .pedalAct (valueBytes_one_flagVal _),
    exec_read_onlyReplied .connectedPedal (valueBytes_one_flagVal _),
    exec_read_onlyReplied .contSuction (valueBytes_one_flagVal _),
    exec_read_onlyReplied .usbConnect (valueBytes_one_flagVal _)⟩

/-- Settles O33: each row is a table read of a stored word. -/
theorem wordReads : Obligations.WordReads := fun _ _ _ _ =>
  ⟨exec_read_onlyReplied .flow (valueBytes_two_toNat _),
    exec_read_onlyReplied .speed (valueBytes_two_toNat _),
    exec_read_onlyReplied .selectFlow (valueBytes_two_toNat _),
    exec_read_onlyReplied .workDelay (valueBytes_two_toNat _),
    exec_read_onlyReplied .standDelay (valueBytes_two_toNat _),
    exec_read_onlyReplied .filterStatus (valueBytes_two_toNat _),
    exec_read_onlyReplied .filterSat (valueBytes_two_toNat _),
    exec_read_onlyReplied .stationError (valueBytes_two_toNat _)⟩

/-- Settles O34: each row is a table read of a saturated product. -/
theorem derivedReadsSaturate : Obligations.DerivedReadsSaturate := fun _ _ _ _ =>
  ⟨exec_read_onlyReplied .workAfterrunMs (valueBytes_two_afterrun _),
    exec_read_onlyReplied .standAfterrunMs (valueBytes_two_afterrun _)⟩

end Sys2Proof.Machine
end

