-- ==== Sys2Proof/Proofs/RelayCoordinator.lean ====
section
/-! The relay coordinator (R340 to R350): the evaluation by its arms, the relay changes a step emits (`ChangesRelay`) and from
them a `POLL` that turns the relay off, the retraction, and what the status collaborator reads. -/

namespace Sys2Proof.Machine

variable {s t u : State} {now : Nat}

/-! ### The environment's side -/

theorem relayEval_envKept (now : Nat) (s : State) : EnvKept s (relayEval now s) := by simp [EnvKept]

theorem retract_envKept (c : Chan) (s : State) : EnvKept s (retract c s) := by simp [EnvKept]

/-! ### The relay's change (R344) -/

theorem setRelay_on_emits (s : State) : Emits s (setRelay true s) (if s.rc.relay = true then [] else [.relay true]) :=
  setRelay_events true s

theorem setRelay_off_emits (s : State) : Emits s (setRelay false s) (if s.rc.relay = true then [.relay false] else []) := by
  rw [Emits, setRelay_events]
  cases s.rc.relay <;> rfl

/-! ### The arms of the evaluation (R342) -/

theorem relayEval_of_demand (now : Nat) (h : s.ds.contSuction = true ∨ s.rc.workMask ≠ 0#2) :
    relayEval now s = setRelay true (clearAfterRun s) := by
  unfold relayEval
  split
  · rfl
  · exact if_pos (h.resolve_left ‹_›)

section NoDemand
variable {d : Nat} (hsuction : s.ds.contSuction = false) (hmask : s.rc.workMask = 0#2)
include hsuction hmask

theorem relayEval_of_elapsed (hd : s.rc.deadline = some d) (hle : d ≤ now) :
    relayEval now s = clearAfterRun (setRelay false s) := by simp [relayEval, hsuction, hmask, hd, hle]

theorem relayEval_of_running (hd : s.rc.deadline = some d) (hlt : now < d) : relayEval now s = s := by
  simp [relayEval, hsuction, hmask, hd, hlt.not_ge]

theorem relayEval_of_no_afterRun (now : Nat) (hd : s.rc.deadline = none) : relayEval now s = setRelay false s := by
  simp [relayEval, hsuction, hmask, hd]

end NoDemand

/-! ### A relay at rest (R349) -/

/-- The relay is off, and neither a channel nor an after-run asks for it. -/
structure RelayState.Off (rc : RelayState) : Prop where
  workMask : rc.workMask = 0#2
  deadline : rc.deadline = none
  relay : rc.relay = false

theorem RelayState.Off.eq {rc : RelayState} (h : rc.Off) :
    rc = { workMask := 0#2, owner := rc.owner, deadline := none, relay := false } := by
  obtain ⟨hmask, hdeadline, hrelay⟩ := h
  rw [← hmask, ← hdeadline, ← hrelay]

theorem RelayState.Off.retract (h : s.rc.Off) (c : Chan) : (retract c s).rc.Off := by
  have hmask : s.rc.workMask &&& ~~~ maskBit c = 0#2 := by rw [h.workMask, BitVec.zero_and]
  rw [retract_rc]
  split
  · exact ⟨hmask, rfl, h.relay⟩
  · exact ⟨hmask, h.deadline, h.relay⟩

/-- With no demand and no deadline ahead the evaluation rests the relay, by whether an after-run has elapsed. -/
theorem relayEval_rests (hsuction : s.ds.contSuction = false) (hmask : s.rc.workMask = 0#2)
    (hpassed : ∀ d, s.rc.deadline = some d → d ≤ now) :
    (relayEval now s).rc.Off ∧ Emits s (relayEval now s) (if s.rc.relay = true then [.relay false] else []) := by
  cases hd : s.rc.deadline with
  | some d =>
    rw [relayEval_of_elapsed hsuction hmask hd (hpassed d hd), clearAfterRun_rc, setRelay_rc]
    exact ⟨⟨hmask, rfl, rfl⟩, setRelay_off_emits s⟩
  | none =>
    rw [relayEval_of_no_afterRun hsuction hmask now hd, setRelay_rc]
    exact ⟨⟨hmask, hd, rfl⟩, setRelay_off_emits s⟩

/-! ### The relay changes among a step's events -/

/-- The relay's new value, if the event announces one (R344). -/
def Event.relayChange : Event → Option Bool
  | .relay v => some v
  | .tx _ _ => none
  | .report _ _ => none
  | .persist _ => none

theorem mem_relayChanges {evs : List Event} {v : Bool} : v ∈ evs.filterMap Event.relayChange ↔ Event.relay v ∈ evs := by
  rw [List.mem_filterMap]
  refine ⟨fun ⟨e, hmem, he⟩ => ?_, fun hmem => ⟨_, hmem, rfl⟩⟩
  cases e with
  | relay w =>
    cases he
    exact hmem
  | tx c bytes | report c k | persist p => cases he

/-- Events were only appended, and the relay changes among them are `vs`, in this order. -/
def ChangesRelay (vs : List Bool) (s t : State) : Prop :=
  ∃ evs, Emits s t evs ∧ evs.filterMap Event.relayChange = vs

section ChangesRelay
variable {vs ws : List Bool}

theorem ChangesRelay.trans (h : ChangesRelay vs s t) (k : ChangesRelay ws t u) : ChangesRelay (vs ++ ws) s u := by
  obtain ⟨evs, hevs, rfl⟩ := h
  obtain ⟨later, hlater, rfl⟩ := k
  exact ⟨evs ++ later, by rw [Emits, hlater, hevs, List.append_assoc], List.filterMap_append ..⟩

theorem ChangesRelay.then_none (h : ChangesRelay vs s t) (k : ChangesRelay [] t u) : ChangesRelay vs s u :=
  List.append_nil vs ▸ h.trans k

theorem ChangesRelay.of_events_eq (h : t.events = s.events) : ChangesRelay [] s t :=
  ⟨[], by rw [Emits, h, List.append_nil], rfl⟩

theorem Emits.changesRelay_off {p : Prop} [Decidable p] (h : Emits s t (if p then [.relay false] else [])) :
    ChangesRelay (if p then [false] else []) s t :=
  ⟨_, h, by split <;> rfl⟩

end ChangesRelay

/-! ### The parts of a `POLL` (R360) -/

/-- What the evaluation reads is unchanged, and so is the relay. -/
structure RelayKept (s t : State) : Prop where
  ds : t.ds = s.ds
  rc : t.rc = s.rc
  changes : ChangesRelay [] s t

theorem RelayKept.refl (s : State) : RelayKept s s := ⟨rfl, rfl, .of_events_eq rfl⟩

theorem RelayKept.trans (h : RelayKept s t) (k : RelayKept t u) : RelayKept s u :=
  ⟨k.ds.trans h.ds, k.rc.trans h.rc, h.changes.then_none k.changes⟩

theorem TransmitsAndSets.relayKept {c d : Chan} {bytes : List Byte} {x : Channel}
    (h : TransmitsAndSets c (.tx d bytes) x s t) : RelayKept s t := by
  obtain ⟨-, hemits, -, ⟨-, hds, hrc, -⟩, -⟩ := h
  exact ⟨hds, hrc, _, hemits, rfl⟩

/-- The sequencer only transmits (R179). -/
theorem settle_relayKept (c : Chan) (now : Nat) (s : State) : Ensures (settle c now s) (RelayKept s) := by
  rcases settle_cases c now s with ⟨_, _, hres⟩ | ⟨_, hres⟩ | ⟨_, hres⟩ | ⟨_, hres⟩ <;> rw [hres, ensures_next]
  · exact .refl s
  · exact (synSent_transmits c now s).relayKept
  · exact (ack2Sent_transmits c s).relayKept
  · exact (ack3Sent_transmits c s).relayKept

theorem debounceFlush_relayKept (now : Nat) (s : State) : RelayKept s (debounceFlush now s) := by
  unfold debounceFlush
  split
  · exact ⟨rfl, rfl, [.persist .saveConfig], rfl, rfl⟩
  · exact .refl s

/-- A silent channel leaves a relay at rest at rest (R366, R348). -/
theorem inactivityCheck_rests (h : s.rc.Off) (c : Chan) (now : Nat) :
    (inactivityCheck c now s).rc.Off ∧ ChangesRelay [] s (inactivityCheck c now s) := by
  unfold inactivityCheck
  split
  · have hreset : (channelReset c s).rc.Off := (channelReset_rc c s).symm ▸ h
    exact ⟨hreset.retract c, .of_events_eq (by rw [retract_events, channelReset_events])⟩
  · exact ⟨h, .of_events_eq rfl⟩

/-- With no demand and no deadline ahead a `POLL` rests the relay, with a change exactly if it was on. -/
theorem execPoll_rests (hsuction : s.ds.contSuction = false) (hmask : s.rc.workMask = 0#2)
    (hpassed : ∀ d, s.rc.deadline = some d → d ≤ now) :
    Ensures (execPoll now s) fun t => t.rc.Off ∧ ChangesRelay (if s.rc.relay = true then [false] else []) s t := by
  have hsettled : Ensures (forActive (fun c u => settle c now u) s) (RelayKept s) :=
    forActive_ensures (.refl s) fun c u _ hu => (settle_relayKept c now u).mono fun t ht => hu.trans ht
  refine hsettled.andThen fun u hu => forActive_ensures ?_ fun c t _ ⟨hoff, hchanges⟩ => ensures_next.2 ?_
  · obtain ⟨hds, hrc, hquiet⟩ := hu
    obtain ⟨hoff, hemits⟩ := relayEval_rests (s := u) (now := now) (hds ▸ hsuction) (hrc ▸ hmask) (hrc ▸ hpassed)
    have hflush := debounceFlush_relayKept now (relayEval now u)
    rw [hrc] at hemits
    exact ⟨hflush.rc.symm ▸ hoff, (hquiet.trans hemits.changesRelay_off).then_none hflush.changes⟩
  · obtain ⟨hoff', hquiet⟩ := inactivityCheck_rests hoff c now
    exact ⟨hoff', hchanges.then_none hquiet⟩

/-! ### The after-run remaining time (R350) -/

theorem remaining_of_running {d : Nat} (hd : s.rc.deadline = some d) (hlt : now < d) : remaining s now = d - now := by
  simp only [remaining, hd, if_pos hlt]

theorem remaining_of_elapsed {d : Nat} (hd : s.rc.deadline = some d) (hle : d ≤ now) : remaining s now = 0 := by
  simp only [remaining, hd, if_neg hle.not_gt]

theorem remaining_of_no_afterRun (now : Nat) (hd : s.rc.deadline = none) : remaining s now = 0 := by
  simp only [remaining, hd]

/-! ### The statements -/

/-- Settles O38: a `POLL` rests the relay, and the relay changes it emits are known. -/
theorem pollTurnsRelayOff : Obligations.PollTurnsRelayOff := by
  intro now s hsuction hmask hpassed
  obtain ⟨t, hrun, hoff, evs, hemits, hchanges⟩ := execPoll_rests hsuction hmask hpassed
  refine ⟨t, evs, hrun, hoff.eq, hemits, ?_⟩
  rw [← mem_relayChanges, hchanges]
  cases s.rc.relay <;> decide

/-- Settles O37, by the arms; a running after-run has the relay on by the invariant. -/
theorem relayFollowsDemand : Obligations.RelayFollowsDemand := by
  intro now s hinv
  refine ⟨fun hsuction => ?_, fun hsuction => ?_⟩
  · rw [relayEval_of_demand now (.inl hsuction), setRelay_rc]
    exact ⟨rfl, rfl⟩
  · by_cases hmask : s.rc.workMask = 0#2
    · by_cases hahead : ∃ d, s.rc.deadline = some d ∧ now < d
      · obtain ⟨d, hd, hlt⟩ := hahead
        have hpending : s.rc.deadline ≠ none := hd ▸ nofun
        rw [relayEval_of_running hsuction hmask hd hlt]
        exact iff_of_true (hinv.running hpending) (.inr hpending)
      · obtain ⟨hoff, -⟩ := relayEval_rests hsuction hmask fun d hd => not_lt.1 fun hlt => hahead ⟨d, hd, hlt⟩
        simp [hoff.relay, hoff.workMask, hoff.deadline]
    · rw [relayEval_of_demand now (.inr hmask), setRelay_rc]
      exact iff_of_true rfl (.inl hmask)

/-- Settles O36, arm by arm; the registers outside the coordinator no arm writes. -/
theorem relayEvaluation : Obligations.RelayEvaluation := by
  intro now s
  refine ⟨fun hdemand => ?_, fun d hsuction hmask hd => ⟨fun hle => ?_, relayEval_of_running hsuction hmask hd⟩,
    fun hsuction hmask hd => ?_, relayEval_ch now s, relayEval_ds now s, relayEval_cfgDirty now s, relayEval_tCfg now s,
    relayEval_envKept now s⟩
  · rw [relayEval_of_demand now hdemand]
    exact ⟨setRelay_rc .., setRelay_on_emits (clearAfterRun s)⟩
  · rw [relayEval_of_elapsed hsuction hmask hd hle, clearAfterRun_rc, setRelay_rc]
    exact ⟨rfl, setRelay_off_emits s⟩
  · rw [relayEval_of_no_afterRun hsuction hmask now hd]
    exact ⟨setRelay_rc .., setRelay_off_emits s⟩

/-- Settles O39, by whether the channel owns the after-run. -/
theorem retractEffect : Obligations.RetractEffect := by
  intro c s
  refine ⟨?_, ?_, retract_ch c s, retract_ds c s, retract_cfgDirty c s, retract_tCfg c s, retract_envKept c s⟩
  · rw [retract_rc]
    split <;> rfl
  · rw [Emits, retract_events, List.append_nil]

/-- Settles O60: the remaining time by the deadline; every other read is a register. -/
theorem statusReads : Obligations.StatusReads := fun _ now =>
  ⟨fun _ hd hlt => (congrArg (now + ·) (remaining_of_running hd hlt)).trans (Nat.add_sub_of_le hlt.le),
    fun _ => remaining_of_elapsed, remaining_of_no_afterRun now, rfl, rfl, rfl⟩

end Sys2Proof.Machine
end

