-- ==== Sys2Proof/Proofs/Conditions.lean ====
section
/-! The reported conditions (R380 to R387): raising one is `raise_transmits`; and one received byte reports or transmits at
most once, on its own channel (R387, R241). -/

namespace Sys2Proof.Machine

variable {s t u : State} {c : Chan} {cs cs' : List Chan}

/-! ### Reports and transmissions among a step's events -/

/-- The channel an event reports on or transmits on, if it does either (R8). -/
def Event.signal : Event → Option Chan
  | .tx c _ => some c
  | .report c _ => some c
  | .persist _ => none
  | .relay _ => none

/-- Between `s` and `t` there was one report or transmission on each of the channels `cs`, in this order, and no other. -/
def Signals (cs : List Chan) (s t : State) : Prop :=
  t.events.filterMap Event.signal = s.events.filterMap Event.signal ++ cs

theorem Signals.of_events_eq (h : t.events = s.events) : Signals [] s t := by
  rw [Signals, h, List.append_nil]

theorem Signals.refl (s : State) : Signals [] s s := .of_events_eq rfl

theorem Signals.trans (h : Signals cs s t) (k : Signals cs' t u) : Signals (cs ++ cs') s u := by
  rw [Signals, k, h, List.append_assoc]

theorem Signals.then_quiet (h : Signals cs s t) (k : Signals [] t u) : Signals cs s u :=
  List.append_nil cs ▸ h.trans k

theorem Signals.of_emits {evs : List Event} (h : t.events = s.events ++ evs) :
    Signals cs s t ↔ evs.filterMap Event.signal = cs := by
  rw [Signals, h, List.filterMap_append, List.append_cancel_left_eq]

theorem setCh_quiet (s : State) (c : Chan) (x : Channel) : Signals [] s (s.setCh c x) :=
  .of_events_eq (setCh_events s c x)

theorem report_signals (c : Chan) (k : ErrKind) (s : State) : Signals [c] s (report c k s) :=
  (Signals.of_emits (report_events c k s)).2 rfl

theorem TransmitsAndSets.signals {e : Event} {x : Channel} (h : TransmitsAndSets c e x s t) :
    Signals e.signal.toList s t := by
  obtain ⟨-, hemits, -⟩ := h
  refine (Signals.of_emits hemits).2 ?_
  cases e <;> rfl

/-! ### The frame-level rows (R241) -/

theorem reply_signals (c : Chan) (dst fid ctl : Byte) (data : List Byte) (now : Nat) (s : State) :
    Signals [c] s (reply c dst fid ctl data now s) :=
  (Signals.of_emits (reply_events ..)).2 rfl

theorem adoptAddress_quiet (c : Chan) (dst : Byte) (s : State) : Signals [] s (adoptAddress c dst s) := by
  unfold adoptAddress
  split
  · exact (setCh_quiet s c _).trans ((Signals.of_emits rfl).2 rfl)
  · exact .refl s

theorem storeIdentity_quiet (c : Chan) (data : List Byte) (s : State) : Signals [] s (storeIdentity c data s) :=
  (Signals.of_emits (storeIdentity_events c data s)).2 rfl

theorem workOn_quiet (c : Chan) (s : State) : Signals [] s (workOn c s) :=
  (Signals.of_emits (workOn_events c s)).2 (by split <;> rfl)

theorem writeField_quiet (n : WName) (v : Nat) (c : Chan) (now : Nat) (s : State) :
    Signals [] s (writeField n v c now s) := by
  have hstored : Signals [] s (storeDevice n v s) := .of_events_eq rfl
  unfold writeField relayDrive
  split
  · split
    · exact hstored.trans (workOn_quiet ..)
    · exact hstored.trans (.of_events_eq (workOff_events ..))
  · exact hstored

theorem tableWrite_signals (n : WName) (h : Hdr) (v : Nat) (s : State) : Signals [h.c] s (tableWrite n h v s) :=
  (writeField_quiet n v h.c h.now s).trans ((reply_signals ..).then_quiet (.of_events_eq rfl))

/-! ### At most once -/

/-- Between `s` and `t` there was at most one report or transmission, and it was on channel `c`. -/
def SignalsOnce (c : Chan) (s t : State) : Prop := Signals [] s t ∨ Signals [c] s t

theorem SignalsOnce.refl (c : Chan) (s : State) : SignalsOnce c s s := .inl (.refl s)

theorem SignalsOnce.after_quiet (h : Signals [] s t) (k : SignalsOnce c t u) : SignalsOnce c s u :=
  k.imp h.trans h.trans

theorem SignalsOnce.then_quiet (h : SignalsOnce c s t) (k : Signals [] t u) : SignalsOnce c s u :=
  h.imp (·.then_quiet k) (·.then_quiet k)

/-- The channels of the reports and transmissions among `evs`: none, or channel `c` once. -/
theorem SignalsOnce.filterMap_signal {evs : List Event} (h : SignalsOnce c s t) (hevs : t.events = s.events ++ evs) :
    evs.filterMap Event.signal = [] ∨ evs.filterMap Event.signal = [c] :=
  h.imp (Signals.of_emits hevs).1 (Signals.of_emits hevs).1

/-- A row replies once, or does nothing at all. -/
theorem runFrame_signalsOnce (sel : FrameSel) (h : Hdr) (data : List Byte) (s : State) :
    Ensures (runFrame sel h data s) (SignalsOnce h.c s) := by
  cases sel with
  | hs =>
    have hnoted : Signals [] s (noteHandshake h.c h.src (adoptAddress h.c h.dst s)) :=
      (adoptAddress_quiet ..).trans (setCh_quiet ..)
    exact ensures_next.2 (.inr (hnoted.trans (reply_signals ..)))
  | notForUs | unknown => exact ensures_next.2 (.refl h.c s)
  | fwId | idRead => exact ensures_next.2 (.inr ((reply_signals ..).then_quiet (setCh_quiet ..)))
  | write w =>
    cases w with
    | identity => exact ensures_next.2 (.inr ((storeIdentity_quiet ..).trans (reply_signals ..)))
    | fwNop => exact ensures_next.2 (.inr (reply_signals ..))
    | entry n k => exact ⟨_, runWrite_eq n h _ (valueAt_lt n k data) s, .inr (tableWrite_signals ..)⟩
  | read n k => exact ⟨_, runRead_eq n h _ s, .inr (reply_signals ..)⟩

theorem dispatch_signalsOnce (c : Chan) (f : Frame) (now : Nat) (s : State) :
    Ensures (dispatch c f now s) (SignalsOnce c s) :=
  (runFrame_signalsOnce _ (f.hdr c now) f.data _).mono fun _ ht =>
    .after_quiet (.of_events_eq (touchFor_events c f now s)) ht

/-! ### The decoder (R387) -/

theorem raise_signals (c : Chan) (k : ErrKind) (s : State) : Signals [c] s (raise c k s) :=
  (raise_transmits c k s).signals

/-- The conditions of an append exclude each other, and a dispatched frame raises none. -/
theorem appendByte_signalsOnce (c : Chan) (v : Byte) (now : Nat) (s : State) :
    Ensures (appendByte c v now s) (SignalsOnce c s) := by
  have hpushed : Signals [] s (pushByte c v s) := setCh_quiet ..
  rcases appendByte_cases c v now s with ⟨_, hres⟩ | ⟨_, hres⟩ <;> rw [hres]
  · exact ensures_next.2 (.inr (raise_signals ..))
  · rcases checkComplete_cases c now (pushByte c v s) with ⟨_, hres⟩ | ⟨_, _, hres⟩ | ⟨_, _, hres⟩ <;> rw [hres]
    · exact ensures_next.2 (.inl hpushed)
    · exact (dispatch_signalsOnce ..).mono fun _ ht => .after_quiet hpushed ht
    · exact ensures_next.2 (.inr (hpushed.trans (raise_signals ..)))

theorem flushBestEffort_signalsOnce (c : Chan) (now : Nat) (s : State) :
    Ensures (flushBestEffort c now s) (SignalsOnce c s) := by
  rcases flushBestEffort_cases c now s with ⟨_, hres⟩ | ⟨_, _, _, hres⟩ | ⟨_, _, _, hres⟩ <;> rw [hres]
  · exact ensures_next.2 (.refl c s)
  · exact dispatch_signalsOnce ..
  · exact ensures_next.2 (.inr (report_signals ..))

/-- Every byte-level row, whatever state selects it. -/
theorem runByte_signalsOnce (sel : ByteSel) (c : Chan) (b : Byte) (now : Nat) (s : State) :
    Ensures (runByte sel c b now s) (SignalsOnce c s) := by
  cases sel with
  | hsMarker => exact ensures_next.2 (.inl ((setCh_quiet ..).trans (setCh_quiet ..)))
  | hsNak | hsAck | hsSoh | hsNakRestart | decAmMarker | decAsStart | decAsOther | decIfMarker =>
    exact ensures_next.2 (.inl (setCh_quiet ..))
  | hsOther | decAmOther | decAsMarker => exact ensures_next.2 (.refl c s)
  | decIfData => exact appendByte_signalsOnce ..
  | decEscMarker => exact (appendByte_signalsOnce ..).mono fun _ ht => .after_quiet (setCh_quiet ..) ht
  | decEscEnd | decEscStart =>
    exact (flushBestEffort_signalsOnce c now s).andThen fun _ ht => ensures_next.2 (ht.then_quiet (setCh_quiet ..))
  | decEscOther => exact ensures_next.2 (.inr (raise_signals ..))

/-! ### The sequencer (R165) -/

/-- A byte before frame mode transmits nothing itself. -/
theorem handshakeByte_quiet (c : Chan) (b : Byte) (now : Nat) (s : State) :
    Ensures (handshakeByte c b now s) (Signals [] s) := by
  rcases handshakeByte_cases c b now s with hres | ⟨v, _, hres⟩ | hres <;> rw [hres, ensures_next]
  · exact (setCh_quiet ..).trans (setCh_quiet ..)
  · exact setCh_quiet ..
  · exact .refl s

theorem settle_signalsOnce (c : Chan) (now : Nat) (s : State) : Ensures (settle c now s) (SignalsOnce c s) := by
  rcases settle_cases c now s with ⟨_, _, hres⟩ | ⟨_, hres⟩ | ⟨_, hres⟩ | ⟨_, hres⟩ <;> rw [hres, ensures_next]
  · exact .refl c s
  · exact .inr (synSent_transmits c now s).signals
  · exact .inr (ack2Sent_transmits c s).signals
  · exact .inr (ack3Sent_transmits c s).signals

theorem execRx_signalsOnce (c : Chan) (b : Byte) (now : Nat) (s : State) :
    Ensures (execRx c b now s) (SignalsOnce c s) := by
  have htouched : Signals [] s (touchRx c now s) := setCh_quiet ..
  unfold execRx
  split_ifs
  · exact ensures_next.2 (.refl c s)
  · exact (runByte_signalsOnce ..).mono fun _ ht => .after_quiet htouched ht
  · exact (handshakeByte_quiet ..).andThen fun _ hu =>
      (settle_signalsOnce ..).mono fun _ ht => .after_quiet (htouched.trans hu) ht

/-! ### The statements -/

/-- Settles O13: the row of an invalid escape is the raise of its condition. -/
theorem invalidEscapeDiscards : Obligations.InvalidEscapeDiscards := fun c _ k s =>
  ⟨raise_transmits c k s, _, rfl, raise_transmits c .invalidEscape s⟩

/-- Settles O59: the reports and transmissions of the step are counted and located by their channels. -/
theorem oneReportOrReply : Obligations.OneReportOrReply := by
  intro c b now s t evs hexec hevs
  have hsignals := ((execRx_signalsOnce c b now s).of_eq_next hexec).filterMap_signal hevs
  have hlocated {e : Event} {d : Chan} (he : e ∈ evs) (hd : e.signal = some d) : d = c := by
    have hmem : d ∈ evs.filterMap Event.signal := List.mem_filterMap.2 ⟨e, he, hd⟩
    rcases hsignals with hnone | hone
    · exact absurd (hnone ▸ hmem) List.not_mem_nil
    · exact List.mem_singleton.1 (hone ▸ hmem)
  refine ⟨?_, fun d x hmem => hlocated hmem rfl, fun d k hmem => hlocated hmem rfl⟩
  have hcount : (evs.filterMap Event.signal).length ≤ 1 := by
    rcases hsignals with hnone | hone
    · rw [hnone]; exact Nat.zero_le 1
    · rw [hone]; exact le_rfl
  rw [List.length_filterMap_eq_countP] at hcount
  refine (List.countP_congr fun e _ => ?_).trans_le hcount
  cases e <;> exact Iff.rfl

end Sys2Proof.Machine
end

