-- ==== Sys2Proof/Proofs/Operator.lean ====
section
/-! The operator operations (R370 to R375): the write by what its code and length select, the error mask as the write of
its code, and the recount, which acts on channel 1 only. -/

namespace Sys2Proof.Machine

variable {s : State} {c : Chan} {ctl : Byte} {data : List Byte} {now : Nat}

/-! ### `ADMIN.Write` by what it selects (R373, R260) -/

theorem execAdminWrite_of_inactive (hact : s.active c = false) : execAdminWrite c ctl data now s = .next s := if_pos hact

section Selected
variable (hact : s.active c = true)
include hact

theorem execAdminWrite_of_entry {n : WName} {k : Nat} (hsel : selectWrite s.cfg ctl data.length = some (.entry n k)) :
    execAdminWrite c ctl data now s = .next (markConfigDirty now (writeField n (valueAt n.vw k data) c now s)) := by
  simp [execAdminWrite, hact, hsel]

theorem execAdminWrite_of_identity (hsel : selectWrite s.cfg ctl data.length = some .identity) :
    execAdminWrite c ctl data now s = .next (storeIdentity c data s) := by
  simp [execAdminWrite, hact, hsel]

theorem execAdminWrite_of_fwNop (hsel : selectWrite s.cfg ctl data.length = some .fwNop) :
    execAdminWrite c ctl data now s = .next s := by
  simp [execAdminWrite, hact, hsel]

theorem execAdminWrite_of_unrecognised (hsel : selectWrite s.cfg ctl data.length = none) :
    execAdminWrite c ctl data now s = .next s := by
  simp [execAdminWrite, hact, hsel]

end Selected

theorem markConfigDirty_writeField_envKept (n : WName) (v : Nat) (c : Chan) (now : Nat) (s : State) :
    EnvKept s (markConfigDirty now (writeField n v c now s)) := by simp [EnvKept]

/-! ### The error mask (R371) -/

/-- Every row of the table is selected by its code, given its index bytes and its value (R112, R260). -/
theorem selectWrite_of_row (hwf : s.cfg.wf = true) {row : CcRow} {n : WName} (hrow : row ∈ s.cfg.ccTable)
    (hentry : row.entry = .w n) {len : Nat} (hlen : row.idxN + n.vw ≤ len) :
    selectWrite s.cfg row.code len = some (.entry n row.idxN) := by
  refine (selectWrite_eq_entry_iff (Cfg.codesApart_of_wf hwf)).2 ⟨?_, hlen⟩
  rwa [← hentry]

/-- The value operand of a 16-bit entry behind its index bytes, low byte first. -/
theorem valueAt_stationError (idx : List Byte) (v : Word16) :
    valueAt WName.stationError.vw idx.length (idx ++ [v.extractLsb' 0 8, v.extractLsb' 8 8]) = v.toNat := by
  have hread := WName.valueAt_append .stationError idx [] (v := v.toNat) v.isLt
  rwa [List.append_nil, show valueBytes WName.stationError.vw v.toNat = _ from valueBytes_two_toNat v] at hread

/-- The station error is a plain value, and no work intake (R276). -/
theorem writeField_stationError (v : Word16) (c : Chan) (now : Nat) (s : State) :
    writeField .stationError v.toNat c now s = { s with ds := { s.ds with stationError := v } } := by
  rw [writeField_plain .stationError _ _ _ _ (by decide), storeDevice, storeField, BitVec.ofNat_toNat, BitVec.setWidth_eq]

/-! ### The recount (R372) -/

/-- Resetting and retracting a channel writes its record and the coordinator only, and emits nothing (R56, R348). -/
theorem retract_channelReset_kept (c : Chan) (s : State) :
    EnvKept s (retract c (channelReset c s)) ∧ (retract c (channelReset c s)).ds = s.ds
    ∧ (retract c (channelReset c s)).cfgDirty = s.cfgDirty ∧ (retract c (channelReset c s)).tCfg = s.tCfg
    ∧ (retract c (channelReset c s)).events = s.events := by
  simp [EnvKept]

section Recount
variable {old k : Nat} (hold : old = 1 ∨ old = 2) (hk : k = 1 ∨ k = 2)
include hold hk

/-- Channel 0 is active under either count. -/
theorem recount_c0 : recount old k .c0 now s = s := by
  have hdisabled : ¬ (k ≤ Chan.c0.idx ∧ Chan.c0.idx < old) := by simp only [Chan.idx]; omega
  have henabled : ¬ (old ≤ Chan.c0.idx ∧ Chan.c0.idx < k) := by simp only [Chan.idx]; omega
  rw [recount, if_neg hdisabled, if_neg henabled]

theorem recount_c1 : recount old k .c1 now s =
    if k < old then retract .c1 (channelReset .c1 s) else if old < k then touchRx .c1 now s else s := by
  have hdisabled : k ≤ Chan.c1.idx ∧ Chan.c1.idx < old ↔ k < old := by simp only [Chan.idx]; omega
  have henabled : old ≤ Chan.c1.idx ∧ Chan.c1.idx < k ↔ old < k := by simp only [Chan.idx]; omega
  simp only [recount, hdisabled, henabled]

end Recount

/-! ### The statements -/

/-- Settles O43, by what the code and the length select. -/
theorem operatorWrite : Obligations.OperatorWrite := by
  intro c ctl data now s
  refine ⟨execAdminWrite_of_inactive, fun hact => ?_⟩
  cases hsel : selectWrite s.cfg ctl data.length with
  | none => exact ⟨s, execAdminWrite_of_unrecognised hact hsel, rfl⟩
  | some w =>
    cases w with
    | fwNop => exact ⟨s, execAdminWrite_of_fwNop hact hsel, rfl⟩
    | identity =>
      refine ⟨_, execAdminWrite_of_identity hact hsel, ?_, storeIdentity_events .., ?_,
        fun hform => storeIdentity_read hform data, fun d => storeIdentity_ch_other _ _ _ _,
        storeIdentity_sharedKept ..⟩
      · rw [storeIdentity_ch_self, length_take_idMax]
      · rw [storeIdentity_ch_self]
    | entry n k =>
      refine ⟨_, execAdminWrite_of_entry hact hsel, rfl, fun d => ?_, rfl, rfl,
        markConfigDirty_writeField_envKept .., fun hn => ?_⟩
      · rw [markConfigDirty_ch, writeField_ch]
      · rw [writeField_plain _ _ _ _ _ hn]
        exact ⟨rfl, (List.append_nil _).symm⟩

/-- Settles O44: the bytes the write is given are those of the mask, which its entry stores as it is. -/
theorem forceErrorMask : Obligations.ForceErrorMask := by
  intro v now s
  refine ⟨⟨_, rfl, rfl, rfl, rfl, rfl, fun d => by cases d <;> rfl, ⟨rfl, rfl, rfl, rfl⟩, (List.append_nil _).symm⟩, ?_⟩
  rintro c _ row hwf hact hrow hentry rfl idx hidx
  have hlen : row.idxN + WName.stationError.vw ≤ (idx ++ [v.extractLsb' 0 8, v.extractLsb' 8 8]).length := by
    rw [List.length_append, hidx]
    exact le_rfl
  have hwrite := execAdminWrite_of_entry (now := now) hact (selectWrite_of_row hwf hrow hentry hlen)
  rw [← hidx, valueAt_stationError, writeField_stationError] at hwrite
  exact hwrite

/-- Settles O45, by whether the recount disables channel 1, enables it, or does neither. -/
theorem setActiveCount : Obligations.SetActiveCount := by
  intro k now s hold
  by_cases hk : k = 1 ∨ k = 2
  · refine ⟨_, if_pos hk, (if_pos hk).mpr ?_⟩
    rw [recount_c0 hold hk, recount_c1 hold hk]
    split_ifs
    · obtain ⟨⟨hcfg, hcount, hclock, hinputs⟩, hds, hdirty, htime, hevents⟩ :=
        retract_channelReset_kept .c1 { s with nActive := k }
      refine ⟨hcount, ?_, hds, hcfg, hclock, hinputs, hdirty, htime, hevents.trans (List.append_nil _).symm, ?_, ?_⟩
      · exact (retract_ch .c1 _ .c0).trans (channelReset_ch_other .c1 .c0 _ nofun)
      · exact (retract_ch .c1 _ .c1).trans (channelReset_ch_self ..)
      · rw [retract_rc, channelReset_rc, retract_rc]
    · exact ⟨rfl, rfl, rfl, rfl, rfl, rfl, rfl, rfl, (List.append_nil _).symm, rfl, rfl⟩
    · exact ⟨rfl, rfl, rfl, rfl, rfl, rfl, rfl, rfl, (List.append_nil _).symm, rfl, rfl⟩
  · exact ⟨s, if_neg hk, (if_neg hk).mpr rfl⟩

/-- Settles O46: each operation is the one write it is defined by. -/
theorem telemetryAndWipe : Obligations.TelemetryAndWipe := fun _ _ _ => ⟨rfl, rfl, rfl⟩

end Sys2Proof.Machine
end

