-- ==== Sys2Proof/Proofs/Loads.lean ====
section
/-! The persistence loads (R422, R390): what each loaded field becomes, and that the result is a well-formed configuration. -/

namespace Sys2Proof.Machine

variable {cfg : Cfg}

/-! ### The loaded values -/

theorem loadAddress_some (a default : Byte) :
    loadAddress (some a) default = if a = 0x00#8 ∨ a = 0xFF#8 then default else a := by
  by_cases hreserved : a = 0x00#8 ∨ a = 0xFF#8
  · rw [if_pos hreserved]
    exact if_neg fun ⟨hbroadcast, hfree⟩ => hreserved.elim hbroadcast hfree
  · rw [if_neg hreserved]
    exact if_pos (not_or.1 hreserved)

theorem clampDevice_eq (delayMax : Nat) (d : Device) :
    clampDevice delayMax d = { d with
      suctionLevel := if d.suctionLevel.toNat ≤ 3 then d.suctionLevel else 3#8
      selectFlow := if d.selectFlow.toNat ≤ 1000 then d.selectFlow else 1000#16
      workDelayS := if d.workDelayS.toNat ≤ delayMax then d.workDelayS else BitVec.ofNat 16 delayMax
      standDelayS := if d.standDelayS.toNat ≤ delayMax then d.standDelayS else BitVec.ofNat 16 delayMax
      filterLife := if d.filterLife.toNat ≤ 1000 then d.filterLife else 1000#16
      filterSat := if d.filterSat.toNat ≤ 1000 then d.filterSat else 1000#16 } := by
  simp only [clampDevice, ofNat_clamp]

/-! ### What is loaded keeps the constraints (R11) -/

theorem legalAddr_iff (a : Byte) : legalAddr a = true ↔ a ≠ broadcastAddr ∧ a ≠ reservedAddr := by
  simp only [legalAddr, Bool.and_eq_true, bne_iff_ne]

theorem legalAddr_loadAddress {default : Byte} (h : legalAddr default = true) (loaded : Option Byte) :
    legalAddr (loadAddress loaded default) = true := by
  cases loaded with
  | none => exact h
  | some a =>
    unfold loadAddress
    dsimp only
    split
    · exact (legalAddr_iff a).2 ‹_›
    · exact h

theorem loadIdentity_length_le {default : List Byte} (h : default.length ≤ idMax) (loaded : Option (List Byte)) :
    (loadIdentity loaded default).length ≤ idMax := by
  cases loaded with
  | none => exact h
  | some x => exact List.length_take_le ..

theorem clampDevice_inRange (delayMax : Nat) (d : Device) : (clampDevice delayMax d).inRange delayMax = true :=
  (Device.inRange_iff ..).2 ⟨clamped_toNat_le .., clamped_toNat_le .., clamped_toNat_le .., clamped_toNat_le ..,
    clamped_toNat_le .., clamped_toNat_le ..⟩

theorem withLoads_dsInit_inRange (h : cfg.dsInit.inRange cfg.delayMaxS = true) (l : Loads) :
    (withLoads cfg l).dsInit.inRange cfg.delayMaxS = true := by
  unfold withLoads
  dsimp only
  split
  · exact clampDevice_inRange ..
  · exact h

/-- The loads write five parameters, each within its constraint; the other constraints do not read them. -/
theorem withLoads_wf (hwf : cfg.wf = true) (l : Loads) : (withLoads cfg l).wf = true := by
  simp only [Cfg.wf, Bool.and_eq_true, and_assoc] at hwf ⊢
  simp only [decide_eq_true_eq] at hwf ⊢
  obtain ⟨hbytes, hfids, hcodes, htable, hbuf, hinact, hfw, hid0, hid1, haddr0, haddr1, hds, hcount⟩ := hwf
  exact ⟨hbytes, hfids, hcodes, htable, hbuf, hinact, hfw, loadIdentity_length_le hid0 l.identity0,
    loadIdentity_length_le hid1 l.identity1, legalAddr_loadAddress haddr0 l.addr0, legalAddr_loadAddress haddr1 l.addr1,
    withLoads_dsInit_inRange hds l, hcount⟩

/-! ### The statement -/

/-- Settles O48, parameter by parameter: what was not loaded is the default by definition. -/
theorem loadsKeepConfiguration : Obligations.LoadsKeepConfiguration := by
  rintro cfg ⟨addr0, addr1, identity0, identity1, config⟩
  refine ⟨fun hwf => withLoads_wf hwf _, ?_, ?_, ?_, ?_, ?_, rfl⟩
  · cases addr0 with
    | none => rfl
    | some a => exact loadAddress_some ..
  · cases addr1 with
    | none => rfl
    | some a => exact loadAddress_some ..
  · cases identity0 <;> rfl
  · cases identity1 <;> rfl
  · cases config with
    | none => rfl
    | some d => exact clampDevice_eq ..

end Sys2Proof.Machine
end

