-- ==== Sys2Proof/Proofs/Poll.lean ====
section
/-! A `POLL` (R360): from settled states it is two rounds over the active channels, which send the SYNs held back
(`synRound`) and reset the channels that fell silent (`silenceRound`), with the relay's evaluation and the debounced save
between them. Each is described once, by what it writes and what it emits; the statements put these together. -/

namespace Sys2Proof.Machine

variable {s t u : State} {c d : Chan} {now : Nat}

/-! ### What was kept, and what was emitted, over two stages -/

theorem Emits.trans {evs later : List Event} (h : Emits s t evs) (k : Emits t u later) : Emits s u (evs ++ later) := by
  rw [Emits, k, h, List.append_assoc]

theorem Emits.then_quiet {evs : List Event} (h : Emits s t evs) (k : u.events = t.events) : Emits s u evs := by
  rw [Emits, k, h]

theorem bytesKept_of_memories (h : ∀ d, (t.ch d).buf = (s.ch d).buf ∧ (t.ch d).identity = (s.ch d).identity) :
    BytesKept s t := fun d a => by
  obtain ⟨hbuf, hidentity⟩ := h d
  rw [hbuf, hidentity]
  exact ⟨rfl, rfl⟩

/-! ### The SYNs held back (R361, R172) -/

/-- A `POLL` sends the SYN of this channel: it is active, waits to send it, and the rate limit allows it. -/
abbrev SendsSyn (now : Nat) (c : Chan) (s : State) : Prop :=
  s.active c = true ∧ (s.ch c).hs = .seenNak ∧ ((s.ch c).synValid = false ∨ (s.ch c).tSyn + 1500 ≤ now)

/-- The turn of one channel in the round that settles the sequencers. -/
def synTurn (c : Chan) (now : Nat) (s : State) : State := if SendsSyn now c s then synSent c now s else s

theorem decodeSpontaneous_eq_none {hs : HsState} (hseen : hs ≠ .seenNak) (hack : hs ≠ .gotAck1) (hsoh : hs ≠ .gotSoh)
    (c : Chan) (now : Nat) : decodeSpontaneous hs c now = none := by
  cases hs with
  | seenNak => exact absurd rfl hseen
  | gotAck1 => exact absurd rfl hack
  | gotSoh => exact absurd rfl hsoh
  | idle | sentSyn | sentAck2 | frameModeActive => rfl

/-- From a settled state the only transition without input is the SYN (R179). -/
theorem settle_turn (hhs : (s.ch c).hs ≠ .gotAck1 ∧ (s.ch c).hs ≠ .gotSoh) :
    (if s.active c then settle c now s else .next s) = .next (synTurn c now s) := by
  unfold synTurn
  split
  next hact =>
    by_cases hseen : (s.ch c).hs = .seenNak
    · have hrow : settle c now s = execHsSyn c now s := settle_of_decodeSpontaneous (by rw [hseen]; rfl)
      by_cases hdue : SynDue now (s.ch c)
      · rw [hrow, execHsSyn_of_due hseen hdue, if_pos ⟨hact, hseen, hdue⟩]
      · rw [hrow, execHsSyn_of_not_due hdue, if_neg fun ⟨_, _, h⟩ => hdue h]
    · rw [if_neg fun ⟨_, h, _⟩ => hseen h]
      exact settle_of_no_spontaneous (decodeSpontaneous_eq_none hseen hhs.1 hhs.2 c now)
  next hinactive => rw [if_neg fun ⟨h, _⟩ => hinactive h]

/-- The turn sends the SYN and records it, or does nothing; no other register changes. -/
theorem synTurn_spec (c : Chan) (now : Nat) (s : State) :
    (synTurn c now s).ch c
        = (if SendsSyn now c s then { s.ch c with tSyn := now, synValid := true, hs := .sentSyn } else s.ch c)
    ∧ Emits s (synTurn c now s) (if SendsSyn now c s then [.tx c [s.cfg.bSyn]] else [])
    ∧ OtherKept c s (synTurn c now s) ∧ SharedKept s (synTurn c now s) := by
  unfold synTurn
  split
  · obtain ⟨hch, hemits, hother, hshared, -⟩ := synSent_transmits c now s
    exact ⟨hch, hemits, hother, hshared⟩
  · exact ⟨rfl, (List.append_nil _).symm, fun _ _ => rfl, .refl s⟩

theorem sendsSyn_congr (hcount : t.nActive = s.nActive) (hch : t.ch c = s.ch c) : SendsSyn now c t ↔ SendsSyn now c s := by
  rw [SendsSyn, active_congr hcount, hch]

/-- Both channels' turns, in index order (R360). -/
def synRound (now : Nat) (s : State) : State := synTurn .c1 now (synTurn .c0 now s)

theorem settle_round (hhs : ∀ c, (s.ch c).hs ≠ .gotAck1 ∧ (s.ch c).hs ≠ .gotSoh) :
    forActive (fun c u => settle c now u) s = .next (synRound now s) := by
  obtain ⟨-, -, hother, -⟩ := synTurn_spec .c0 now s
  have hhs1 : ((synTurn .c0 now s).ch .c1).hs ≠ .gotAck1 ∧ ((synTurn .c0 now s).ch .c1).hs ≠ .gotSoh := by
    rw [hother .c1 nofun]
    exact hhs .c1
  rw [forActive, settle_turn (hhs .c0), andThen_next, settle_turn hhs1]
  rfl

/-- The second turn finds channel 1 as the round found it. -/
theorem synRound_spec (now : Nat) (s : State) :
    (∀ c, (synRound now s).ch c
        = if SendsSyn now c s then { s.ch c with tSyn := now, synValid := true, hs := .sentSyn } else s.ch c)
    ∧ Emits s (synRound now s)
        ((if SendsSyn now .c0 s then [.tx .c0 [s.cfg.bSyn]] else [])
          ++ if SendsSyn now .c1 s then [.tx .c1 [s.cfg.bSyn]] else [])
    ∧ SharedKept s (synRound now s) := by
  obtain ⟨hch0, hemits0, hother0, hshared0⟩ := synTurn_spec .c0 now s
  obtain ⟨hch1, hemits1, hother1, hshared1⟩ := synTurn_spec .c1 now (synTurn .c0 now s)
  have ⟨⟨hcfg, hcount, _⟩, _⟩ := hshared0
  have hsends := sendsSyn_congr (now := now) hcount (hother0 .c1 nofun)
  simp only [hsends, hother0 .c1 nofun, hcfg] at hch1 hemits1
  refine ⟨fun c => ?_, hemits0.trans hemits1, hshared0.trans hshared1⟩
  cases c with
  | c0 => exact (hother1 .c0 nofun).trans hch0
  | c1 => exact hch1

/-! ### The relay's evaluation (R342, R362) -/

/-- The relay's change at an evaluation, by its arms. -/
def relayEvents (now : Nat) (s : State) : List Event :=
  if s.ds.contSuction = true ∨ s.rc.workMask ≠ 0#2 then (if s.rc.relay = true then [] else [.relay true])
  else match s.rc.deadline with
    | some d => if d ≤ now ∧ s.rc.relay = true then [.relay false] else []
    | none => if s.rc.relay = true then [.relay false] else []

theorem relayEval_emits (now : Nat) (s : State) : Emits s (relayEval now s) (relayEvents now s) := by
  unfold relayEvents
  split
  next hdemand =>
    rw [relayEval_of_demand now hdemand]
    exact setRelay_on_emits (clearAfterRun s)
  next hdemand =>
    obtain ⟨hsuction, hmask⟩ := not_or.1 hdemand
    rw [Bool.not_eq_true] at hsuction
    rw [not_not] at hmask
    cases hd : s.rc.deadline with
    | some d =>
      by_cases hle : d ≤ now
      · rw [relayEval_of_elapsed hsuction hmask hd hle]
        simp only [hle, true_and]
        exact setRelay_off_emits s
      · rw [relayEval_of_running hsuction hmask hd (not_le.1 hle)]
        simp [Emits, hle]
    | none =>
      rw [relayEval_of_no_afterRun hsuction hmask now hd]
      exact setRelay_off_emits s

/-- The evaluation reads Device State and the coordinator only. -/
theorem relayEval_rc_congr (hds : t.ds = s.ds) (hrc : t.rc = s.rc) (now : Nat) :
    (relayEval now t).rc = (relayEval now s).rc := by
  unfold relayEval
  rw [hds, hrc]
  split
  · simp [hrc]
  · split
    · simp [hrc]
    · split
      · split <;> simp [hrc]
      · simp [hrc]

/-- No arm writes the work mask. -/
theorem relayEval_workMask (now : Nat) (s : State) : (relayEval now s).rc.workMask = s.rc.workMask := by
  rcases relayEval_rc_cases now s with hrc | ⟨-, hrc⟩ | ⟨-, -, hrc⟩ | hrc <;> rw [hrc]

/-! ### The debounced save (R365) -/

theorem saveDue_iff : saveDue s now = true ↔ s.cfgDirty = true ∧ s.cfg.tDebounce ≤ now - s.tCfg := by
  simp only [saveDue, Bool.and_eq_true, decide_eq_true_eq]

theorem debounceFlush_spec (now : Nat) (s : State) :
    Emits s (debounceFlush now s)
        (if s.cfgDirty = true ∧ s.cfg.tDebounce ≤ now - s.tCfg then [.persist .saveConfig] else [])
    ∧ (debounceFlush now s).cfgDirty
        = (if s.cfgDirty = true ∧ s.cfg.tDebounce ≤ now - s.tCfg then false else s.cfgDirty)
    ∧ (debounceFlush now s).tCfg = s.tCfg ∧ (debounceFlush now s).ds = s.ds ∧ EnvKept s (debounceFlush now s)
    ∧ ∀ c, (debounceFlush now s).ch c = s.ch c := by
  simp only [debounceFlush, saveDue_iff]
  split
  · exact ⟨rfl, rfl, rfl, rfl, ⟨rfl, rfl, rfl, rfl⟩, fun c => by cases c <;> rfl⟩
  · exact ⟨(List.append_nil _).symm, rfl, rfl, rfl, ⟨rfl, rfl, rfl, rfl⟩, fun _ => rfl⟩

/-! ### The channels that fell silent (R366) -/

/-- The channel is active and received nothing within the inactivity window. -/
abbrev FellSilent (now : Nat) (c : Chan) (s : State) : Prop :=
  s.active c = true ∧ s.cfg.tInact ≤ now - (s.ch c).tRx

/-- The record `channel_reset` leaves of a channel (R56). -/
def Channel.linkReset (x : Channel) : Channel :=
  { x with hs := .idle, dec := .awaitMarker, esc := false, n := 0, link := .down, locked := false }

/-- The turn of one channel in the round that checks the links. -/
def silenceTurn (c : Chan) (now : Nat) (s : State) : State :=
  if FellSilent now c s then retract c (channelReset c s) else s

theorem inactivityCheck_turn (c : Chan) (now : Nat) (s : State) :
    (if s.active c then .next (inactivityCheck c now s) else .next s : Res) = .next (silenceTurn c now s) := by
  simp only [silenceTurn, FellSilent, inactivityCheck, linkSilent, decide_eq_true_eq]
  split
  next hact => simp only [hact, true_and]
  next hinactive => rw [if_neg fun ⟨h, _⟩ => hinactive h]

section SilenceTurn
variable (c : Chan) (now : Nat) (s : State)

theorem silenceTurn_ch_self :
    (silenceTurn c now s).ch c = if FellSilent now c s then (s.ch c).linkReset else s.ch c := by
  unfold silenceTurn
  split
  · rw [retract_ch, channelReset_ch_self, Channel.linkReset]
  · rfl

theorem silenceTurn_otherKept : OtherKept c s (silenceTurn c now s) := by
  unfold silenceTurn
  split
  · exact fun d hd => by rw [retract_ch, channelReset_ch_other _ _ _ hd]
  · exact fun _ _ => rfl

/-- Beside its channel and the coordinator the turn writes nothing, and it emits nothing. -/
theorem silenceTurn_kept :
    EnvKept s (silenceTurn c now s) ∧ (silenceTurn c now s).ds = s.ds
    ∧ (silenceTurn c now s).cfgDirty = s.cfgDirty ∧ (silenceTurn c now s).tCfg = s.tCfg
    ∧ (silenceTurn c now s).events = s.events := by
  unfold silenceTurn
  split
  · exact retract_channelReset_kept c s
  · exact ⟨⟨rfl, rfl, rfl, rfl⟩, rfl, rfl, rfl, rfl⟩

theorem silenceTurn_relay : (silenceTurn c now s).rc.relay = s.rc.relay := by
  unfold silenceTurn
  split
  · rw [retract_rc, channelReset_rc]
    split <;> rfl
  · rfl

theorem silenceTurn_workMask_self : (silenceTurn c now s).rc.workMask &&& maskBit c
    = if FellSilent now c s then 0#2 else s.rc.workMask &&& maskBit c := by
  unfold silenceTurn
  split
  · obtain ⟨hbit, -⟩ := retract_holds_nothing c (channelReset c s)
    exact hbit
  · rfl

end SilenceTurn

theorem not_maskBit_and_of_ne (hne : d ≠ c) : ~~~ maskBit c &&& maskBit d = maskBit d := by
  cases c <;> cases d
  · exact absurd rfl hne
  · rfl
  · rfl
  · exact absurd rfl hne

/-- Retracting a channel leaves the other's work bit (R348). -/
theorem retract_workMask_other (hne : d ≠ c) (s : State) :
    (retract c s).rc.workMask &&& maskBit d = s.rc.workMask &&& maskBit d := by
  have hmask : (retract c s).rc.workMask = s.rc.workMask &&& ~~~ maskBit c := by
    rw [retract_rc]
    split <;> rfl
  rw [hmask, BitVec.and_assoc, not_maskBit_and_of_ne hne]

theorem silenceTurn_workMask_other (hne : d ≠ c) (now : Nat) (s : State) :
    (silenceTurn c now s).rc.workMask &&& maskBit d = s.rc.workMask &&& maskBit d := by
  unfold silenceTurn
  split
  · rw [retract_workMask_other hne, channelReset_rc]
  · rfl

/-- The turn of a channel that does not own the after-run leaves it. -/
theorem silenceTurn_afterRun_of_not_owner (hne : s.rc.owner ≠ some c) (now : Nat) :
    (silenceTurn c now s).rc.owner = s.rc.owner ∧ (silenceTurn c now s).rc.deadline = s.rc.deadline := by
  unfold silenceTurn
  split
  · rw [retract_rc, channelReset_rc, if_neg hne]
    exact ⟨rfl, rfl⟩
  · exact ⟨rfl, rfl⟩

/-- The turn of its owner clears it when the owner fell silent. -/
theorem silenceTurn_afterRun_of_owner (howner : s.rc.owner = some c) (now : Nat) :
    if FellSilent now c s then (silenceTurn c now s).rc.owner = none ∧ (silenceTurn c now s).rc.deadline = none
    else (silenceTurn c now s).rc.owner = some c ∧ (silenceTurn c now s).rc.deadline = s.rc.deadline := by
  unfold silenceTurn
  split
  · rw [retract_rc, channelReset_rc, if_pos howner]
    exact ⟨rfl, rfl⟩
  · exact ⟨howner, rfl⟩

theorem fellSilent_congr (henv : EnvKept s t) (htRx : (t.ch c).tRx = (s.ch c).tRx) :
    FellSilent now c t ↔ FellSilent now c s := by
  obtain ⟨hcfg, hcount, -⟩ := henv
  rw [FellSilent, active_congr hcount, hcfg, htRx]

theorem fellSilent_silenceTurn (hne : d ≠ c) : FellSilent now d (silenceTurn c now s) ↔ FellSilent now d s :=
  fellSilent_congr (silenceTurn_kept c now s).1 (by rw [silenceTurn_otherKept c now s d hne])

/-- Both channels' turns, in index order (R360). -/
def silenceRound (now : Nat) (s : State) : State := silenceTurn .c1 now (silenceTurn .c0 now s)

theorem inactivityCheck_round (now : Nat) (s : State) :
    forActive (fun c u => .next (inactivityCheck c now u)) s = .next (silenceRound now s) := by
  rw [forActive, inactivityCheck_turn, andThen_next, inactivityCheck_turn]
  rfl

/-- What a channel's own turn writes when the channel fell silent, and the other's turn leaves, the round writes so. -/
theorem silenceRound_observes {α : Type} {obs : Chan → State → α} {g : α → α}
    (hown : ∀ c s, obs c (silenceTurn c now s) = if FellSilent now c s then g (obs c s) else obs c s)
    (hother : ∀ c d s, d ≠ c → obs d (silenceTurn c now s) = obs d s) (c : Chan) (s : State) :
    obs c (silenceRound now s) = if FellSilent now c s then g (obs c s) else obs c s := by
  cases c with
  | c0 => exact (hother .c1 .c0 _ nofun).trans (hown .c0 s)
  | c1 =>
    have hturn := hown .c1 (silenceTurn .c0 now s)
    simp only [fellSilent_silenceTurn (c := .c0) (d := .c1) nofun, hother .c0 .c1 s nofun] at hturn
    exact hturn

section SilenceRound
variable (now : Nat) (s : State)

theorem silenceRound_ch (c : Chan) :
    (silenceRound now s).ch c = if FellSilent now c s then (s.ch c).linkReset else s.ch c :=
  silenceRound_observes (obs := fun c s => s.ch c) (fun c s => silenceTurn_ch_self c now s)
    (fun c d s hne => silenceTurn_otherKept c now s d hne) c s

theorem silenceRound_workMask (c : Chan) : (silenceRound now s).rc.workMask &&& maskBit c
    = if FellSilent now c s then 0#2 else s.rc.workMask &&& maskBit c :=
  silenceRound_observes (obs := fun c s => s.rc.workMask &&& maskBit c) (g := fun _ => 0#2)
    (fun c s => silenceTurn_workMask_self c now s) (fun _ _ s hne => silenceTurn_workMask_other hne now s) c s

theorem silenceRound_relay : (silenceRound now s).rc.relay = s.rc.relay :=
  (silenceTurn_relay ..).trans (silenceTurn_relay ..)

theorem silenceRound_kept :
    EnvKept s (silenceRound now s) ∧ (silenceRound now s).ds = s.ds
    ∧ (silenceRound now s).cfgDirty = s.cfgDirty ∧ (silenceRound now s).tCfg = s.tCfg
    ∧ (silenceRound now s).events = s.events := by
  obtain ⟨henv, hds, hdirty, htime, hevents⟩ := silenceTurn_kept .c0 now s
  obtain ⟨kenv, kds, kdirty, ktime, kevents⟩ := silenceTurn_kept .c1 now (silenceTurn .c0 now s)
  exact ⟨henv.trans kenv, kds.trans hds, kdirty.trans hdirty, ktime.trans htime, kevents.trans hevents⟩

end SilenceRound

theorem silenceRound_afterRun_of_no_owner (hnone : s.rc.owner = none) (now : Nat) :
    (silenceRound now s).rc.owner = none ∧ (silenceRound now s).rc.deadline = s.rc.deadline := by
  obtain ⟨howner, hdeadline⟩ := silenceTurn_afterRun_of_not_owner (c := .c0) (by rw [hnone]; nofun) now
  have hnone0 := howner.trans hnone
  obtain ⟨kowner, kdeadline⟩ := silenceTurn_afterRun_of_not_owner (c := .c1) (by rw [hnone0]; nofun) now
  exact ⟨kowner.trans hnone0, kdeadline.trans hdeadline⟩

/-- Channel 0's turn comes first: the other's finds the after-run cleared, or still channel 0's. -/
theorem silenceRound_afterRun_of_owner (howner : s.rc.owner = some c) (now : Nat) :
    if FellSilent now c s then (silenceRound now s).rc.owner = none ∧ (silenceRound now s).rc.deadline = none
    else (silenceRound now s).rc.owner = some c ∧ (silenceRound now s).rc.deadline = s.rc.deadline := by
  cases c with
  | c0 =>
    have hturn := silenceTurn_afterRun_of_owner howner now
    have hother : (silenceTurn .c0 now s).rc.owner ≠ some .c1 := by
      split at hturn <;> rw [hturn.1] <;> nofun
    obtain ⟨kowner, kdeadline⟩ := silenceTurn_afterRun_of_not_owner hother now
    rw [silenceRound, kowner, kdeadline]
    exact hturn
  | c1 =>
    obtain ⟨howner0, hdeadline0⟩ := silenceTurn_afterRun_of_not_owner (c := .c0) (by rw [howner]; nofun) now
    have hturn := silenceTurn_afterRun_of_owner (howner0.trans howner) now
    simp only [fellSilent_silenceTurn (c := .c0) (d := .c1) nofun, hdeadline0] at hturn
    exact hturn

/-! ### The parts of a `POLL` in order (R360) -/

theorem execPoll_eq (hround : forActive (fun c u => settle c now u) s = .next u) :
    execPoll now s = .next (silenceRound now (debounceFlush now (relayEval now u))) := by
  rw [execPoll, hround, andThen_next, inactivityCheck_round]

/-- The round that settles the sequencers keeps what the later parts read, from any state. -/
theorem settle_round_kept (now : Nat) (s : State) : Ensures (forActive (fun c u => settle c now u) s) fun u =>
    SharedKept s u ∧ ∀ d, (u.ch d).tRx = (s.ch d).tRx := by
  refine forActive_ensures ⟨.refl s, fun _ => rfl⟩ fun c u _ ⟨hshared, htRx⟩ => ?_
  refine (settle_rxKeeps False c now u).mono fun t ht => ⟨hshared.trans (ht.shared.resolve_right id), fun d => ?_⟩
  exact (chan_ne_cases (P := fun d => (t.ch d).tRx = (u.ch d).tRx) d ht.tRx fun hd => by rw [ht.other d hd]).trans (htRx d)

section Middle
variable (hkept : SharedKept s u) (now : Nat)
include hkept

theorem middle_emits {evs : List Event} (hemits : Emits s u evs) :
    Emits s (debounceFlush now (relayEval now u))
      (evs ++ relayEvents now s
        ++ if s.cfgDirty = true ∧ s.cfg.tDebounce ≤ now - s.tCfg then [.persist .saveConfig] else []) := by
  obtain ⟨⟨hcfg, -⟩, hds, hrc, hdirty, htime⟩ := hkept
  have hrelay := relayEval_emits now u
  obtain ⟨hsave, -⟩ := debounceFlush_spec now (relayEval now u)
  rw [relayEvents, hds, hrc] at hrelay
  rw [relayEval_cfg, relayEval_cfgDirty, relayEval_tCfg, hcfg, hdirty, htime] at hsave
  exact (hemits.trans hrelay).trans hsave

theorem middle_kept :
    (debounceFlush now (relayEval now u)).cfgDirty
        = (if s.cfgDirty = true ∧ s.cfg.tDebounce ≤ now - s.tCfg then false else s.cfgDirty)
    ∧ (debounceFlush now (relayEval now u)).tCfg = s.tCfg ∧ (debounceFlush now (relayEval now u)).ds = s.ds
    ∧ EnvKept s (debounceFlush now (relayEval now u))
    ∧ (debounceFlush now (relayEval now u)).rc = (relayEval now s).rc
    ∧ ∀ c, (debounceFlush now (relayEval now u)).ch c = u.ch c := by
  obtain ⟨henv, hds, hrc, hdirty, htime⟩ := hkept
  have ⟨hcfg, _⟩ := henv
  obtain ⟨-, kdirty, ktime, kds, kenv, kch⟩ := debounceFlush_spec now (relayEval now u)
  have krc := (debounceFlush_relayKept now (relayEval now u)).rc
  rw [relayEval_cfg, relayEval_cfgDirty, relayEval_tCfg, hcfg, hdirty, htime] at kdirty
  rw [relayEval_tCfg, htime] at ktime
  rw [relayEval_ds, hds] at kds
  exact ⟨kdirty, ktime, kds, (henv.trans (relayEval_envKept now u)).trans kenv,
    krc.trans (relayEval_rc_congr hds hrc now), fun c => (kch c).trans (relayEval_ch now u c)⟩

end Middle

/-! ### The statements -/

/-- Settles O40: the two rounds and what lies between them emit in this order; the round that checks the links is silent. -/
theorem pollEmitsInOrder : Obligations.PollEmitsInOrder := by
  intro now s hhs
  obtain ⟨-, hemits, hkept⟩ := synRound_spec now s
  obtain ⟨-, -, -, -, hquiet⟩ := silenceRound_kept now (debounceFlush now (relayEval now (synRound now s)))
  exact ⟨_, execPoll_eq (settle_round hhs), (middle_emits hkept now hemits).then_quiet hquiet⟩

/-- Settles O41: a channel's record is written by the SYN it sends, then by the reset if it fell silent. -/
theorem pollRegisters : Obligations.PollRegisters := by
  intro now s hhs
  obtain ⟨hsyn, -, hkept⟩ := synRound_spec now s
  obtain ⟨hdirty, htime, hds, henv, -, hch⟩ := middle_kept hkept now
  obtain ⟨kenv, kds, kdirty, ktime, -⟩ := silenceRound_kept now (debounceFlush now (relayEval now (synRound now s)))
  have hsilent (c : Chan) : FellSilent now c (debounceFlush now (relayEval now (synRound now s))) ↔ FellSilent now c s :=
    fellSilent_congr henv (by rw [hch, hsyn]; split <;> rfl)
  have hfinal (c : Chan) := silenceRound_ch now (debounceFlush now (relayEval now (synRound now s))) c
  simp only [hsilent, hch] at hfinal
  refine ⟨_, execPoll_eq (settle_round hhs), kdirty.trans hdirty, ktime.trans htime, kds.trans hds, henv.trans kenv,
    bytesKept_of_memories fun d => ?_, fun c => ⟨(synRound now s).ch c, ?_, ?_⟩⟩
  · rw [hfinal, hsyn]
    split_ifs <;> exact ⟨rfl, rfl⟩
  · rw [hsyn]
    split <;> rfl
  · rw [hfinal]
    split <;> rfl

/-- Settles O42: the evaluation's coordinator reaches the round that checks the links, which retracts the silent channels. -/
theorem pollRetractsSilent : Obligations.PollRetractsSilent := by
  intro now s
  obtain ⟨u, hround, hkept, htRx⟩ := settle_round_kept now s
  obtain ⟨-, -, -, henv, hrc, hch⟩ := middle_kept hkept now
  have hsilent (c : Chan) : FellSilent now c (debounceFlush now (relayEval now u)) ↔ FellSilent now c s :=
    fellSilent_congr henv (by rw [hch, htRx])
  refine ⟨_, execPoll_eq hround, ?_, fun c => ?_, fun c howner => ?_, fun hnone => ?_⟩
  · rw [silenceRound_relay, hrc]
  · rw [silenceRound_workMask, hrc, relayEval_workMask]
    simp only [hsilent]
  · have hafter := silenceRound_afterRun_of_owner (hrc ▸ howner) now
    rw [hrc] at hafter
    simpa only [hsilent] using hafter
  · rw [← hrc] at hnone ⊢
    exact silenceRound_afterRun_of_no_owner hnone now

end Sys2Proof.Machine
end
